-- ==== Sys2Proof/Word.lean ====
section
/-! DEFINITION. The word types of the engine: the byte of `IMG` (R35), the 16-bit word of the checksum (R38, R88), the 32-bit
data operand and response value, and the 64-bit command word (R53). All values are unsigned (R11). -/

namespace Sys2Proof

/-- One byte of the image, the addressable unit (R35). -/
abbrev Byte := BitVec 8

/-- One 16-bit image word (R36, R38), also the width of a checksum (R88). -/
abbrev Half := BitVec 16

/-- The width of the data operand `D` (R54) and of the response value `R` (R53). -/
abbrev Word := BitVec 32

/-- One command word `CMD` (R53). -/
abbrev Command := BitVec 64

end Sys2Proof
end

