-- ==== Sys2Proof/Config.lean ====
section
/-! DEFINITION. What an implementation fixes: the constants of R7 and the parameters of R8. The engine draws no value during
operation (end of part 1 of spec/93_implementation_defined.md), so there is no free value here. -/

namespace Sys2Proof.Config

/-- `IMG_SIZE` (R7, R36): the image is exactly 256 bytes. -/
abbrev imgSize : Nat := 256

/-- `CSUM_SEED` (R7, R80). -/
abbrev csumSeed : Half := 0xAAAA

/-- `CSUM_ADDR` (R7, R74): the stored checksum's low byte; the high byte is the next. -/
abbrev csumAddr : Nat := 0xFE

/-- `STR_BASE` (R7): where the string cursor begins. -/
abbrev strBase : Nat := 0xA0

/-- `STR_BUDGET` (R7, R94), in characters. -/
abbrev strBudget : Nat := 96

/-- `STR_CAP` (R8, R18), in characters. -/
abbrev strCap : Nat := 255

/-- `WIDE_TAG` (R7, R72): byte 1 of a wide blob. -/
abbrev wideTag : Byte := 3

/-- `DESC_BASE` (R7, R70): the first string descriptor. -/
abbrev descBase : Nat := 0x0E

/-- `UMEM_BASE` (R7, R126). -/
abbrev umemBase : Nat := 0x24

/-- `FCFG_BASE` (R7, R127). -/
abbrev fcfgBase : Nat := 0x80

/-- What an image byte that nothing has written since reset reads as. DESIGN CHOICE (log entry 2), unsafe: R32 leaves it
unspecified. A statement must not rest on it; a reset event (`HostEvent.reset`) brings any image. -/
abbrev unwrittenByte : Byte := 0

/-- The placement parameters of R8 that the spec says a model may quantify over: the flag positions of bytes 0x08 and 0x0A
(R117, R119) and the address of the release major byte (R115). -/
structure Layout where
  posRemoteWakeup : Nat
  posSelfPowered : Nat
  posSuspendPullDown : Nat
  posSerialNumberAvail : Nat
  posFt1248Cpol : Nat
  posFt1248Bord : Nat
  posFt1248FlowControl : Nat
  posDisableI2cSchmitt : Nat
  releaseMajorAt : Nat
deriving DecidableEq, Repr

/-- The minor release byte lies at the other of the two addresses 0x06 and 0x07 (R115). -/
def Layout.releaseMinorAt (l : Layout) : Nat := 0x0D - l.releaseMajorAt

/-- The six positions `POS_0A[0..5]` (R8, R119). -/
def Layout.pos0A (l : Layout) : List Nat :=
  [l.posSuspendPullDown, l.posSerialNumberAvail, l.posFt1248Cpol, l.posFt1248Bord, l.posFt1248FlowControl,
    l.posDisableI2cSchmitt]

/-- The constraints on the parameters: two distinct positions in `0 .. 6` (R117), six distinct positions in `0 .. 7` (R119),
`RELEASE_MAJOR_AT` one of 0x06 and 0x07 (R115). The values taken are `fieldLayout` (Machine/Numbers.lean). -/
def Layout.valid (l : Layout) : Bool :=
  (l.posRemoteWakeup < 7) && (l.posSelfPowered < 7) && (l.posRemoteWakeup != l.posSelfPowered) &&
  l.pos0A.all (· < 8) && decide l.pos0A.Nodup &&
  (l.releaseMajorAt == 0x06 || l.releaseMajorAt == 0x07)

end Sys2Proof.Config
end

