-- ==== Sys2Proof/Syntax.lean ====
section
/-! DEFINITION. The commands of the engine as syntax: the register names (R14, R18, R23 to R28), the 19 opcodes and 13 formats
(R55, R56) and `Instr`, one constructor per row of spec/opcode_table.json. What encodings and numbers these names have is in
Machine/Numbers.lean and Decode.lean. -/

namespace Sys2Proof

/-- The 44 scalar record registers, in the order of their register numbers (R14). -/
inductive ScalarReg where
  | bcdEnable
  | forcePowerEnable
  | deactivateSleep
  | rs485EchoSuppress
  | extOsc
  | extOscFeedback
  | vbusSenseAlloc
  | loadVcp
  | usbVid
  | usbPid
  | usbReleaseMajor
  | usbReleaseMinor
  | remoteWakeup
  | selfPowered
  | maxPower
  | suspendPullDown
  | serialNumberAvail
  | ft1248Cpol
  | ft1248Bord
  | ft1248FlowControl
  | disableI2cSchmitt
  | invertTxd
  | invertRxd
  | invertRts
  | invertCts
  | invertDtr
  | invertDsr
  | invertDcd
  | invertRi
  | dbusDrive
  | dbusSlowSlew
  | dbusSchmitt
  | cbusDrive
  | cbusSlowSlew
  | cbusSchmitt
  | i2cSlaveAddr
  | i2cDeviceId
  | cbusMode0
  | cbusMode1
  | cbusMode2
  | cbusMode3
  | cbusMode4
  | cbusMode5
  | cbusMode6
deriving DecidableEq, Repr

/-- Every register that `REC.RD` and `REC.WR` can name: a scalar (R14), `UMEM[i]` (R16) or `FCFG[i]` (R17). -/
inductive RecReg where
  | scalar (f : ScalarReg)
  | umem (i : Fin 92)
  | fcfg (i : Fin 32)
deriving DecidableEq, Repr

/-- The three string registers `STR[0..2]` (R18). -/
inductive StrReg where
  | manufacturer
  | product
  | serial
deriving DecidableEq, Repr

/-- A descriptor slot number `k` (R91). -/
abbrev Slot := Fin 3

/-- The six control and status registers (R23 to R28). -/
inductive Csr where
  | mode
  | err
  | errA
  | errB
  | csum
  | cur
deriving DecidableEq, Repr

/-- The operand formats of the command word (R55). -/
inductive Format where
  | Z | MA | MAD | MW | MWD | RG | RGD | S | SD | SI | CR | SE | SX
deriving DecidableEq, Repr

/-- The 19 opcodes (R56). -/
inductive Opcode where
  | imgLdb | imgStb | imgLdw | imgStw | recRd | recWr | strClr | strPutc | strLen | strGetc | csrRd
  | csumCompute | csumVerify | csumStamp
  | strCheck | strEncode | strDecode
  | fldEncode | fldDecode
deriving DecidableEq, Repr

/-- A command with its operands (R56, R57). Operands that are plain bit fields stand as bit vectors of the field's width; an
operand that names a register or slot stands as that register or slot. What a bit field may further not hold is
`Instr.wellFormed` (WellFormed.lean). -/
inductive Instr where
  /-- `IMG.LDB a` (R147). -/
  | imgLdb (a : Byte)
  /-- `IMG.STB a, v` (R148). -/
  | imgStb (a v : Byte)
  /-- `IMG.LDW w` (R149). -/
  | imgLdw (w : BitVec 7)
  /-- `IMG.STW w, v` (R150). -/
  | imgStw (w : BitVec 7) (v : Half)
  /-- `REC.RD r` (R151). -/
  | recRd (r : RecReg)
  /-- `REC.WR r, v` (R152). -/
  | recWr (r : RecReg) (v : Word)
  /-- `STR.CLR s` (R153). -/
  | strClr (n : StrReg)
  /-- `STR.PUTC s, ch` (R154). -/
  | strPutc (n : StrReg) (ch : Byte)
  /-- `STR.LEN s` (R155). -/
  | strLen (n : StrReg)
  /-- `STR.GETC s, i` (R156). -/
  | strGetc (n : StrReg) (idx : Byte)
  /-- `CSR.RD n` (R157). -/
  | csrRd (c : Csr)
  /-- `CSUM.COMPUTE` (R81). -/
  | csumCompute
  /-- `CSUM.VERIFY` (R82). -/
  | csumVerify
  /-- `CSUM.STAMP` (R83). -/
  | csumStamp
  /-- `STR.CHECK` (R95). -/
  | strCheck
  /-- `STR.ENCODE s, k, cur` (R97). -/
  | strEncode (n : StrReg) (k : Slot) (cur : BitVec 9)
  /-- `STR.DECODE s, offset, length` (R99). -/
  | strDecode (n : StrReg) (offset length : Byte)
  /-- `FLD.ENCODE` (R131). -/
  | fldEncode
  /-- `FLD.DECODE` (R133). -/
  | fldDecode
deriving DecidableEq, Repr

end Sys2Proof
end

