-- ==== Sys2Proof/Machine/Numbers.lean ====
section
/-! DEFINITION. The numbering of the registers (R14, R16 to R18, R23 to R28, R57): register number and width of every record
register, string numbers, CSR numbers, the legal
values of operands (R57), and the placement values the spec takes (R8). -/

namespace Sys2Proof

/-- The `RN` column of the register table (R14). -/
def ScalarReg.number : ScalarReg → Nat
  | .bcdEnable => 0x00
  | .forcePowerEnable => 0x01
  | .deactivateSleep => 0x02
  | .rs485EchoSuppress => 0x03
  | .extOsc => 0x04
  | .extOscFeedback => 0x05
  | .vbusSenseAlloc => 0x06
  | .loadVcp => 0x07
  | .usbVid => 0x08
  | .usbPid => 0x09
  | .usbReleaseMajor => 0x0A
  | .usbReleaseMinor => 0x0B
  | .remoteWakeup => 0x0C
  | .selfPowered => 0x0D
  | .maxPower => 0x0E
  | .suspendPullDown => 0x0F
  | .serialNumberAvail => 0x10
  | .ft1248Cpol => 0x11
  | .ft1248Bord => 0x12
  | .ft1248FlowControl => 0x13
  | .disableI2cSchmitt => 0x14
  | .invertTxd => 0x15
  | .invertRxd => 0x16
  | .invertRts => 0x17
  | .invertCts => 0x18
  | .invertDtr => 0x19
  | .invertDsr => 0x1A
  | .invertDcd => 0x1B
  | .invertRi => 0x1C
  | .dbusDrive => 0x1D
  | .dbusSlowSlew => 0x1E
  | .dbusSchmitt => 0x1F
  | .cbusDrive => 0x20
  | .cbusSlowSlew => 0x21
  | .cbusSchmitt => 0x22
  | .i2cSlaveAddr => 0x23
  | .i2cDeviceId => 0x24
  | .cbusMode0 => 0x25
  | .cbusMode1 => 0x26
  | .cbusMode2 => 0x27
  | .cbusMode3 => 0x28
  | .cbusMode4 => 0x29
  | .cbusMode5 => 0x2A
  | .cbusMode6 => 0x2B

/-- The width column of the register table (R14). -/
def ScalarReg.width : ScalarReg → Nat
  | .bcdEnable => 1
  | .forcePowerEnable => 1
  | .deactivateSleep => 1
  | .rs485EchoSuppress => 1
  | .extOsc => 1
  | .extOscFeedback => 1
  | .vbusSenseAlloc => 1
  | .loadVcp => 1
  | .usbVid => 16
  | .usbPid => 16
  | .usbReleaseMajor => 8
  | .usbReleaseMinor => 8
  | .remoteWakeup => 1
  | .selfPowered => 1
  | .maxPower => 8
  | .suspendPullDown => 1
  | .serialNumberAvail => 1
  | .ft1248Cpol => 1
  | .ft1248Bord => 1
  | .ft1248FlowControl => 1
  | .disableI2cSchmitt => 1
  | .invertTxd => 1
  | .invertRxd => 1
  | .invertRts => 1
  | .invertCts => 1
  | .invertDtr => 1
  | .invertDsr => 1
  | .invertDcd => 1
  | .invertRi => 1
  | .dbusDrive => 2
  | .dbusSlowSlew => 1
  | .dbusSchmitt => 1
  | .cbusDrive => 2
  | .cbusSlowSlew => 1
  | .cbusSchmitt => 1
  | .i2cSlaveAddr => 16
  | .i2cDeviceId => 24
  | .cbusMode0 => 8
  | .cbusMode1 => 8
  | .cbusMode2 => 8
  | .cbusMode3 => 8
  | .cbusMode4 => 8
  | .cbusMode5 => 8
  | .cbusMode6 => 8

/-- The scalar registers in register-number order (R14). -/
def scalarRegs : List ScalarReg :=
  [.bcdEnable, .forcePowerEnable, .deactivateSleep, .rs485EchoSuppress, .extOsc, .extOscFeedback, .vbusSenseAlloc, .loadVcp, .usbVid, .usbPid, .usbReleaseMajor] ++
  [.usbReleaseMinor, .remoteWakeup, .selfPowered, .maxPower, .suspendPullDown, .serialNumberAvail, .ft1248Cpol, .ft1248Bord, .ft1248FlowControl, .disableI2cSchmitt, .invertTxd] ++
  [.invertRxd, .invertRts, .invertCts, .invertDtr, .invertDsr, .invertDcd, .invertRi, .dbusDrive, .dbusSlowSlew, .dbusSchmitt, .cbusDrive] ++
  [.cbusSlowSlew, .cbusSchmitt, .i2cSlaveAddr, .i2cDeviceId, .cbusMode0, .cbusMode1, .cbusMode2, .cbusMode3, .cbusMode4, .cbusMode5, .cbusMode6]

/-- The scalar register numbered `n`, if any (R57). -/
def scalarOfNumber (n : Nat) : Option ScalarReg := scalarRegs[n]?

/-- The width of a record register: the table's for a scalar, 8 for `UMEM` and `FCFG` (R14, R16, R17, R57). -/
def RecReg.width : RecReg → Nat
  | .scalar f => f.width
  | .umem _ => 8
  | .fcfg _ => 8

/-- The register number `RN` of a record register (R14, R16, R17). -/
def RecReg.number : RecReg → BitVec 16
  | .scalar f => BitVec.ofNat 16 f.number
  | .umem i => BitVec.ofNat 16 (0x100 + i.val)
  | .fcfg i => BitVec.ofNat 16 (0x200 + i.val)

/-- The register that `RN` names: `0x000 .. 0x02B`, `0x100 .. 0x15B` and `0x200 .. 0x21F` are legal, every other value is
not (R57). -/
def recRegOfNumber (rn : BitVec 16) : Option RecReg :=
  let n := rn.toNat
  if n < 0x100 then (scalarOfNumber n).map .scalar
  else if n < 0x200 then if h : n - 0x100 < 92 then some (.umem ⟨n - 0x100, h⟩) else none
  else if h : n - 0x200 < 32 then some (.fcfg ⟨n - 0x200, h⟩) else none

/-- The string number `s` (R18). -/
def StrReg.number : StrReg → Byte
  | .manufacturer => 0
  | .product => 1
  | .serial => 2

/-- The string register that `s` names: 0, 1 or 2 (R57). -/
def strRegOfNumber (n : Byte) : Option StrReg :=
  match n.toNat with
  | 0 => some .manufacturer
  | 1 => some .product
  | 2 => some .serial
  | _ => none

/-- In the image format string `s` uses slot `k = s` (R91). -/
def StrReg.slot : StrReg → Slot
  | .manufacturer => 0
  | .product => 1
  | .serial => 2

/-- The slot that `k` names: 0, 1 or 2 (R57). -/
def slotOfNumber (k : Byte) : Option Slot :=
  if h : k.toNat < 3 then some ⟨k.toNat, h⟩ else none

/-- The CSR number (R23 to R28). -/
def Csr.number : Csr → Byte
  | .mode => 0
  | .err => 1
  | .errA => 2
  | .errB => 3
  | .csum => 4
  | .cur => 5

/-- The CSR numbered `n`; numbers 6 to 255 name no register (R29). -/
def csrOfNumber (n : Byte) : Option Csr :=
  match n.toNat with
  | 0 => some .mode
  | 1 => some .err
  | 2 => some .errA
  | 3 => some .errB
  | 4 => some .csum
  | 5 => some .cur
  | _ => none

/-- `v < 2^width(RN)` (R57, R152). -/
def valueFits (r : RecReg) (v : Word) : Bool := v.toNat < 2 ^ r.width

/-- A character is `0x01 .. 0xFF` (R18, R57). -/
def legalChar (ch : Byte) : Bool := ch != 0

/-- A cursor-in is `0x0A0 .. 0x100` (R57). -/
def legalCursor (cur : BitVec 9) : Bool := 0x0A0 ≤ cur.toNat && cur.toNat ≤ 0x100

/-- The values the spec takes (R8). The flag positions are PRESUMED (log entries 4 and 5: the spec marks them as general
knowledge), `RELEASE_MAJOR_AT` follows spec/90_conflicts.md C2 (log entry 6). Unsafe where the chip differs. -/
def fieldLayout : Config.Layout where
  posRemoteWakeup := 5
  posSelfPowered := 6
  posSuspendPullDown := 2
  posSerialNumberAvail := 3
  posFt1248Cpol := 4
  posFt1248Bord := 5
  posFt1248FlowControl := 6
  posDisableI2cSchmitt := 7
  releaseMajorAt := 0x07

end Sys2Proof
end

