-- ==== Sys2Proof/WellFormed.lean ====
section
/-! DEFINITION. The operand values that are legal but that an operand's type does not already enforce (R57): the width of the
value of `REC.WR`, the non-zero character of `STR.PUTC`, the cursor range of `STR.ENCODE`. Nothing here depends on state: the
two state-dependent operand conditions (R60) stand in the meanings of `STR.PUTC` and `STR.GETC`. -/

namespace Sys2Proof

/-- The command is one that a legal command word stands for (R57). -/
def Instr.wellFormed : Instr → Bool
  | .recWr r v => valueFits r v
  | .strPutc _ ch => legalChar ch
  | .strEncode _ _ cur => legalCursor cur
  | .imgLdb _ => true
  | .imgStb _ _ => true
  | .imgLdw _ => true
  | .imgStw _ _ => true
  | .recRd _ => true
  | .strClr _ => true
  | .strLen _ => true
  | .strGetc _ _ => true
  | .csrRd _ => true
  | .csumCompute => true
  | .csumVerify => true
  | .csumStamp => true
  | .strCheck => true
  | .strDecode _ _ _ => true
  | .fldEncode => true
  | .fldDecode => true

end Sys2Proof
end

