-- ==== Sys2Proof/Decode.lean ====
section
/-! DEFINITION. The command word: its fields (R54), the opcode map (R56), the reserved bits of each format (R55, R58), the
decoder (R60 steps 2 to 4: total, every illegal word rejected by the name of the step that rejects it) and the encoder. -/

namespace Sys2Proof

/-- Why a word is no legal command: the step of R60 that refuses it. All three raise the same `IllegalCommand` (R60). -/
inductive Illegal where
  /-- Step 2: `OP` names no command (R59). -/
  | unassignedOpcode
  /-- Step 3: a reserved bit is not zero (R58). -/
  | reservedBits
  /-- Step 4: an operand is outside its legal values (R57). -/
  | illegalOperand
deriving DecidableEq, Repr

/-- `OP = CMD[7:0]` (R54). -/
def opField (cmd : Command) : Byte := cmd.extractLsb' 0 8

/-- `A = CMD[15:8]` (R54). -/
def aField (cmd : Command) : Byte := cmd.extractLsb' 8 8

/-- `B = CMD[23:16]` (R54). -/
def bField (cmd : Command) : Byte := cmd.extractLsb' 16 8

/-- `C = CMD[31:24]` (R54). -/
def cField (cmd : Command) : Byte := cmd.extractLsb' 24 8

/-- `D = CMD[63:32]` (R54). -/
def dField (cmd : Command) : Word := cmd.extractLsb' 32 32

/-- The command word with the given fields (R54). -/
def packCommand (op a b c : Byte) (d : Word) : Command := d ++ c ++ b ++ a ++ op

/-- The `OP` column of the opcode map (R56). -/
def Opcode.code : Opcode → Byte
  | .imgLdb => 0x01
  | .imgStb => 0x02
  | .imgLdw => 0x03
  | .imgStw => 0x04
  | .recRd => 0x05
  | .recWr => 0x06
  | .strClr => 0x07
  | .strPutc => 0x08
  | .strLen => 0x09
  | .strGetc => 0x0A
  | .csrRd => 0x0B
  | .csumCompute => 0x10
  | .csumVerify => 0x11
  | .csumStamp => 0x12
  | .strCheck => 0x20
  | .strEncode => 0x21
  | .strDecode => 0x22
  | .fldEncode => 0x30
  | .fldDecode => 0x31

/-- The command that `OP` names; `none` for an unassigned opcode (R56, R59). -/
def opcodeOf (op : Byte) : Option Opcode :=
  match op.toNat with
  | 0x01 => some .imgLdb
  | 0x02 => some .imgStb
  | 0x03 => some .imgLdw
  | 0x04 => some .imgStw
  | 0x05 => some .recRd
  | 0x06 => some .recWr
  | 0x07 => some .strClr
  | 0x08 => some .strPutc
  | 0x09 => some .strLen
  | 0x0A => some .strGetc
  | 0x0B => some .csrRd
  | 0x10 => some .csumCompute
  | 0x11 => some .csumVerify
  | 0x12 => some .csumStamp
  | 0x20 => some .strCheck
  | 0x21 => some .strEncode
  | 0x22 => some .strDecode
  | 0x30 => some .fldEncode
  | 0x31 => some .fldDecode
  | _ => none

/-- The format column of the opcode map (R56). -/
def Opcode.format : Opcode → Format
  | .imgLdb => .MA
  | .imgStb => .MAD
  | .imgLdw => .MW
  | .imgStw => .MWD
  | .recRd => .RG
  | .recWr => .RGD
  | .strClr => .S
  | .strPutc => .SD
  | .strLen => .S
  | .strGetc => .SI
  | .csrRd => .CR
  | .csumCompute => .Z
  | .csumVerify => .Z
  | .csumStamp => .Z
  | .strCheck => .Z
  | .strEncode => .SE
  | .strDecode => .SX
  | .fldEncode => .Z
  | .fldDecode => .Z

/-- Every field and bit that the format table marks 0 is zero (R55, R58). -/
def reservedClear (f : Format) (cmd : Command) : Bool :=
  let a := aField cmd
  let b := bField cmd
  let c := cField cmd
  let d := dField cmd
  match f with
  | .Z => a == 0 && b == 0 && c == 0 && d == 0
  | .MA => b == 0 && c == 0 && d == 0
  | .MAD => b == 0 && c == 0 && d.extractLsb' 8 24 == 0
  | .MW => a.extractLsb' 7 1 == 0 && b == 0 && c == 0 && d == 0
  | .MWD => a.extractLsb' 7 1 == 0 && b == 0 && c == 0 && d.extractLsb' 16 16 == 0
  | .RG => c == 0 && d == 0
  | .RGD => c == 0
  | .S => b == 0 && c == 0 && d == 0
  | .SD => b == 0 && c == 0 && d.extractLsb' 8 24 == 0
  | .SI => c == 0 && d == 0
  | .CR => b == 0 && c == 0 && d == 0
  | .SE => c == 0 && d.extractLsb' 9 23 == 0
  | .SX => d == 0

/-- A legal operand, or step 4 of R60. -/
def operand {α : Type} (o : Option α) : Except Illegal α :=
  match o with
  | some x => .ok x
  | none => .error .illegalOperand

/-- `x` if the operand check `ok` holds, else step 4 of R60. -/
def checked {α : Type} (ok : Bool) (x : α) : Except Illegal α :=
  if ok then .ok x else .error .illegalOperand

/-- Operand assembly and the operand checks that depend on the word alone (R57). -/
def operands (o : Opcode) (cmd : Command) : Except Illegal Instr :=
  let a := aField cmd
  let b := bField cmd
  let c := cField cmd
  let d := dField cmd
  match o with
  | .imgLdb => .ok (.imgLdb a)
  | .imgStb => .ok (.imgStb a (d.extractLsb' 0 8))
  | .imgLdw => .ok (.imgLdw (a.extractLsb' 0 7))
  | .imgStw => .ok (.imgStw (a.extractLsb' 0 7) (d.extractLsb' 0 16))
  | .recRd => do return .recRd (← operand (recRegOfNumber (b ++ a)))
  | .recWr => do
      let r ← operand (recRegOfNumber (b ++ a))
      checked (valueFits r d) (.recWr r d)
  | .strClr => do return .strClr (← operand (strRegOfNumber a))
  | .strPutc => do
      let n ← operand (strRegOfNumber a)
      checked (legalChar (d.extractLsb' 0 8)) (.strPutc n (d.extractLsb' 0 8))
  | .strLen => do return .strLen (← operand (strRegOfNumber a))
  | .strGetc => do return .strGetc (← operand (strRegOfNumber a)) b
  | .csrRd => do return .csrRd (← operand (csrOfNumber a))
  | .csumCompute => .ok .csumCompute
  | .csumVerify => .ok .csumVerify
  | .csumStamp => .ok .csumStamp
  | .strCheck => .ok .strCheck
  | .strEncode => do
      let n ← operand (strRegOfNumber a)
      let k ← operand (slotOfNumber b)
      checked (legalCursor (d.extractLsb' 0 9)) (.strEncode n k (d.extractLsb' 0 9))
  | .strDecode => do return .strDecode (← operand (strRegOfNumber a)) b c
  | .fldEncode => .ok .fldEncode
  | .fldDecode => .ok .fldDecode

/-- Steps 2 to 4 of R60, in that order; total on every 64-bit word. -/
def decode (cmd : Command) : Except Illegal Instr :=
  match opcodeOf (opField cmd) with
  | none => .error .unassignedOpcode
  | some o => if reservedClear o.format cmd then operands o cmd else .error .reservedBits

/-- The opcode of a command (R56). -/
def Instr.opcode : Instr → Opcode
  | .imgLdb _ => .imgLdb
  | .imgStb _ _ => .imgStb
  | .imgLdw _ => .imgLdw
  | .imgStw _ _ => .imgStw
  | .recRd _ => .recRd
  | .recWr _ _ => .recWr
  | .strClr _ => .strClr
  | .strPutc _ _ => .strPutc
  | .strLen _ => .strLen
  | .strGetc _ _ => .strGetc
  | .csrRd _ => .csrRd
  | .csumCompute => .csumCompute
  | .csumVerify => .csumVerify
  | .csumStamp => .csumStamp
  | .strCheck => .strCheck
  | .strEncode _ _ _ => .strEncode
  | .strDecode _ _ _ => .strDecode
  | .fldEncode => .fldEncode
  | .fldDecode => .fldDecode

/-- The command word of a command, written from the format table (R54 to R57). -/
def encode (i : Instr) : Command :=
  let op := i.opcode.code
  match i with
  | .imgLdb a => packCommand op a 0 0 0
  | .imgStb a v => packCommand op a 0 0 (v.setWidth 32)
  | .imgLdw w => packCommand op (w.setWidth 8) 0 0 0
  | .imgStw w v => packCommand op (w.setWidth 8) 0 0 (v.setWidth 32)
  | .recRd r => packCommand op (r.number.extractLsb' 0 8) (r.number.extractLsb' 8 8) 0 0
  | .recWr r v => packCommand op (r.number.extractLsb' 0 8) (r.number.extractLsb' 8 8) 0 v
  | .strClr n => packCommand op n.number 0 0 0
  | .strPutc n ch => packCommand op n.number 0 0 (ch.setWidth 32)
  | .strLen n => packCommand op n.number 0 0 0
  | .strGetc n idx => packCommand op n.number idx 0 0
  | .csrRd c => packCommand op c.number 0 0 0
  | .csumCompute => packCommand op 0 0 0 0
  | .csumVerify => packCommand op 0 0 0 0
  | .csumStamp => packCommand op 0 0 0 0
  | .strCheck => packCommand op 0 0 0 0
  | .strEncode n k cur => packCommand op n.number (BitVec.ofNat 8 k.val) 0 (cur.setWidth 32)
  | .strDecode n offset length => packCommand op n.number offset length 0
  | .fldEncode => packCommand op 0 0 0 0
  | .fldDecode => packCommand op 0 0 0 0

/-- The command that the decoder reads from a word of the opcode table: `w` is the 64-bit command word, its bits above `nbits`
zero. A command is one 64-bit word presented whole at the port (R53), so no byte layout comes between. -/
def decodeTableWord (nbits w : Nat) : Option Instr :=
  match decode (BitVec.ofNat 64 (w % 2 ^ nbits)) with
  | .ok i => some i
  | .error _ => none

end Sys2Proof
end

