-- ==== Sys2Proof/Machine/State.lean ====
section
/-! DEFINITION. The state of the engine (R13): the image, the record registers, the string registers, the six control and
status registers, and beside them the two sides of the command port (R53): what the host will present and what the engine last
answered. Plain data throughout; every register holds a value at `State.reset` (R32). -/

namespace Sys2Proof.Machine

/-- The image memory `IMG` (R30, R35): the bytes that differ from what an unlisted address reads as
(`Config.unwrittenByte`), by address. Canonical form: `Memory.wf`. -/
abbrev Memory := List Host.Cell

/-- A text: the content of a string register (R18). What a text may hold is part of the invariant `State.Inv` (Safety.lean). -/
abbrev Text := List Byte

/-- The canonical form of the image memory: addresses strictly rising, all inside `0x00 .. 0xFF` (R35), and no entry equal to
what an unlisted address reads as. -/
def Memory.wf : Memory → Bool
  | [] => true
  | (a, v) :: m => (a < Config.imgSize) && (v != Config.unwrittenByte) && m.all (fun c => a < c.1) && Memory.wf m

/-- The string mode of a run (R23): `MODE = 0` is narrow, `MODE = 1` is wide. -/
inductive Mode where
  | narrow
  | wide
deriving DecidableEq, Repr

/-- The error status `ERR` (R24). The values 5 to 7 of the 3-bit register are never held, so they are no constructors. -/
inductive ErrCode where
  | none
  | checksumMismatch
  | stringTableOverflow
  | boundsFault
  | illegalCommand
deriving DecidableEq, Repr

/-- The 44 scalar record registers, each of its own width (R14, R15). A flag is 1 for true and 0 for false. -/
structure Regs where
  bcdEnable : BitVec 1
  forcePowerEnable : BitVec 1
  deactivateSleep : BitVec 1
  rs485EchoSuppress : BitVec 1
  extOsc : BitVec 1
  extOscFeedback : BitVec 1
  vbusSenseAlloc : BitVec 1
  loadVcp : BitVec 1
  usbVid : BitVec 16
  usbPid : BitVec 16
  usbReleaseMajor : BitVec 8
  usbReleaseMinor : BitVec 8
  remoteWakeup : BitVec 1
  selfPowered : BitVec 1
  maxPower : BitVec 8
  suspendPullDown : BitVec 1
  serialNumberAvail : BitVec 1
  ft1248Cpol : BitVec 1
  ft1248Bord : BitVec 1
  ft1248FlowControl : BitVec 1
  disableI2cSchmitt : BitVec 1
  invertTxd : BitVec 1
  invertRxd : BitVec 1
  invertRts : BitVec 1
  invertCts : BitVec 1
  invertDtr : BitVec 1
  invertDsr : BitVec 1
  invertDcd : BitVec 1
  invertRi : BitVec 1
  dbusDrive : BitVec 2
  dbusSlowSlew : BitVec 1
  dbusSchmitt : BitVec 1
  cbusDrive : BitVec 2
  cbusSlowSlew : BitVec 1
  cbusSchmitt : BitVec 1
  i2cSlaveAddr : BitVec 16
  i2cDeviceId : BitVec 24
  cbusMode0 : BitVec 8
  cbusMode1 : BitVec 8
  cbusMode2 : BitVec 8
  cbusMode3 : BitVec 8
  cbusMode4 : BitVec 8
  cbusMode5 : BitVec 8
  cbusMode6 : BitVec 8
deriving DecidableEq, Repr

/-- The three string registers `STR[0..2]` (R18). -/
structure Strs where
  manufacturer : Text
  product : Text
  serial : Text
deriving DecidableEq, Repr

/-- The status bit of a response (R53, R61): 0 = OK, 1 = FAILED. -/
inductive Status where
  | ok
  | failed
deriving DecidableEq, Repr

/-- A response `(status, R)` (R53, R61). -/
structure Response where
  status : Status
  r : Word
deriving DecidableEq, Repr

/-- What the host does at the port between two engine steps: present a command word (R53), or apply reset (R183) with the
strap `MODE_WIDE` at the given level (R185) and the image holding the given 256 bytes. R32 leaves the image unspecified after
reset, so these bytes are whatever the environment makes them; the engine does not choose them (log entries 1 and 2). -/
inductive HostEvent where
  | command (cmd : Command)
  | reset (strap : Mode) (image : Vector Byte 256)
deriving DecidableEq, Repr

/-- The whole state of the engine (R13) and its port (R53). -/
structure State where
  /-- `IMG` (R30). -/
  img : Memory
  /-- The scalar `REC` registers (R14). -/
  regs : Regs
  /-- `UMEM[0..91]` (R16). -/
  umem : Vector Byte 92
  /-- `FCFG[0..31]` (R17). -/
  fcfg : Vector Byte 32
  /-- `STR[0..2]` (R18). -/
  strs : Strs
  /-- CSR `MODE` (R23). -/
  mode : Mode
  /-- CSR `ERR` (R24). -/
  err : ErrCode
  /-- CSR `ERR_A` (R25). -/
  errA : Half
  /-- CSR `ERR_B` (R26). -/
  errB : Half
  /-- CSR `CSUM` (R27). -/
  csum : Half
  /-- CSR `CUR` (R28). -/
  cur : BitVec 9
  /-- The response last presented (R53, R61); `none` before the first response of a run. The model's own field (log entry 7). -/
  response : Option Response
  /-- What the host will present at the port, oldest first: one entry per step (R53). The model's own field (log entry 1). -/
  port : List HostEvent
deriving DecidableEq, Repr

/-- Why the model stops: never. R180: every word in every state has exactly one outcome, and every error of the engine is a
state it goes on from (R166, R168), so there is no constructor (log entry 8). -/
inductive Fault where
deriving DecidableEq, Repr

/-- Why the model has no meaning for a command. -/
inductive Refusal where
  /-- Raised by an arm of `exec` whose command has no meaning yet; no arm raises it in this model. Safe: the run stops. -/
  | notModelled (mnemonic : String)
deriving DecidableEq, Repr

/-- The record registers after reset: all zero (R32). -/
def Regs.zero : Regs where
  bcdEnable := 0
  forcePowerEnable := 0
  deactivateSleep := 0
  rs485EchoSuppress := 0
  extOsc := 0
  extOscFeedback := 0
  vbusSenseAlloc := 0
  loadVcp := 0
  usbVid := 0
  usbPid := 0
  usbReleaseMajor := 0
  usbReleaseMinor := 0
  remoteWakeup := 0
  selfPowered := 0
  maxPower := 0
  suspendPullDown := 0
  serialNumberAvail := 0
  ft1248Cpol := 0
  ft1248Bord := 0
  ft1248FlowControl := 0
  disableI2cSchmitt := 0
  invertTxd := 0
  invertRxd := 0
  invertRts := 0
  invertCts := 0
  invertDtr := 0
  invertDsr := 0
  invertDcd := 0
  invertRi := 0
  dbusDrive := 0
  dbusSlowSlew := 0
  dbusSchmitt := 0
  cbusDrive := 0
  cbusSlowSlew := 0
  cbusSchmitt := 0
  i2cSlaveAddr := 0
  i2cDeviceId := 0
  cbusMode0 := 0
  cbusMode1 := 0
  cbusMode2 := 0
  cbusMode3 := 0
  cbusMode4 := 0
  cbusMode5 := 0
  cbusMode6 := 0

/-- The engine right after reset (R32, R183). `img` lists nothing, so every byte reads as `Config.unwrittenByte`, and `mode` is
narrow: R32 gives neither value (DESIGN CHOICE, log entries 2 and 3, unsafe); the host has presented nothing yet. -/
def State.reset : State where
  img := []
  regs := Regs.zero
  umem := Vector.replicate 92 0
  fcfg := Vector.replicate 32 0
  strs := ⟨[], [], []⟩
  mode := .narrow
  err := .none
  errA := 0
  errB := 0
  csum := 0
  cur := 0x0A0
  response := none
  port := []

end Sys2Proof.Machine
end

