-- ==== Sys2Proof/Machine/Operands.lean ====
section
/-! DEFINITION. The operand forms over the state: reading and writing the register that an operand names. The engine has no
other addressing: an image address is the operand itself (section 1 of spec/43_access.md). -/

namespace Sys2Proof.Machine

/-- The value of a scalar register, zero-extended (R151). -/
def Regs.get (r : Regs) (f : ScalarReg) : Word :=
  match f with
  | .bcdEnable => r.bcdEnable.setWidth 32
  | .forcePowerEnable => r.forcePowerEnable.setWidth 32
  | .deactivateSleep => r.deactivateSleep.setWidth 32
  | .rs485EchoSuppress => r.rs485EchoSuppress.setWidth 32
  | .extOsc => r.extOsc.setWidth 32
  | .extOscFeedback => r.extOscFeedback.setWidth 32
  | .vbusSenseAlloc => r.vbusSenseAlloc.setWidth 32
  | .loadVcp => r.loadVcp.setWidth 32
  | .usbVid => r.usbVid.setWidth 32
  | .usbPid => r.usbPid.setWidth 32
  | .usbReleaseMajor => r.usbReleaseMajor.setWidth 32
  | .usbReleaseMinor => r.usbReleaseMinor.setWidth 32
  | .remoteWakeup => r.remoteWakeup.setWidth 32
  | .selfPowered => r.selfPowered.setWidth 32
  | .maxPower => r.maxPower.setWidth 32
  | .suspendPullDown => r.suspendPullDown.setWidth 32
  | .serialNumberAvail => r.serialNumberAvail.setWidth 32
  | .ft1248Cpol => r.ft1248Cpol.setWidth 32
  | .ft1248Bord => r.ft1248Bord.setWidth 32
  | .ft1248FlowControl => r.ft1248FlowControl.setWidth 32
  | .disableI2cSchmitt => r.disableI2cSchmitt.setWidth 32
  | .invertTxd => r.invertTxd.setWidth 32
  | .invertRxd => r.invertRxd.setWidth 32
  | .invertRts => r.invertRts.setWidth 32
  | .invertCts => r.invertCts.setWidth 32
  | .invertDtr => r.invertDtr.setWidth 32
  | .invertDsr => r.invertDsr.setWidth 32
  | .invertDcd => r.invertDcd.setWidth 32
  | .invertRi => r.invertRi.setWidth 32
  | .dbusDrive => r.dbusDrive.setWidth 32
  | .dbusSlowSlew => r.dbusSlowSlew.setWidth 32
  | .dbusSchmitt => r.dbusSchmitt.setWidth 32
  | .cbusDrive => r.cbusDrive.setWidth 32
  | .cbusSlowSlew => r.cbusSlowSlew.setWidth 32
  | .cbusSchmitt => r.cbusSchmitt.setWidth 32
  | .i2cSlaveAddr => r.i2cSlaveAddr.setWidth 32
  | .i2cDeviceId => r.i2cDeviceId.setWidth 32
  | .cbusMode0 => r.cbusMode0.setWidth 32
  | .cbusMode1 => r.cbusMode1.setWidth 32
  | .cbusMode2 => r.cbusMode2.setWidth 32
  | .cbusMode3 => r.cbusMode3.setWidth 32
  | .cbusMode4 => r.cbusMode4.setWidth 32
  | .cbusMode5 => r.cbusMode5.setWidth 32
  | .cbusMode6 => r.cbusMode6.setWidth 32

/-- Write a scalar register with the low bits of `v`; the caller has checked that `v` fits (R152). -/
def Regs.set (r : Regs) (f : ScalarReg) (v : Word) : Regs :=
  match f with
  | .bcdEnable => { r with bcdEnable := v.setWidth 1 }
  | .forcePowerEnable => { r with forcePowerEnable := v.setWidth 1 }
  | .deactivateSleep => { r with deactivateSleep := v.setWidth 1 }
  | .rs485EchoSuppress => { r with rs485EchoSuppress := v.setWidth 1 }
  | .extOsc => { r with extOsc := v.setWidth 1 }
  | .extOscFeedback => { r with extOscFeedback := v.setWidth 1 }
  | .vbusSenseAlloc => { r with vbusSenseAlloc := v.setWidth 1 }
  | .loadVcp => { r with loadVcp := v.setWidth 1 }
  | .usbVid => { r with usbVid := v.setWidth 16 }
  | .usbPid => { r with usbPid := v.setWidth 16 }
  | .usbReleaseMajor => { r with usbReleaseMajor := v.setWidth 8 }
  | .usbReleaseMinor => { r with usbReleaseMinor := v.setWidth 8 }
  | .remoteWakeup => { r with remoteWakeup := v.setWidth 1 }
  | .selfPowered => { r with selfPowered := v.setWidth 1 }
  | .maxPower => { r with maxPower := v.setWidth 8 }
  | .suspendPullDown => { r with suspendPullDown := v.setWidth 1 }
  | .serialNumberAvail => { r with serialNumberAvail := v.setWidth 1 }
  | .ft1248Cpol => { r with ft1248Cpol := v.setWidth 1 }
  | .ft1248Bord => { r with ft1248Bord := v.setWidth 1 }
  | .ft1248FlowControl => { r with ft1248FlowControl := v.setWidth 1 }
  | .disableI2cSchmitt => { r with disableI2cSchmitt := v.setWidth 1 }
  | .invertTxd => { r with invertTxd := v.setWidth 1 }
  | .invertRxd => { r with invertRxd := v.setWidth 1 }
  | .invertRts => { r with invertRts := v.setWidth 1 }
  | .invertCts => { r with invertCts := v.setWidth 1 }
  | .invertDtr => { r with invertDtr := v.setWidth 1 }
  | .invertDsr => { r with invertDsr := v.setWidth 1 }
  | .invertDcd => { r with invertDcd := v.setWidth 1 }
  | .invertRi => { r with invertRi := v.setWidth 1 }
  | .dbusDrive => { r with dbusDrive := v.setWidth 2 }
  | .dbusSlowSlew => { r with dbusSlowSlew := v.setWidth 1 }
  | .dbusSchmitt => { r with dbusSchmitt := v.setWidth 1 }
  | .cbusDrive => { r with cbusDrive := v.setWidth 2 }
  | .cbusSlowSlew => { r with cbusSlowSlew := v.setWidth 1 }
  | .cbusSchmitt => { r with cbusSchmitt := v.setWidth 1 }
  | .i2cSlaveAddr => { r with i2cSlaveAddr := v.setWidth 16 }
  | .i2cDeviceId => { r with i2cDeviceId := v.setWidth 24 }
  | .cbusMode0 => { r with cbusMode0 := v.setWidth 8 }
  | .cbusMode1 => { r with cbusMode1 := v.setWidth 8 }
  | .cbusMode2 => { r with cbusMode2 := v.setWidth 8 }
  | .cbusMode3 => { r with cbusMode3 := v.setWidth 8 }
  | .cbusMode4 => { r with cbusMode4 := v.setWidth 8 }
  | .cbusMode5 => { r with cbusMode5 := v.setWidth 8 }
  | .cbusMode6 => { r with cbusMode6 := v.setWidth 8 }

/-- The value of the register numbered `RN`, zero-extended (R151). -/
def readReg (s : State) (r : RecReg) : Word :=
  match r with
  | .scalar f => s.regs.get f
  | .umem i => (s.umem.get i).setWidth 32
  | .fcfg i => (s.fcfg.get i).setWidth 32

/-- Write the register numbered `RN` with `v[width-1:0]` (R152). -/
def writeReg (s : State) (r : RecReg) (v : Word) : State :=
  match r with
  | .scalar f => { s with regs := s.regs.set f v }
  | .umem i => { s with umem := s.umem.set i.val (v.setWidth 8) i.isLt }
  | .fcfg i => { s with fcfg := s.fcfg.set i.val (v.setWidth 8) i.isLt }

/-- The text held by a string register (R18). -/
def Strs.get (t : Strs) (n : StrReg) : Text :=
  match n with
  | .manufacturer => t.manufacturer
  | .product => t.product
  | .serial => t.serial

/-- Replace the text of a string register (R18). -/
def Strs.set (t : Strs) (n : StrReg) (text : Text) : Strs :=
  match n with
  | .manufacturer => { t with manufacturer := text }
  | .product => { t with product := text }
  | .serial => { t with serial := text }

/-- The value of `MODE` (R23). -/
def Mode.code : Mode → BitVec 1
  | .narrow => 0
  | .wide => 1

/-- The value of `ERR` (R24). -/
def ErrCode.code : ErrCode → BitVec 3
  | .none => 0
  | .checksumMismatch => 1
  | .stringTableOverflow => 2
  | .boundsFault => 3
  | .illegalCommand => 4

/-- The value of a control and status register, zero-extended (R157). -/
def readCsr (s : State) (c : Csr) : Word :=
  match c with
  | .mode => s.mode.code.setWidth 32
  | .err => s.err.code.setWidth 32
  | .errA => s.errA.setWidth 32
  | .errB => s.errB.setWidth 32
  | .csum => s.csum.setWidth 32
  | .cur => s.cur.setWidth 32

end Sys2Proof.Machine
end

