-- ==== Sys2Proof/Machine/Flags.lean ====
section
/-! DEFINITION. The engine has no condition codes and no predicates (R22). The only status a command leaves is the response
(R53, R61) and the error status `ERR` (R24): here are the Failed state, the status computation and the two forms of a response. -/

namespace Sys2Proof.Machine

/-- The Failed state: `ERR` is not 0 (R168). -/
def State.isFailed (s : State) : Bool := s.err != .none

/-- The status bit (R53): 0 = OK, 1 = FAILED. -/
def Status.bit : Status → BitVec 1
  | .ok => 0
  | .failed => 1

/-- Answer OK with the value the command's rule names (R61). -/
def State.respondOk (s : State) (v : Word) : State := { s with response := some ⟨.ok, v⟩ }

/-- Answer FAILED with `zext_32(CSR[ERR])` (R61, R166, R168). -/
def State.respondFailed (s : State) : State := { s with response := some ⟨.failed, s.err.code.setWidth 32⟩ }

end Sys2Proof.Machine
end

