-- ==== Sys2Proof/Machine/Ops.lean ====
section
/-! DEFINITION. The named operations over the image memory (R11, R35 to R42), the serializer primitives of the field codec (R107
to R111), the engine's errors and how one is taken (R161, R166 to R168), how a command answers (R61), the reset event (R183), and
what the engine finds at its port (R53, R60). -/

namespace Sys2Proof.Machine

/-! ### Image memory -/

/-- `IMG[a]` (R11): an unlisted address reads as `Config.unwrittenByte`. -/
def Memory.read : Memory → Nat → Byte
  | [], _ => Config.unwrittenByte
  | (b, v) :: m, a => if b = a then v else Memory.read m a

/-- Insert an entry in address order. -/
def Memory.insert : Memory → Nat → Byte → Memory
  | [], a, v => [(a, v)]
  | (b, w) :: m, a, v => if a < b then (a, v) :: (b, w) :: m else (b, w) :: Memory.insert m a v

/-- `IMG[a] <- v` in canonical form: no entry for the value an unlisted address reads as. There is no byte outside
`0x00 .. 0xFF` (R35, R39), so nothing is stored there; the engine never asks for it (log entry 9). -/
def Memory.write (m : Memory) (a : Nat) (v : Byte) : Memory :=
  if a < Config.imgSize then
    let rest : Memory := m.filter fun c => c.1 != a
    if v = Config.unwrittenByte then rest else Memory.insert rest a v
  else m

/-- `put_bytes(M, a, b)` (R111): byte `i` of the sequence goes to `M[a + i]`. -/
def Memory.writeBytes : Memory → Nat → List Byte → Memory
  | m, _, [] => m
  | m, a, b :: bs => Memory.writeBytes (m.write a b) (a + 1) bs

/-- `get_bytes(M, a, n)` (R111): `M[a], ..., M[a+n-1]`. -/
def Memory.readBytes (m : Memory) (a n : Nat) : List Byte := (List.range n).map fun i => m.read (a + i)

/-- An image of 256 zero bytes (R116). -/
def Memory.zeroFilled : Memory := Memory.writeBytes [] 0 (List.replicate Config.imgSize 0)

/-- The image that holds byte `a` of the given 256 at address `a`. Used by the reset event alone (log entry 2). -/
def Memory.ofBytes (bytes : Vector Byte 256) : Memory := Memory.writeBytes [] 0 bytes.toList

/-- An access of `n` bytes at `a` is inside the image (R39). -/
def insideImage (a n : Nat) : Bool := a + n ≤ Config.imgSize

/-! ### Serializer primitives -/

/-- `get_bit(M, a, p)` (R107). -/
def Memory.getBit (m : Memory) (a p : Nat) : BitVec 1 := (m.read a).extractLsb' p 1

/-- `put_bit(M, a, p, v)` (R107). By R112 (d) a sequence of these into a zero byte is the bitwise or that the Encode clauses
of R113 to R121 write. -/
def Memory.putBit (m : Memory) (a p : Nat) (v : BitVec 1) : Memory :=
  m.write a ((m.read a &&& ~~~(1#8 <<< p)) ||| (v.setWidth 8 <<< p))

/-- `get_bits(M, a, lo, w)` (R108). -/
def Memory.getBits (m : Memory) (a lo w : Nat) : BitVec w := (m.read a).extractLsb' lo w

/-- `put_bits(M, a, lo, w, v)` (R108). -/
def Memory.putBits (m : Memory) (a lo w : Nat) (v : BitVec w) : Memory :=
  m.write a ((m.read a &&& ~~~((BitVec.allOnes w).setWidth 8 <<< lo)) ||| (v.setWidth 8 <<< lo))

/-- `get_le16(M, a)` (R109), the word view of R38. -/
def Memory.getLe16 (m : Memory) (a : Nat) : Half := m.read (a + 1) ++ m.read a

/-- `put_le16(M, a, v)` (R109). -/
def Memory.putLe16 (m : Memory) (a : Nat) (v : Half) : Memory :=
  (m.write a (v.extractLsb' 0 8)).write (a + 1) (v.extractLsb' 8 8)

/-- `get_le24(M, a)` (R110). -/
def Memory.getLe24 (m : Memory) (a : Nat) : BitVec 24 := m.read (a + 2) ++ m.read (a + 1) ++ m.read a

/-- `put_le24(M, a, v)` (R110). -/
def Memory.putLe24 (m : Memory) (a : Nat) (v : BitVec 24) : Memory :=
  ((m.write a (v.extractLsb' 0 8)).write (a + 1) (v.extractLsb' 8 8)).write (a + 2) (v.extractLsb' 16 8)

/-! ### Errors -/

/-- An error with its information words (R161). -/
inductive EngineError where
  /-- `ChecksumMismatch(c, s)`: the computed and the stored checksum (R82). -/
  | checksumMismatch (computed stored : Half)
  /-- `StringTableOverflow(total, 96)` (R94). -/
  | stringTableOverflow (total : Nat)
  /-- `BoundsFault(a, n)`: first address and length of the refused range (R39). -/
  | boundsFault (address length : Nat)
  /-- `IllegalCommand(CMD[15:0], CMD[31:16])` (R60). -/
  | illegalCommand (cmd : Command)
deriving DecidableEq, Repr

/-- `code(E)` (R161). -/
def EngineError.code : EngineError → ErrCode
  | .checksumMismatch _ _ => .checksumMismatch
  | .stringTableOverflow _ => .stringTableOverflow
  | .boundsFault _ _ => .boundsFault
  | .illegalCommand _ => .illegalCommand

/-- The `ERR_A` column of the error table (R161), cut to 16 bits (R166). -/
def EngineError.infoA : EngineError → Half
  | .checksumMismatch computed _ => computed
  | .stringTableOverflow total => BitVec.ofNat 16 total
  | .boundsFault address _ => BitVec.ofNat 16 address
  | .illegalCommand cmd => cmd.extractLsb' 0 16

/-- The `ERR_B` column of the error table (R161), cut to 16 bits (R166). -/
def EngineError.infoB : EngineError → Half
  | .checksumMismatch _ stored => stored
  | .stringTableOverflow _ => BitVec.ofNat 16 Config.strBudget
  | .boundsFault _ length => BitVec.ofNat 16 length
  | .illegalCommand cmd => cmd.extractLsb' 16 16

/-- TAKING AN ERROR: `raise E(a, b)` (R166), the engine's one exception entry. It writes `ERR`, `ERR_A`, `ERR_B` and the FAILED
response and nothing else: no pc is saved, no vector consulted, no mode changed. There is no return from it: only reset clears
`ERR` (R169). -/
def State.raise (s : State) (e : EngineError) : State :=
  { s with
    err := e.code
    errA := e.infoA
    errB := e.infoB
    response := some ⟨.failed, e.code.code.setWidth 32⟩ }

/-- `MemRead(a, n)` (R11): little-endian, `BoundsFault` outside the image. -/
def memRead (m : Memory) (a n : Nat) : Except EngineError Word :=
  if insideImage a n then
    .ok ((List.range n).foldl (fun v i => v ||| ((m.read (a + i)).setWidth 32 <<< (8 * i))) 0)
  else .error (.boundsFault a n)

/-- `MemWrite(a, n, v)` (R11): little-endian, `BoundsFault` outside the image. -/
def memWrite (m : Memory) (a n : Nat) (v : Word) : Except EngineError Memory :=
  if insideImage a n then
    .ok (m.writeBytes a ((List.range n).map fun i => v.extractLsb' (8 * i) 8))
  else .error (.boundsFault a n)

/-! ### How a command ends -/

/-- How a command's rule ends (R180): it completes in a state with a value for `R`, or it raises an error; the state beside the
error is the one the raise starts from, the state before the command but for `CSUM` of `CSUM.VERIFY` (R167). -/
inductive CommandResult where
  | done (s : State) (v : Word)
  | raised (s : State) (e : EngineError)
deriving DecidableEq, Repr

/-- The state that a command's end leaves, with its response (R61, R166). -/
def CommandResult.finish : CommandResult → State
  | .done s v => s.respondOk v
  | .raised s e => s.raise e

/-- A computation that may raise, ended as a command: an error starts from the state before the command (R167). -/
def CommandResult.ofExcept {α : Type} (s : State) (r : Except EngineError α) (k : α → CommandResult) : CommandResult :=
  match r with
  | .ok x => k x
  | .error e => .raised s e

/-- Refusal in the Failed state (R168): nothing changes; the response is `(FAILED, ERR)`. -/
def refuse (s : State) : Host.Outcome State Fault Refusal := .next s.respondFailed

/-- A command that executes only while the engine is operating (R168, R180). -/
def whenOperating (s : State) (body : CommandResult) : Host.Outcome State Fault Refusal :=
  if s.isFailed then refuse s else .next body.finish

/-- `IllegalCommand` for a word that is no legal command, refused in the Failed state (R60, R168). -/
def illegalWord (cmd : Command) (s : State) : Host.Outcome State Fault Refusal :=
  whenOperating s (.raised s (.illegalCommand cmd))

/-! ### Reset and the port -/

/-- The reset event (R183): every piece of state at its value of R32, `MODE` sampled from the strap (R185), the image whatever
the environment leaves there, no response presented yet. What the host has still to present is the host's (log entry 1). -/
def resetEngine (strap : Mode) (image : Vector Byte 256) (port : List HostEvent) : State :=
  { State.reset with
    img := Memory.ofBytes image
    mode := strap
    port := port }

/-- What the engine finds at its port. -/
inductive PortInput where
  /-- Nothing is presented: the engine is idle (R172). -/
  | idle
  /-- Reset is applied; the state it leaves. -/
  | reset (s : State)
  /-- A legal command word: the command, and the state with the word taken from the port. -/
  | run (i : Instr) (s : State)
  /-- A word that is no legal command, and the state with the word taken from the port. -/
  | illegal (cmd : Command) (s : State)
deriving DecidableEq, Repr

/-- Take the next input from the port and decode a command word (R53, R60). -/
def takeInput (s : State) : PortInput :=
  match s.port with
  | [] => .idle
  | .reset strap image :: rest => .reset (resetEngine strap image rest)
  | .command cmd :: rest =>
    match decode cmd with
    | .ok i => .run i { s with port := rest }
    | .error _ => .illegal cmd { s with port := rest }

/-- The host presents one more command word, before anything else it presents (R53). -/
def present (s : State) (cmd : Command) : State := { s with port := .command cmd :: s.port }

end Sys2Proof.Machine
end

