-- ==== Sys2Proof/Machine/Access.lean ====
section
/-! DEFINITION. The access family (spec/43_access.md): IMG.LDB, IMG.STB, IMG.LDW, IMG.STW, REC.RD, REC.WR, STR.CLR, STR.PUTC,
STR.LEN, STR.GETC, CSR.RD. -/

namespace Sys2Proof.Machine

/-- `IMG.LDB a` (R147). -/
def execImgLdb (a : Byte) (s : State) : Host.Outcome State Fault Refusal :=
  whenOperating s (.done s ((s.img.read a.toNat).setWidth 32))

/-- `IMG.STB a, v` (R148). -/
def execImgStb (a v : Byte) (s : State) : Host.Outcome State Fault Refusal :=
  whenOperating s (.done { s with img := s.img.write a.toNat v } 0)

/-- `IMG.LDW w` (R149). -/
def execImgLdw (w : BitVec 7) (s : State) : Host.Outcome State Fault Refusal :=
  whenOperating s (.ofExcept s (memRead s.img (2 * w.toNat) 2) fun v => .done s v)

/-- `IMG.STW w, v` (R150). -/
def execImgStw (w : BitVec 7) (v : Half) (s : State) : Host.Outcome State Fault Refusal :=
  whenOperating s (.ofExcept s (memWrite s.img (2 * w.toNat) 2 (v.setWidth 32)) fun m => .done { s with img := m } 0)

/-- `REC.RD r` (R151). -/
def execRecRd (r : RecReg) (s : State) : Host.Outcome State Fault Refusal :=
  whenOperating s (.done s (readReg s r))

/-- `REC.WR r, v` (R152): a value wider than the register raises `IllegalCommand`, nothing is truncated. -/
def execRecWr (r : RecReg) (v : Word) (s : State) : Host.Outcome State Fault Refusal :=
  whenOperating s <|
    if valueFits r v then .done (writeReg s r v) 0 else .raised s (.illegalCommand (encode (.recWr r v)))

/-- `STR.CLR s` (R153). -/
def execStrClr (n : StrReg) (s : State) : Host.Outcome State Fault Refusal :=
  whenOperating s (.done { s with strs := s.strs.set n [] } 0)

/-- `STR.PUTC s, ch` (R154): a zero character or a full register raises `IllegalCommand`; `R` is the new length. -/
def execStrPutc (n : StrReg) (ch : Byte) (s : State) : Host.Outcome State Fault Refusal :=
  whenOperating s <|
    let text := s.strs.get n
    if legalChar ch && text.length < Config.strCap then
      .done { s with strs := s.strs.set n (text ++ [ch]) } (BitVec.ofNat 32 (text.length + 1))
    else .raised s (.illegalCommand (encode (.strPutc n ch)))

/-- `STR.LEN s` (R155). -/
def execStrLen (n : StrReg) (s : State) : Host.Outcome State Fault Refusal :=
  whenOperating s (.done s (BitVec.ofNat 32 (s.strs.get n).length))

/-- `STR.GETC s, i` (R156): an index at or past the length raises `IllegalCommand`. -/
def execStrGetc (n : StrReg) (idx : Byte) (s : State) : Host.Outcome State Fault Refusal :=
  whenOperating s <|
    match (s.strs.get n)[idx.toNat]? with
    | some ch => .done s (ch.setWidth 32)
    | none => .raised s (.illegalCommand (encode (.strGetc n idx)))

/-- `CSR.RD n` (R157): the one command that executes in the Failed state too (R168). -/
def execCsrRd (c : Csr) (s : State) : Host.Outcome State Fault Refusal :=
  .next (CommandResult.done s (readCsr s c)).finish

end Sys2Proof.Machine
end

