-- ==== Sys2Proof/Machine/Checksum.lean ====
section
/-! DEFINITION. The checksum family (spec/40_checksum.md): the checksum function and CSUM.COMPUTE, CSUM.VERIFY, CSUM.STAMP. It is
a seed, an exclusive-or and a rotation, no polynomial CRC (R3, spec/90_conflicts.md C7). -/

namespace Sys2Proof.Machine

/-- `csum_step(c, w) = rotl16(c ^ w, 1)` (R79). -/
def csumStep (c w : Half) : Half := (c ^^^ w).rotateLeft 1

/-- The byte addresses of the 81 covered words in iteration order: `0x00 .. 0x22`, then `0x80 .. 0xFC` (R45, R80). -/
def coveredWords : List Nat := (List.range 18).map (2 * ·) ++ (List.range 63).map (0x80 + 2 * ·)

/-- `csum_compute(M)` (R80). -/
def csumCompute (m : Memory) : Half := (coveredWords.map m.getLe16).foldl csumStep Config.csumSeed

/-- The image with its checksum stored in its last two bytes, and that checksum (R83, R129). -/
def stamp (m : Memory) : Except EngineError (Memory × Half) := do
  let c := csumCompute m
  let stamped ← memWrite m Config.csumAddr 2 (c.setWidth 32)
  return (stamped, c)

/-- `CSUM.COMPUTE` (R81). -/
def execCsumCompute (s : State) : Host.Outcome State Fault Refusal :=
  let c := csumCompute s.img
  whenOperating s (.done { s with csum := c } (c.setWidth 32))

/-- `CSUM.VERIFY` (R82): `CSUM` is written on a mismatch too (R167). -/
def execCsumVerify (s : State) : Host.Outcome State Fault Refusal :=
  let c := csumCompute s.img
  whenOperating s <| .ofExcept s (memRead s.img Config.csumAddr 2) fun stored =>
    if c = stored.setWidth 16 then .done { s with csum := c } (c.setWidth 32)
    else .raised { s with csum := c } (.checksumMismatch c (stored.setWidth 16))

/-- `CSUM.STAMP` (R83). -/
def execCsumStamp (s : State) : Host.Outcome State Fault Refusal :=
  whenOperating s <| .ofExcept s (stamp s.img) fun (m, c) => .done { s with img := m, csum := c } (c.setWidth 32)

end Sys2Proof.Machine
end

