-- ==== Sys2Proof/Machine/StringTable.lean ====
section
/-! DEFINITION. The string table family (spec/41_string_table.md): emitted lengths, blobs, the budget, the string encoder and
decoder as functions on an image, and STR.CHECK, STR.ENCODE, STR.DECODE. -/

namespace Sys2Proof.Machine

/-- `emitted_len(t, m)` (R92). -/
def emittedLen (t : Text) (m : Mode) : Nat :=
  match m with
  | .narrow => t.length
  | .wide => 2 + 2 * t.length

/-- `blob(t, m)` (R93, R71, R72). -/
def blob (t : Text) (m : Mode) : List Byte :=
  match m with
  | .narrow => t
  | .wide => BitVec.ofNat 8 (2 + 2 * t.length) :: Config.wideTag :: t.flatMap fun ch => [ch, 0]

/-- The sum of the three natural lengths (R94). -/
def totalLength (t : Strs) : Nat := t.manufacturer.length + t.product.length + t.serial.length

/-- `check_budget()` (R94): characters, in both modes; the total if it is within the budget. -/
def checkBudget (t : Strs) : Except EngineError Nat :=
  if totalLength t ≤ Config.strBudget then .ok (totalLength t) else .error (.stringTableOverflow (totalLength t))

/-- The image address of descriptor slot `k`: the offset byte; the length byte is the next (R70, R91). -/
def descriptorAddr (k : Slot) : Nat := Config.descBase + 2 * k.val

/-- `str_encode(M, t, k, cur, m)` (R96): the image with blob and descriptor, and the cursor after the blob. -/
def strEncode (img : Memory) (t : Text) (k : Slot) (cur : Nat) (m : Mode) : Except EngineError (Memory × Nat) :=
  let n := emittedLen t m
  if insideImage cur n then
    let withBlob := img.writeBytes cur (blob t m)
    let withOffset := withBlob.write (descriptorAddr k) (BitVec.ofNat 8 cur)
    .ok (withOffset.write (descriptorAddr k + 1) (BitVec.ofNat 8 n), cur + n)
  else .error (.boundsFault cur n)

/-- The bytes `raw` of `str_decode` (R98): in wide mode the low bytes of `floor((length -. 2) / 2)` slots after the header. -/
def rawText (img : Memory) (offset length : Nat) (m : Mode) : List Byte :=
  match m with
  | .narrow => img.readBytes offset length
  | .wide => (List.range ((length - 2) / 2)).map fun i => img.read (offset + 2 + 2 * i)

/-- `str_decode(M, offset, length, m)` (R98): the longest zero-free prefix of `raw`. -/
def strDecode (img : Memory) (offset length : Nat) (m : Mode) : Except EngineError Text :=
  if insideImage offset length then .ok ((rawText img offset length m).takeWhile (· != 0))
  else .error (.boundsFault offset length)

/-- `STR.CHECK` (R95). -/
def execStrCheck (s : State) : Host.Outcome State Fault Refusal :=
  whenOperating s <| .ofExcept s (checkBudget s.strs) fun total => .done s (BitVec.ofNat 32 total)

/-- `R` of `STR.ENCODE`: descriptor offset, descriptor length, bytes written (R97). -/
def encodeResult (cur : BitVec 9) (n : Nat) : Word :=
  (cur.extractLsb' 0 8).setWidth 32 ||| (BitVec.ofNat 32 n <<< 8) ||| (BitVec.ofNat 32 n <<< 16)

/-- `STR.ENCODE s, k, cur` (R97): a cursor outside `0x0A0 .. 0x100` raises `IllegalCommand`; no budget check. -/
def execStrEncode (n : StrReg) (k : Slot) (cur : BitVec 9) (s : State) : Host.Outcome State Fault Refusal :=
  whenOperating s <|
    if legalCursor cur then
      .ofExcept s (strEncode s.img (s.strs.get n) k cur.toNat s.mode) fun (img, next) =>
        .done { s with img := img, cur := BitVec.ofNat 9 next } (encodeResult cur (emittedLen (s.strs.get n) s.mode))
    else .raised s (.illegalCommand (encode (.strEncode n k cur)))

/-- `STR.DECODE s, offset, length` (R99). -/
def execStrDecode (n : StrReg) (offset length : Byte) (s : State) : Host.Outcome State Fault Refusal :=
  whenOperating s <| .ofExcept s (strDecode s.img offset.toNat length.toNat s.mode) fun text =>
    .done { s with strs := s.strs.set n text } (BitVec.ofNat 32 text.length)

end Sys2Proof.Machine
end

