-- ==== Sys2Proof/Machine/FieldCodec.lean ====
section
/-! DEFINITION. The field codec family (spec/42_field_codec.md): the image fields, one definition per rule with its encode and
its decode half, the image encoder and record decoder, and FLD.ENCODE, FLD.DECODE. The placement parameters of R8 are an argument
(`Config.Layout`); the commands use `fieldLayout`. -/

namespace Sys2Proof.Machine

/-- A flag at bit `p` of a zero byte (R112 d). -/
def flagAt (v : BitVec 1) (p : Nat) : Byte := v.setWidth 8 <<< p

/-! ### Encode halves -/

/-- Byte 0x00, misc flags (R113, R63). -/
def miscFlags (r : Regs) : Byte :=
  flagAt r.bcdEnable 0 ||| flagAt r.forcePowerEnable 1 ||| flagAt r.deactivateSleep 2 ||| flagAt r.rs485EchoSuppress 3 |||
    flagAt r.extOsc 4 ||| flagAt r.extOscFeedback 5 ||| flagAt r.vbusSenseAlloc 6 ||| flagAt r.loadVcp 7

/-- Byte 0x08, power flags and the reserved bit 7, always 1 (R117, R64). -/
def powerFlags (l : Config.Layout) (r : Regs) : Byte :=
  0x80 ||| flagAt r.remoteWakeup l.posRemoteWakeup ||| flagAt r.selfPowered l.posSelfPowered

/-- Byte 0x0A, peripheral control (R119, R65). -/
def peripheralFlags (l : Config.Layout) (r : Regs) : Byte :=
  flagAt r.suspendPullDown l.posSuspendPullDown ||| flagAt r.serialNumberAvail l.posSerialNumberAvail |||
    flagAt r.ft1248Cpol l.posFt1248Cpol ||| flagAt r.ft1248Bord l.posFt1248Bord |||
    flagAt r.ft1248FlowControl l.posFt1248FlowControl ||| flagAt r.disableI2cSchmitt l.posDisableI2cSchmitt

/-- Byte 0x0B, line inversion, TXD at bit 0 to RI at bit 7 (R120, R66). -/
def inversionFlags (r : Regs) : Byte :=
  flagAt r.invertTxd 0 ||| flagAt r.invertRxd 1 ||| flagAt r.invertRts 2 ||| flagAt r.invertCts 3 |||
    flagAt r.invertDtr 4 ||| flagAt r.invertDsr 5 ||| flagAt r.invertDcd 6 ||| flagAt r.invertRi 7

/-- Byte 0x0C, drive, slew and schmitt of both bus groups (R121, R67). -/
def driveControls (r : Regs) : Byte :=
  r.dbusDrive.setWidth 8 ||| flagAt r.dbusSlowSlew 2 ||| flagAt r.dbusSchmitt 3 ||| (r.cbusDrive.setWidth 8 <<< 4) |||
    flagAt r.cbusSlowSlew 6 ||| flagAt r.cbusSchmitt 7

/-- The Encode clauses of R113, R114, R115, R117, R118, R119, R120 and R121, bytes 0x00 to 0x0C. -/
def putHeader (l : Config.Layout) (r : Regs) (m : Memory) : Memory :=
  let m := m.write 0x00 (miscFlags r)
  let m := (m.putLe16 0x02 r.usbVid).putLe16 0x04 r.usbPid
  let m := (m.write l.releaseMinorAt r.usbReleaseMinor).write l.releaseMajorAt r.usbReleaseMajor
  let m := m.write 0x08 (powerFlags l r)
  let m := m.write 0x09 r.maxPower
  let m := m.write 0x0A (peripheralFlags l r)
  let m := m.write 0x0B (inversionFlags r)
  m.write 0x0C (driveControls r)

/-- The Encode clause of R122: three blobs and descriptors, in the order manufacturer, product, serial number, from cursor
`0x0A0` (R100); the image and the final cursor. -/
def putStrings (m : Memory) (t : Strs) (mode : Mode) : Except EngineError (Memory × Nat) := do
  let (m, cur) ← strEncode m t.manufacturer StrReg.manufacturer.slot Config.strBase mode
  let (m, cur) ← strEncode m t.product StrReg.product.slot cur mode
  strEncode m t.serial StrReg.serial.slot cur mode

/-- The Encode clauses of R123, R124 and R125, bytes 0x14 to 0x20. -/
def putPeripherals (r : Regs) (m : Memory) : Memory :=
  ((m.putLe16 0x14 r.i2cSlaveAddr).putLe24 0x16 r.i2cDeviceId).writeBytes 0x1A
    [r.cbusMode0, r.cbusMode1, r.cbusMode2, r.cbusMode3, r.cbusMode4, r.cbusMode5, r.cbusMode6]

/-- The Encode clauses of R126 and R127: the two opaque regions, verbatim. -/
def putRegions (umem : Vector Byte 92) (fcfg : Vector Byte 32) (m : Memory) : Memory :=
  (m.writeBytes Config.umemBase umem.toList).writeBytes Config.fcfgBase fcfg.toList

/-- What the field codec encodes: the Configuration Record (R12, R13). -/
structure Record where
  regs : Regs
  umem : Vector Byte 92
  fcfg : Vector Byte 32
  strs : Strs
deriving DecidableEq, Repr

/-- The record registers of a state. -/
def State.record (s : State) : Record := ⟨s.regs, s.umem, s.fcfg, s.strs⟩

/-- `encode_image()` (R130): the budget first, every field on a zero-filled image (R116), the stamp last; the image, the final
cursor and the checksum. -/
def encodeImage (l : Config.Layout) (r : Record) (mode : Mode) : Except EngineError (Memory × Nat × Half) := do
  let _ ← checkBudget r.strs
  let (m, cur) ← putStrings (putHeader l r.regs Memory.zeroFilled) r.strs mode
  let (m, c) ← stamp (putRegions r.umem r.fcfg (putPeripherals r.regs m))
  return (m, cur, c)

/-! ### Decode halves -/

/-- The Decode clauses of R113 to R121 and R123 to R125: every scalar register from its place. -/
def decodeRegs (l : Config.Layout) (m : Memory) : Regs where
  bcdEnable := m.getBit 0x00 0
  forcePowerEnable := m.getBit 0x00 1
  deactivateSleep := m.getBit 0x00 2
  rs485EchoSuppress := m.getBit 0x00 3
  extOsc := m.getBit 0x00 4
  extOscFeedback := m.getBit 0x00 5
  vbusSenseAlloc := m.getBit 0x00 6
  loadVcp := m.getBit 0x00 7
  usbVid := m.getLe16 0x02
  usbPid := m.getLe16 0x04
  usbReleaseMajor := m.read l.releaseMajorAt
  usbReleaseMinor := m.read l.releaseMinorAt
  remoteWakeup := m.getBit 0x08 l.posRemoteWakeup
  selfPowered := m.getBit 0x08 l.posSelfPowered
  maxPower := m.read 0x09
  suspendPullDown := m.getBit 0x0A l.posSuspendPullDown
  serialNumberAvail := m.getBit 0x0A l.posSerialNumberAvail
  ft1248Cpol := m.getBit 0x0A l.posFt1248Cpol
  ft1248Bord := m.getBit 0x0A l.posFt1248Bord
  ft1248FlowControl := m.getBit 0x0A l.posFt1248FlowControl
  disableI2cSchmitt := m.getBit 0x0A l.posDisableI2cSchmitt
  invertTxd := m.getBit 0x0B 0
  invertRxd := m.getBit 0x0B 1
  invertRts := m.getBit 0x0B 2
  invertCts := m.getBit 0x0B 3
  invertDtr := m.getBit 0x0B 4
  invertDsr := m.getBit 0x0B 5
  invertDcd := m.getBit 0x0B 6
  invertRi := m.getBit 0x0B 7
  dbusDrive := m.getBits 0x0C 0 2
  dbusSlowSlew := m.getBit 0x0C 2
  dbusSchmitt := m.getBit 0x0C 3
  cbusDrive := m.getBits 0x0C 4 2
  cbusSlowSlew := m.getBit 0x0C 6
  cbusSchmitt := m.getBit 0x0C 7
  i2cSlaveAddr := m.getLe16 0x14
  i2cDeviceId := m.getLe24 0x16
  cbusMode0 := m.read 0x1A
  cbusMode1 := m.read 0x1B
  cbusMode2 := m.read 0x1C
  cbusMode3 := m.read 0x1D
  cbusMode4 := m.read 0x1E
  cbusMode5 := m.read 0x1F
  cbusMode6 := m.read 0x20

/-- Decode the string whose descriptor is slot `k` (R122). -/
def decodeSlot (m : Memory) (k : Slot) (mode : Mode) : Except EngineError Text :=
  strDecode m (m.read (descriptorAddr k)).toNat (m.read (descriptorAddr k + 1)).toNat mode

/-- The Decode clause of R122: the three strings, in order. -/
def decodeStrings (m : Memory) (mode : Mode) : Except EngineError Strs := do
  let manufacturer ← decodeSlot m StrReg.manufacturer.slot mode
  let product ← decodeSlot m StrReg.product.slot mode
  let serial ← decodeSlot m StrReg.serial.slot mode
  return ⟨manufacturer, product, serial⟩

/-- `decode_record(IMG, MODE)` (R132). -/
def decodeRecord (l : Config.Layout) (m : Memory) (mode : Mode) : Except EngineError Record := do
  let strs ← decodeStrings m mode
  return {
    regs := decodeRegs l m
    umem := Vector.ofFn fun i => m.read (Config.umemBase + i.val)
    fcfg := Vector.ofFn fun i => m.read (Config.fcfgBase + i.val)
    strs := strs }

/-! ### The commands -/

/-- `FLD.ENCODE` (R131): the new image is built aside and committed only when complete. -/
def execFldEncode (s : State) : Host.Outcome State Fault Refusal :=
  whenOperating s <| .ofExcept s (encodeImage fieldLayout s.record s.mode) fun (m, cur, c) =>
    .done { s with img := m, cur := BitVec.ofNat 9 cur, csum := c } (c.setWidth 32)

/-- `FLD.DECODE` (R133): every record register is overwritten, or none. -/
def execFldDecode (s : State) : Host.Outcome State Fault Refusal :=
  whenOperating s <| .ofExcept s (decodeRecord fieldLayout s.img s.mode) fun r =>
    .done { s with regs := r.regs, umem := r.umem, fcfg := r.fcfg, strs := r.strs } 0

end Sys2Proof.Machine
end

