-- ==== Sys2Proof/Machine/Dispatch.lean ====
section
/-! DEFINITION. One arm per constructor of `Instr`: the meaning of each command (the rule column of R56). -/

namespace Sys2Proof.Machine

def exec (i : Instr) (s : State) : Host.Outcome State Fault Refusal :=
  match i with
  | .imgLdb a => Sys2Proof.Machine.execImgLdb a s
  | .imgStb a v => Sys2Proof.Machine.execImgStb a v s
  | .imgLdw w => Sys2Proof.Machine.execImgLdw w s
  | .imgStw w v => Sys2Proof.Machine.execImgStw w v s
  | .recRd r => Sys2Proof.Machine.execRecRd r s
  | .recWr r v => Sys2Proof.Machine.execRecWr r v s
  | .strClr n => Sys2Proof.Machine.execStrClr n s
  | .strPutc n ch => Sys2Proof.Machine.execStrPutc n ch s
  | .strLen n => Sys2Proof.Machine.execStrLen n s
  | .strGetc n idx => Sys2Proof.Machine.execStrGetc n idx s
  | .csrRd c => Sys2Proof.Machine.execCsrRd c s
  | .csumCompute => Sys2Proof.Machine.execCsumCompute s
  | .csumVerify => Sys2Proof.Machine.execCsumVerify s
  | .csumStamp => Sys2Proof.Machine.execCsumStamp s
  | .strCheck => Sys2Proof.Machine.execStrCheck s
  | .strEncode n k cur => Sys2Proof.Machine.execStrEncode n k cur s
  | .strDecode n offset length => Sys2Proof.Machine.execStrDecode n offset length s
  | .fldEncode => Sys2Proof.Machine.execFldEncode s
  | .fldDecode => Sys2Proof.Machine.execFldDecode s

end Sys2Proof.Machine
end

