-- ==== Sys2Proof/Machine/Step.lean ====
section
/-! DEFINITION. One step of the engine (R53, R180): take the next input of the port and do what it asks. -/

namespace Sys2Proof.Machine

/-- One step: with nothing presented the engine is idle and holds its state (R172); a reset is applied (R183); a legal command
runs (R60 step 5); any other word raises `IllegalCommand`, or is refused in the Failed state (R60, R168). -/
def step (s : State) : Host.Outcome State Fault Refusal :=
  match takeInput s with
  | .idle => .next s
  | .reset t => .next t
  | .run i t => exec i t
  | .illegal cmd t => illegalWord cmd t

/-- `s` with the command word `w` presented at the port, before anything else the host presents (log entry 1). -/
def State.withFetchWord (s : State) (nbits w : Nat) : State := present s (BitVec.ofNat 64 (w % 2 ^ nbits))

end Sys2Proof.Machine
end

