-- ==== Sys2Proof/Safety.lean ====
section
/-! DEFINITION. What holds of the engine's state in every run, in the terms the statements use: the operating state, and the
invariant made of what the spec says each register may hold (R18, R24 to R26, R28, R35, R61). -/

namespace Sys2Proof.Machine

/-- The engine is operating (R168). -/
abbrev State.Operating (s : State) : Prop := s.err = .none

/-- A text: at most 255 characters, none of them 0x00 (R18). -/
def Text.legal (t : Text) : Bool := t.length ≤ Config.strCap && t.all (· != 0)

/-- All three string registers hold texts (R18). -/
def Strs.legal (t : Strs) : Bool := Text.legal t.manufacturer && Text.legal t.product && Text.legal t.serial

/-- `CUR` holds `0x0A0 .. 0x100` (R28). -/
def State.cursorLegal (s : State) : Bool := 0x0A0 ≤ s.cur.toNat && s.cur.toNat ≤ 0x100

/-- What `ERR_A` and `ERR_B` hold beside each value of `ERR` (R24 to R26, R161, R162), with what froze when the error was taken
(R168): the mismatching checksums are still those of the image, the total still that of the string registers. -/
def State.errorLegal (s : State) : Bool :=
  match s.err with
  | .none => s.errA == 0 && s.errB == 0
  | .checksumMismatch =>
      s.errA != s.errB && s.csum == s.errA && csumCompute s.img == s.errA && s.img.getLe16 Config.csumAddr == s.errB
  | .stringTableOverflow =>
      97 ≤ s.errA.toNat && s.errA.toNat ≤ 765 && totalLength s.strs == s.errA.toNat && s.errB == 96
  | .boundsFault =>
      s.errA.toNat ≤ 256 && 1 ≤ s.errB.toNat && s.errB.toNat ≤ 512 && decide (256 < s.errA.toNat + s.errB.toNat)
  | .illegalCommand => true

/-- A FAILED response is presented in the Failed state only, and carries the code of `ERR` (R61). -/
def State.responseLegal (s : State) : Bool :=
  match s.response with
  | some ⟨.failed, r⟩ => s.isFailed && r == s.err.code.setWidth 32
  | some ⟨.ok, _⟩ => true
  | none => true

/-- The invariant of the engine, as a test. -/
def State.inv (s : State) : Bool :=
  s.img.wf && s.strs.legal && s.cursorLegal && s.errorLegal && s.responseLegal

/-- The invariant of the engine: the image is canonical, every string register holds a text, the cursor is in range, the error
registers hold what the recorded error says, and a FAILED response agrees with `ERR`. -/
abbrev State.Inv (s : State) : Prop := s.inv = true

/-- No reset is among the host's inputs that are still to come. -/
def noReset (port : List HostEvent) : Bool :=
  port.all fun e => match e with
    | .command _ => true
    | .reset _ _ => false

end Sys2Proof.Machine
end

