-- ==== Sys2Proof/Certificates/Slice0/Obligations.lean ====
section
/-! DEFINITION. The statements about the model, from the numbered rules of spec/. The helpers of the first section say in the
spec's own terms (fields, numbers, addresses, bits) what the statements compare the model with. -/

namespace Sys2Proof.Claims

open Sys2Proof.Machine

/-! ### The terms of the statements -/

/-- The word `0xDDDDDDDD_CCBBAAOO` (R54, R76). -/
def cmdWord (op a b c : Byte) (d : Word) : Command :=
  op.setWidth 64 ||| (a.setWidth 64 <<< 8) ||| (b.setWidth 64 <<< 16) ||| (c.setWidth 64 <<< 24) ||| (d.setWidth 64 <<< 32)

/-- The value of `ERR` (R24, R161). -/
def errNumber : ErrCode → Word
  | .none => 0
  | .checksumMismatch => 1
  | .stringTableOverflow => 2
  | .boundsFault => 3
  | .illegalCommand => 4

/-- `s` after `raise E(a, b)` (R166): `ERR`, `ERR_A`, `ERR_B`, the response `(FAILED, code)`, nothing else. -/
def raised (s : State) (e : ErrCode) (a b : Half) : State :=
  { s with err := e, errA := a, errB := b, response := some ⟨.failed, errNumber e⟩ }

/-- `s` after a command that completed with the value `v` (R61), all else as in `s`. -/
def answered (s : State) (v : Word) : State := { s with response := some ⟨.ok, v⟩ }

/-- A step on the word `w` raises `IllegalCommand(w[15:0], w[31:16])` in every operating engine (R60). The word is at the head of
the port, the model's form of presenting it (log entry 1). -/
def RaisesIllegal (w : Command) : Prop :=
  ∀ (s : State) (rest : List HostEvent), s.Operating → s.port = .command w :: rest →
    step s = .next (raised { s with port := rest } .illegalCommand (w.extractLsb' 0 16) (w.extractLsb' 16 16))

/-- The legal register numbers (R57). -/
def legalRN (n : Nat) : Prop := n ≤ 0x02B ∨ (0x100 ≤ n ∧ n ≤ 0x15B) ∨ (0x200 ≤ n ∧ n ≤ 0x21F)

/-- The width column of the register table by register number, 8 for `UMEM` and `FCFG` (R14, R57). -/
def widthRN (n : Nat) : Nat :=
  [
   1, 1, 1, 1, 1, 1, 1, 1, 16, 16, 8, 8, 1, 1, 8, 1, 1, 1, 1, 1, 1, 1, 1, 1, 1, 1, 1, 1, 1, 2, 1, 1, 2, 1, 1, 16,
   24, 8, 8, 8, 8, 8, 8, 8
  ].getD n 8

/-- The record registers by register number (R14, R16, R17): the value that `RN = n` names. -/
def regValue (s : State) (n : Nat) : Option Word :=
  if n ≤ 0x02B then
    [
      s.regs.bcdEnable.setWidth 32, s.regs.forcePowerEnable.setWidth 32, s.regs.deactivateSleep.setWidth 32,
      s.regs.rs485EchoSuppress.setWidth 32, s.regs.extOsc.setWidth 32, s.regs.extOscFeedback.setWidth 32,
      s.regs.vbusSenseAlloc.setWidth 32, s.regs.loadVcp.setWidth 32, s.regs.usbVid.setWidth 32,
      s.regs.usbPid.setWidth 32, s.regs.usbReleaseMajor.setWidth 32, s.regs.usbReleaseMinor.setWidth 32,
      s.regs.remoteWakeup.setWidth 32, s.regs.selfPowered.setWidth 32, s.regs.maxPower.setWidth 32,
      s.regs.suspendPullDown.setWidth 32, s.regs.serialNumberAvail.setWidth 32, s.regs.ft1248Cpol.setWidth 32,
      s.regs.ft1248Bord.setWidth 32, s.regs.ft1248FlowControl.setWidth 32, s.regs.disableI2cSchmitt.setWidth 32,
      s.regs.invertTxd.setWidth 32, s.regs.invertRxd.setWidth 32, s.regs.invertRts.setWidth 32,
      s.regs.invertCts.setWidth 32, s.regs.invertDtr.setWidth 32, s.regs.invertDsr.setWidth 32,
      s.regs.invertDcd.setWidth 32, s.regs.invertRi.setWidth 32, s.regs.dbusDrive.setWidth 32,
      s.regs.dbusSlowSlew.setWidth 32, s.regs.dbusSchmitt.setWidth 32, s.regs.cbusDrive.setWidth 32,
      s.regs.cbusSlowSlew.setWidth 32, s.regs.cbusSchmitt.setWidth 32, s.regs.i2cSlaveAddr.setWidth 32,
      s.regs.i2cDeviceId.setWidth 32, s.regs.cbusMode0.setWidth 32, s.regs.cbusMode1.setWidth 32,
      s.regs.cbusMode2.setWidth 32, s.regs.cbusMode3.setWidth 32, s.regs.cbusMode4.setWidth 32,
      s.regs.cbusMode5.setWidth 32, s.regs.cbusMode6.setWidth 32
    ][n]?
  else if 0x100 ≤ n ∧ n ≤ 0x15B then (s.umem.toList[n - 0x100]?).map (·.setWidth 32)
  else if 0x200 ≤ n ∧ n ≤ 0x21F then (s.fcfg.toList[n - 0x200]?).map (·.setWidth 32)
  else none

/-- The word is a legal command: its opcode is one of the 19, its reserved bits are zero, its operands are legal (R55 to R59,
row by row of the opcode map). -/
def LegalWord (w : Command) : Prop :=
  let op := w.toNat % 256
  let a := w.toNat / 2 ^ 8 % 256
  let b := w.toNat / 2 ^ 16 % 256
  let c := w.toNat / 2 ^ 24 % 256
  let d := w.toNat / 2 ^ 32
  let rn := a + 256 * b
  (op = 0x01 ∧ b = 0 ∧ c = 0 ∧ d = 0) ∨
  (op = 0x02 ∧ b = 0 ∧ c = 0 ∧ d < 256) ∨
  (op = 0x03 ∧ a < 128 ∧ b = 0 ∧ c = 0 ∧ d = 0) ∨
  (op = 0x04 ∧ a < 128 ∧ b = 0 ∧ c = 0 ∧ d < 65536) ∨
  (op = 0x05 ∧ legalRN rn ∧ c = 0 ∧ d = 0) ∨
  (op = 0x06 ∧ legalRN rn ∧ c = 0 ∧ d < 2 ^ widthRN rn) ∨
  (op = 0x07 ∧ a < 3 ∧ b = 0 ∧ c = 0 ∧ d = 0) ∨
  (op = 0x08 ∧ a < 3 ∧ b = 0 ∧ c = 0 ∧ 0 < d ∧ d < 256) ∨
  (op = 0x09 ∧ a < 3 ∧ b = 0 ∧ c = 0 ∧ d = 0) ∨
  (op = 0x0A ∧ a < 3 ∧ c = 0 ∧ d = 0) ∨
  (op = 0x0B ∧ a < 6 ∧ b = 0 ∧ c = 0 ∧ d = 0) ∨
  ((op = 0x10 ∨ op = 0x11 ∨ op = 0x12 ∨ op = 0x20 ∨ op = 0x30 ∨ op = 0x31) ∧ a = 0 ∧ b = 0 ∧ c = 0 ∧ d = 0) ∨
  (op = 0x21 ∧ a < 3 ∧ b < 3 ∧ c = 0 ∧ 0x0A0 ≤ d ∧ d ≤ 0x100) ∨
  (op = 0x22 ∧ a < 3 ∧ d = 0)

/-- The word is a legal `CSR.RD` (R168). -/
def LegalCsrRead (w : Command) : Prop :=
  w.toNat % 256 = 0x0B ∧ w.toNat / 2 ^ 8 % 256 < 6 ∧ w.toNat / 2 ^ 16 = 0

/-- The value of the CSR numbered `n` (R23 to R28). -/
def csrValue (s : State) (n : Nat) : Word :=
  match n with
  | 0 => match s.mode with | .narrow => 0 | .wide => 1
  | 1 => errNumber s.err
  | 2 => s.errA.setWidth 32
  | 3 => s.errB.setWidth 32
  | 4 => s.csum.setWidth 32
  | _ => s.cur.setWidth 32

/-- Image word `j` of the 81 covered ones (R84). -/
def coveredWord (m : Memory) (j : Nat) : Half := m.getLe16 (2 * if j ≤ 17 then j else j + 46)

/-- A byte address inside a checksum-covered range (R45). -/
def Covered (a : Nat) : Prop := a ≤ 0x23 ∨ (0x80 ≤ a ∧ a ≤ 0xFD)

/-- The bytes that decoding a blob extracts (R98). -/
def extracted (m : Memory) (offset length : Nat) (mode : Mode) : List Byte :=
  match mode with
  | .narrow => (List.range length).map fun i => m.read (offset + i)
  | .wide => (List.range ((length - 2) / 2)).map fun i => m.read (offset + 2 + 2 * i)

/-- `text` is the longest prefix of `raw` that contains no 0x00 byte (R98). -/
def LongestZeroFree (text raw : List Byte) : Prop :=
  (∃ tail, raw = text ++ tail ∧ ∀ x, tail.head? = some x → x = 0) ∧ ∀ ch ∈ text, ch ≠ 0

/-- A packed byte, bit 0 first (R10). -/
def packedByte (bits : List (BitVec 1)) : Byte :=
  BitVec.ofNat 8 (bits.foldr (fun b n => b.toNat + 2 * n) 0)

/-- The emitted lengths of the three strings (R92). -/
def emitted (s : State) (n : StrReg) : Nat :=
  match s.mode with
  | .narrow => (s.strs.get n).length
  | .wide => 2 + 2 * (s.strs.get n).length

/-- The emitted lengths of the three strings together. -/
def emittedTotal (s : State) : Nat := emitted s .manufacturer + emitted s .product + emitted s .serial

/-- The number of characters of the three strings together (R94). -/
def characters (s : State) : Nat :=
  s.strs.manufacturer.length + s.strs.product.length + s.strs.serial.length

/-- Bytes 0x00 to 0x23 of the image that `FLD.ENCODE` makes, in address order (R43, R63 to R70, R113 to R125, R128). -/
def headerBytes (s : State) : List Byte :=
  let r := s.regs
  let n0 := emitted s .manufacturer
  let n1 := emitted s .product
  let n2 := emitted s .serial
  [packedByte [r.bcdEnable, r.forcePowerEnable, r.deactivateSleep, r.rs485EchoSuppress, r.extOsc, r.extOscFeedback,
      r.vbusSenseAlloc, r.loadVcp],
    0,
    r.usbVid.extractLsb' 0 8, r.usbVid.extractLsb' 8 8, r.usbPid.extractLsb' 0 8, r.usbPid.extractLsb' 8 8,
    r.usbReleaseMinor, r.usbReleaseMajor,
    packedByte [0, 0, 0, 0, 0, r.remoteWakeup, r.selfPowered, 1],
    r.maxPower,
    packedByte [0, 0, r.suspendPullDown, r.serialNumberAvail, r.ft1248Cpol, r.ft1248Bord, r.ft1248FlowControl,
      r.disableI2cSchmitt],
    packedByte [r.invertTxd, r.invertRxd, r.invertRts, r.invertCts, r.invertDtr, r.invertDsr, r.invertDcd, r.invertRi],
    packedByte [r.dbusDrive.extractLsb' 0 1, r.dbusDrive.extractLsb' 1 1, r.dbusSlowSlew, r.dbusSchmitt,
      r.cbusDrive.extractLsb' 0 1, r.cbusDrive.extractLsb' 1 1, r.cbusSlowSlew, r.cbusSchmitt],
    0,
    0xA0, BitVec.ofNat 8 n0, BitVec.ofNat 8 (0xA0 + n0), BitVec.ofNat 8 n1, BitVec.ofNat 8 (0xA0 + n0 + n1),
    BitVec.ofNat 8 n2,
    r.i2cSlaveAddr.extractLsb' 0 8, r.i2cSlaveAddr.extractLsb' 8 8,
    r.i2cDeviceId.extractLsb' 0 8, r.i2cDeviceId.extractLsb' 8 8, r.i2cDeviceId.extractLsb' 16 8,
    0,
    r.cbusMode0, r.cbusMode1, r.cbusMode2, r.cbusMode3, r.cbusMode4, r.cbusMode5, r.cbusMode6,
    0, 0, 0]

/-- The blob of a text (R71, R72): the text itself, or length, tag 3 and each character followed by 0x00. -/
def blobBytes (text : Text) (mode : Mode) : List Byte :=
  match mode with
  | .narrow => text
  | .wide => [BitVec.ofNat 8 (2 + 2 * text.length), 3] ++ (text.map fun ch => [ch, 0]).flatten

/-- Byte `a` below the checksum of the image that `FLD.ENCODE` makes (R43, R113 to R128). -/
def encodedByte (s : State) (a : Nat) : Byte :=
  if a < 0x24 then (headerBytes s).getD a 0
  else if a < 0x80 then s.umem.toList.getD (a - 0x24) 0
  else if a < 0xA0 then s.fcfg.toList.getD (a - 0x80) 0
  else (blobBytes s.strs.manufacturer s.mode ++ blobBytes s.strs.product s.mode ++ blobBytes s.strs.serial s.mode).getD
    (a - 0xA0) 0

/-- Bit `p` of image byte `a` is the value of a flag (R107). -/
def bitOf (m : Memory) (a p : Nat) (v : BitVec 1) : Prop := v = BitVec.ofBool ((m.read a).getLsbD p)

/-- The scalar registers are what the image's fields hold (the Decode clauses of R113 to R125). -/
def RegsFrom (m : Memory) (r : Regs) : Prop :=
  bitOf m 0x00 0 r.bcdEnable ∧ bitOf m 0x00 1 r.forcePowerEnable ∧ bitOf m 0x00 2 r.deactivateSleep ∧
  bitOf m 0x00 3 r.rs485EchoSuppress ∧ bitOf m 0x00 4 r.extOsc ∧ bitOf m 0x00 5 r.extOscFeedback ∧
  bitOf m 0x00 6 r.vbusSenseAlloc ∧ bitOf m 0x00 7 r.loadVcp ∧
  r.usbVid.toNat = (m.read 0x02).toNat + 256 * (m.read 0x03).toNat ∧
  r.usbPid.toNat = (m.read 0x04).toNat + 256 * (m.read 0x05).toNat ∧
  r.usbReleaseMinor = m.read 0x06 ∧ r.usbReleaseMajor = m.read 0x07 ∧
  bitOf m 0x08 5 r.remoteWakeup ∧ bitOf m 0x08 6 r.selfPowered ∧ r.maxPower = m.read 0x09 ∧
  bitOf m 0x0A 2 r.suspendPullDown ∧ bitOf m 0x0A 3 r.serialNumberAvail ∧ bitOf m 0x0A 4 r.ft1248Cpol ∧
  bitOf m 0x0A 5 r.ft1248Bord ∧ bitOf m 0x0A 6 r.ft1248FlowControl ∧ bitOf m 0x0A 7 r.disableI2cSchmitt ∧
  bitOf m 0x0B 0 r.invertTxd ∧ bitOf m 0x0B 1 r.invertRxd ∧ bitOf m 0x0B 2 r.invertRts ∧ bitOf m 0x0B 3 r.invertCts ∧
  bitOf m 0x0B 4 r.invertDtr ∧ bitOf m 0x0B 5 r.invertDsr ∧ bitOf m 0x0B 6 r.invertDcd ∧ bitOf m 0x0B 7 r.invertRi ∧
  r.dbusDrive.toNat = (m.read 0x0C).toNat % 4 ∧ bitOf m 0x0C 2 r.dbusSlowSlew ∧ bitOf m 0x0C 3 r.dbusSchmitt ∧
  r.cbusDrive.toNat = (m.read 0x0C).toNat / 16 % 4 ∧ bitOf m 0x0C 6 r.cbusSlowSlew ∧ bitOf m 0x0C 7 r.cbusSchmitt ∧
  r.i2cSlaveAddr.toNat = (m.read 0x14).toNat + 256 * (m.read 0x15).toNat ∧
  r.i2cDeviceId.toNat = (m.read 0x16).toNat + 256 * (m.read 0x17).toNat + 65536 * (m.read 0x18).toNat ∧
  r.cbusMode0 = m.read 0x1A ∧ r.cbusMode1 = m.read 0x1B ∧ r.cbusMode2 = m.read 0x1C ∧ r.cbusMode3 = m.read 0x1D ∧
  r.cbusMode4 = m.read 0x1E ∧ r.cbusMode5 = m.read 0x1F ∧ r.cbusMode6 = m.read 0x20

/-- The descriptor of string slot `k` in an image: offset and length (R70). -/
def descriptor (m : Memory) (k : Nat) : Nat × Nat := ((m.read (0x0E + 2 * k)).toNat, (m.read (0x0F + 2 * k)).toNat)

/-- The descriptor's range leaves the image (R39). -/
def outside (d : Nat × Nat) : Prop := 256 < d.1 + d.2

/-- The first blob that does not fit, by its address and length (R131): meaningful when the three together do not fit. -/
def firstMisfit (s : State) : Nat × Nat :=
  let n0 := emitted s .manufacturer
  let n1 := emitted s .product
  let n2 := emitted s .serial
  if 256 < 0xA0 + n0 then (0xA0, n0) else if 256 < 0xA0 + n0 + n1 then (0xA0 + n0, n1) else (0xA0 + n0 + n1, n2)

/-- The first descriptor whose range leaves the image (R133): meaningful when one of the three does. -/
def firstOutside (m : Memory) : Nat × Nat :=
  let d0 := descriptor m 0
  let d1 := descriptor m 1
  if 256 < d0.1 + d0.2 then d0 else if 256 < d1.1 + d1.2 then d1 else descriptor m 2

/-- The table of causes (R162): the error that a legal command raises in an operating engine, with its two information words;
`none` where the command completes. -/
def cause (i : Instr) (s : State) : Option (ErrCode × Nat × Nat) :=
  match i with
  | .csumVerify =>
      if csumCompute s.img = s.img.getLe16 0xFE then none
      else some (.checksumMismatch, (csumCompute s.img).toNat, (s.img.getLe16 0xFE).toNat)
  | .strCheck => if 96 < characters s then some (.stringTableOverflow, characters s, 96) else none
  | .fldEncode =>
      if 96 < characters s then some (.stringTableOverflow, characters s, 96)
      else if 96 < emittedTotal s then some (.boundsFault, firstMisfit s) else none
  | .strEncode n _ cur =>
      if 256 < cur.toNat + emitted s n then some (.boundsFault, cur.toNat, emitted s n) else none
  | .strDecode _ offset length =>
      if 256 < offset.toNat + length.toNat then some (.boundsFault, offset.toNat, length.toNat) else none
  | .fldDecode =>
      if 256 < (firstOutside s.img).1 + (firstOutside s.img).2 then some (.boundsFault, firstOutside s.img) else none
  | .strPutc n _ =>
      if 255 ≤ (s.strs.get n).length then
        some (.illegalCommand, (encode i).toNat % 2 ^ 16, (encode i).toNat / 2 ^ 16 % 2 ^ 16)
      else none
  | .strGetc n idx =>
      if (s.strs.get n).length ≤ idx.toNat then
        some (.illegalCommand, (encode i).toNat % 2 ^ 16, (encode i).toNat / 2 ^ 16 % 2 ^ 16)
      else none
  | .imgLdb _ => none
  | .imgStb _ _ => none
  | .imgLdw _ => none
  | .imgStw _ _ => none
  | .recRd _ => none
  | .recWr _ _ => none
  | .strClr _ => none
  | .strLen _ => none
  | .csrRd _ => none
  | .csumCompute => none
  | .csumStamp => none

/-- A command that only reads (R159). -/
def readOnly : Instr → Bool
  | .imgLdb _ => true
  | .imgLdw _ => true
  | .recRd _ => true
  | .strLen _ => true
  | .strGetc _ _ => true
  | .csrRd _ => true
  | .csumCompute => true
  | .strCheck => true
  | .imgStb _ _ => false
  | .imgStw _ _ => false
  | .recWr _ _ => false
  | .strClr _ => false
  | .strPutc _ _ => false
  | .csumVerify => false
  | .csumStamp => false
  | .strEncode _ _ _ => false
  | .strDecode _ _ _ => false
  | .fldEncode => false
  | .fldDecode => false

end Sys2Proof.Claims

open Sys2Proof Sys2Proof.Machine Sys2Proof.Claims

/-! ### The command word -/

/-- R54: the five fields of a command word, bit by bit. -/
def Obligations.CommandFieldsAreTheirBits : Prop :=
  ∀ (w : Command) (k : Nat),
    (k < 8 → (opField w).getLsbD k = w.getLsbD k ∧ (aField w).getLsbD k = w.getLsbD (8 + k) ∧
      (bField w).getLsbD k = w.getLsbD (16 + k) ∧ (cField w).getLsbD k = w.getLsbD (24 + k)) ∧
    (k < 32 → (dField w).getLsbD k = w.getLsbD (32 + k))

/-- R54 to R57: no bit of a legal command's encoding is dropped. -/
def Obligations.DecodeOfEncode : Prop :=
  ∀ i : Instr, i.wellFormed = true → decode (encode i) = .ok i

/-- R54 to R58: a legal word has one meaning, is the encoding of it, and its meaning is well formed. -/
def Obligations.EncodeOfDecode : Prop :=
  ∀ (w : Command) (i : Instr), decode w = .ok i → encode i = w ∧ i.wellFormed = true

/-- R55 to R59: the decoder accepts exactly the legal words, and reads the command that `OP` names. -/
def Obligations.DecoderAcceptsExactlyLegalWords : Prop :=
  ∀ w : Command, (LegalWord w → ∃ i, decode w = .ok i ∧ i.opcode.code.toNat = w.toNat % 256) ∧
    (¬LegalWord w → ∃ e, decode w = .error e)

/-- R58, R59, R60, with R61, R157 and R168: the checks of a command word in their order. In the Failed state a legal `CSR.RD`
answers its register (R157) and every other word is refused, the response being `(FAILED, ERR)` (R61, R168); otherwise an illegal
word raises `IllegalCommand`, and a legal one executes the command that `OP` names. That the words to come are a list, of which a
step takes the first, is the model's choice (log entry 1). -/
def Obligations.StepChecksCommandInOrder : Prop :=
  ∀ (s : State) (w : Command) (rest : List HostEvent), s.port = .command w :: rest →
    (s.err ≠ .none → ¬LegalCsrRead w →
      step s = .next { s with port := rest, response := some ⟨.failed, errNumber s.err⟩ }) ∧
    (s.err ≠ .none → LegalCsrRead w →
      step s = .next (answered { s with port := rest } (csrValue s (w.toNat / 2 ^ 8 % 256)))) ∧
    (s.err = .none → ¬LegalWord w →
      step s = .next (raised { s with port := rest } .illegalCommand (w.extractLsb' 0 16) (w.extractLsb' 16 16))) ∧
    (s.err = .none → LegalWord w →
      ∃ i, decode w = .ok i ∧ i.opcode.code.toNat = w.toNat % 256 ∧ step s = exec i { s with port := rest })

/-- One word of every family, written out from R54 to R57, decodes to the command it stands for. -/
def Obligations.SampleWordsDecode : Prop :=
  decode 0x0000002D00000902 = .ok (.imgStb 0x09 0x2D) ∧
  decode 0x0000005A00010306 = .ok (.recWr (.umem 3) 0x5A) ∧
  decode 0x0000000000000011 = .ok .csumVerify ∧
  decode 0x000000A000010221 = .ok (.strEncode .serial 1 0x0A0) ∧
  decode 0x000000000AA00022 = .ok (.strDecode .manufacturer 0xA0 10) ∧
  decode 0x0000000000000030 = .ok .fldEncode

/-! ### The step -/

/-- The step runs the command at the port, with the word taken from the port (R53, R60 step 5; the port as a list is the
model's, log entry 1). -/
def Obligations.StepRunsDecodedCommand : Prop :=
  ∀ (s : State) (w : Command) (rest : List HostEvent) (i : Instr),
    s.port = .command w :: rest → decode w = .ok i → step s = exec i { s with port := rest }

/-- Between commands the engine holds its state (R172). That nothing presented is the model's idle step is log entry 1. -/
def Obligations.IdleStepHoldsState : Prop :=
  ∀ s : State, s.port = [] → step s = .next s

/-- R180 (the spec's own inference): every command in every state, and every step, has exactly one outcome, a next state; and a
step takes one input of the port (the port as a list is the model's, log entry 1). -/
def Obligations.EveryStepAnswers : Prop :=
  (∀ (i : Instr) (s : State), ∃ t, exec i s = .next t ∧ t.port = s.port ∧ t.response ≠ none) ∧
  (∀ s : State, ∃ t, step s = .next t ∧ t.port = s.port.tail)

/-- R32, R183, R185: what the reset event leaves, for either level of the strap and any image. That a reset is an input of the
port (log entry 1) and that it carries the 256 bytes which the image, unspecified by R32, then holds (log entry 2) are the model's
choices. -/
def Obligations.ResetEventLeavesResetValues : Prop :=
  ∀ (s : State) (strap : Mode) (image : Vector Byte 256) (rest : List HostEvent), s.port = .reset strap image :: rest →
    ∃ t, step s = .next t ∧ (∀ f, t.regs.get f = 0) ∧ (∀ i : Fin 92, t.umem.get i = 0) ∧ (∀ i : Fin 32, t.fcfg.get i = 0) ∧
      (∀ n, t.strs.get n = []) ∧ (∀ a, (h : a < 256) → t.img.read a = image[a]) ∧ t.mode = strap ∧ t.err = .none ∧
      t.errA = 0 ∧ t.errB = 0 ∧ t.csum = 0 ∧ t.cur = 0x0A0

/-- The values that R32 gives hold in the state after reset. (What that state has for the image and the mode is the model's
choice, log entries 2 and 3, and is not stated.) -/
def Obligations.ResetStateHoldsResetValues : Prop :=
  (∀ r : RecReg, readReg State.reset r = 0) ∧ (∀ n, State.reset.strs.get n = []) ∧ State.reset.err = .none ∧
    State.reset.errA = 0 ∧ State.reset.errB = 0 ∧ State.reset.csum = 0 ∧ State.reset.cur = 0x0A0

/-- The invariant (R18, R24 to R26, R28, R35, R61) holds at reset. -/
def Obligations.InvariantHoldsAtReset : Prop := State.reset.Inv

/-- Every step keeps the invariant: the image stays canonical and inside its 256 bytes (R35), every string register a text
(R18), the cursor in its range (R28), the error registers what the recorded error says (R24 to R26), a FAILED response in
agreement with `ERR` (R61). -/
def Obligations.StepKeepsInvariant : Prop :=
  ∀ s t : State, s.Inv → step s = .next t → t.Inv

/-- R168, R169: after an error, however many inputs follow, nothing but the response changes until a reset. -/
def Obligations.FailedRunsStayFrozen : Prop :=
  ∀ (k : Nat) (s t : State), s.err ≠ .none → noReset s.port = true → core.run k s = .next t →
    t = { s with response := t.response, port := s.port.drop k }

/-- R168: the Failed state, command by command. -/
def Obligations.FailedStateRefusesAllButCsrRead : Prop :=
  ∀ (i : Instr) (s : State), s.err ≠ .none →
    (∀ c, i = .csrRd c → exec i s = .next (answered s (csrValue s c.number.toNat))) ∧
    ((∀ c, i ≠ .csrRd c) → exec i s = .next { s with response := some ⟨.failed, errNumber s.err⟩ })

/-- R185, R23: no command writes `MODE`, and no run without a reset changes it. -/
def Obligations.ModeHoldsUntilReset : Prop :=
  (∀ (i : Instr) (s t : State), exec i s = .next t → t.mode = s.mode) ∧
  (∀ (k : Nat) (s t : State), noReset s.port = true → core.run k s = .next t → t.mode = s.mode)

/-! ### Errors -/

/-- R167: errors are precise. -/
def Obligations.ErrorsArePrecise : Prop :=
  ∀ (i : Instr) (s t : State), s.Operating → exec i s = .next t → t.err ≠ .none →
    t = { raised s t.err t.errA t.errB with csum := t.csum } ∧ (i ≠ .csumVerify → t.csum = s.csum) ∧
      (i = .csumVerify → t.csum = csumCompute s.img)

/-- R162: a legal command raises an error exactly under the condition listed for it, with the information words listed; a word
that is no legal command raises `IllegalCommand`. -/
def Obligations.ErrorCausesAreExactlyTheTable : Prop :=
  (∀ (i : Instr) (s t : State), i.wellFormed = true → s.Operating → exec i s = .next t →
    match cause i s with
    | none => t.err = .none
    | some (e, a, b) => t.err = e ∧ t.errA = BitVec.ofNat 16 a ∧ t.errB = BitVec.ofNat 16 b) ∧
  (∀ w : Command, ¬LegalWord w → RaisesIllegal w)

/-- R170 (the spec's own inference): an error is never replaced by another before a reset. -/
def Obligations.FirstErrorIsKept : Prop :=
  ∀ (i : Instr) (s t : State), s.err ≠ .none → exec i s = .next t →
    t.err = s.err ∧ t.errA = s.errA ∧ t.errB = s.errB

/-! ### The access family -/

/-- R147: IMG.LDB. -/
def Obligations.ImgLdbReadsByte : Prop :=
  ∀ (a : Byte) (s : State), s.Operating →
    decode (cmdWord 0x01 a 0 0 0) = .ok (.imgLdb a) ∧
    exec (.imgLdb a) s = .next (answered s ((s.img.read a.toNat).setWidth 32))

/-- R148: IMG.STB and its frame. -/
def Obligations.ImgStbStoresByte : Prop :=
  (∀ (a v : Byte) (s : State), s.Operating →
    decode (cmdWord 0x02 a 0 0 (v.setWidth 32)) = .ok (.imgStb a v) ∧
    ∃ t, exec (.imgStb a v) s = .next t ∧ t.img.read a.toNat = v ∧
      (∀ x, x ≠ a.toNat → t.img.read x = s.img.read x) ∧ t = answered { s with img := t.img } 0) ∧
  (∀ (a : Byte) (d : Word), 256 ≤ d.toNat → RaisesIllegal (cmdWord 0x02 a 0 0 d))

/-- R149: IMG.LDW. -/
def Obligations.ImgLdwReadsWord : Prop :=
  (∀ (w : BitVec 7) (s : State), s.Operating →
    decode (cmdWord 0x03 (w.setWidth 8) 0 0 0) = .ok (.imgLdw w) ∧
    exec (.imgLdw w) s = .next (answered s
      ((s.img.read (2 * w.toNat)).setWidth 32 ||| ((s.img.read (2 * w.toNat + 1)).setWidth 32 <<< 8)))) ∧
  (∀ a : Byte, 128 ≤ a.toNat → RaisesIllegal (cmdWord 0x03 a 0 0 0))

/-- R150: IMG.STW and its frame. -/
def Obligations.ImgStwStoresWord : Prop :=
  (∀ (w : BitVec 7) (v : Half) (s : State), s.Operating →
    decode (cmdWord 0x04 (w.setWidth 8) 0 0 (v.setWidth 32)) = .ok (.imgStw w v) ∧
    ∃ t, exec (.imgStw w v) s = .next t ∧ t.img.read (2 * w.toNat) = v.extractLsb' 0 8 ∧
      t.img.read (2 * w.toNat + 1) = v.extractLsb' 8 8 ∧
      (∀ x, x ≠ 2 * w.toNat → x ≠ 2 * w.toNat + 1 → t.img.read x = s.img.read x) ∧
      t = answered { s with img := t.img } 0) ∧
  (∀ (a : Byte) (d : Word), 128 ≤ a.toNat ∨ 65536 ≤ d.toNat → RaisesIllegal (cmdWord 0x04 a 0 0 d))

/-- R151, with the numbers of R14, R16 and R17: REC.RD of every register number. -/
def Obligations.RecRdReadsNumberedRegister : Prop :=
  (∀ (r : RecReg) (s : State), s.Operating →
    ∃ v, regValue s r.number.toNat = some v ∧
      decode (cmdWord 0x05 (r.number.extractLsb' 0 8) (r.number.extractLsb' 8 8) 0 0) = .ok (.recRd r) ∧
      exec (.recRd r) s = .next (answered s v)) ∧
  (∀ lo hi : Byte, (legalRN (lo.toNat + 256 * hi.toNat) → ∃ r : RecReg, r.number.toNat = lo.toNat + 256 * hi.toNat) ∧
    (¬legalRN (lo.toNat + 256 * hi.toNat) → RaisesIllegal (cmdWord 0x05 lo hi 0 0)))

/-- R152, with the widths of R14: REC.WR, the register it writes, every other register, and the values it refuses. -/
def Obligations.RecWrWritesNumberedRegister : Prop :=
  (∀ (r : RecReg) (v : Word) (s : State), s.Operating → v.toNat < 2 ^ widthRN r.number.toNat →
    decode (cmdWord 0x06 (r.number.extractLsb' 0 8) (r.number.extractLsb' 8 8) 0 v) = .ok (.recWr r v) ∧
    ∃ t, exec (.recWr r v) s = .next t ∧ regValue t r.number.toNat = some v ∧
      (∀ n, n ≠ r.number.toNat → regValue t n = regValue s n) ∧
      t = answered { s with regs := t.regs, umem := t.umem, fcfg := t.fcfg } 0) ∧
  (∀ (lo hi : Byte) (v : Word),
    ¬legalRN (lo.toNat + 256 * hi.toNat) ∨ 2 ^ widthRN (lo.toNat + 256 * hi.toNat) ≤ v.toNat →
      RaisesIllegal (cmdWord 0x06 lo hi 0 v))

/-- R153: STR.CLR. -/
def Obligations.StrClrEmptiesRegister : Prop :=
  (∀ (n : StrReg) (s : State), s.Operating →
    decode (cmdWord 0x07 n.number 0 0 0) = .ok (.strClr n) ∧
    ∃ t, exec (.strClr n) s = .next t ∧ t.strs.get n = [] ∧ (∀ k, k ≠ n → t.strs.get k = s.strs.get k) ∧
      t = answered { s with strs := t.strs } 0) ∧
  (∀ a : Byte, 3 ≤ a.toNat → RaisesIllegal (cmdWord 0x07 a 0 0 0))

/-- R154: STR.PUTC, with the full register and the illegal words. -/
def Obligations.StrPutcAppendsCharacter : Prop :=
  (∀ (n : StrReg) (ch : Byte) (s : State), s.Operating → ch ≠ 0 →
    decode (cmdWord 0x08 n.number 0 0 (ch.setWidth 32)) = .ok (.strPutc n ch) ∧
    ((s.strs.get n).length < 255 →
      ∃ t, exec (.strPutc n ch) s = .next t ∧ t.strs.get n = s.strs.get n ++ [ch] ∧
        (∀ k, k ≠ n → t.strs.get k = s.strs.get k) ∧
        t = answered { s with strs := t.strs } (BitVec.ofNat 32 (t.strs.get n).length)) ∧
    ((s.strs.get n).length = 255 →
      exec (.strPutc n ch) s = .next (raised s .illegalCommand (0x0008 ||| (n.number.setWidth 16 <<< 8)) 0))) ∧
  (∀ (a : Byte) (d : Word), 3 ≤ a.toNat ∨ d = 0 ∨ 256 ≤ d.toNat → RaisesIllegal (cmdWord 0x08 a 0 0 d))

/-- R155: STR.LEN. -/
def Obligations.StrLenReadsLength : Prop :=
  (∀ (n : StrReg) (s : State), s.Operating →
    decode (cmdWord 0x09 n.number 0 0 0) = .ok (.strLen n) ∧
    exec (.strLen n) s = .next (answered s (BitVec.ofNat 32 (s.strs.get n).length))) ∧
  (∀ a : Byte, 3 ≤ a.toNat → RaisesIllegal (cmdWord 0x09 a 0 0 0))

/-- R156: STR.GETC, with the index past the end and the illegal words. -/
def Obligations.StrGetcReadsCharacter : Prop :=
  (∀ (n : StrReg) (idx : Byte) (s : State), s.Operating →
    decode (cmdWord 0x0A n.number idx 0 0) = .ok (.strGetc n idx) ∧
    (∀ h : idx.toNat < (s.strs.get n).length,
      exec (.strGetc n idx) s = .next (answered s (((s.strs.get n)[idx.toNat]).setWidth 32))) ∧
    ((s.strs.get n).length ≤ idx.toNat →
      exec (.strGetc n idx) s =
        .next (raised s .illegalCommand (0x000A ||| (n.number.setWidth 16 <<< 8)) (idx.setWidth 16)))) ∧
  (∀ a b : Byte, 3 ≤ a.toNat → RaisesIllegal (cmdWord 0x0A a b 0 0))

/-- R157: CSR.RD, in the operating and in the Failed state. -/
def Obligations.CsrRdReadsRegister : Prop :=
  (∀ (c : Csr) (s : State),
    decode (cmdWord 0x0B c.number 0 0 0) = .ok (.csrRd c) ∧
    exec (.csrRd c) s = .next (answered s (csrValue s c.number.toNat))) ∧
  (∀ a : Byte, (a.toNat ≤ 5 → ∃ c : Csr, c.number = a) ∧ (5 < a.toNat → RaisesIllegal (cmdWord 0x0B a 0 0 0))) ∧
  (∀ (a : Byte) (s : State) (rest : List HostEvent), 5 < a.toNat → s.err ≠ .none →
    s.port = .command (cmdWord 0x0B a 0 0 0) :: rest →
      step s = .next { s with port := rest, response := some ⟨.failed, errNumber s.err⟩ })

/-- R159 (the spec's own inference): the read-only commands change no state but the response (and `CSUM`, by CSUM.COMPUTE), and
issuing one twice gives the same response. -/
def Obligations.ReadOnlyCommandsChangeNothing : Prop :=
  ∀ (i : Instr) (s t u : State), readOnly i = true → s.Operating → exec i s = .next t → t.err = .none →
    exec i t = .next u →
      t = { s with response := t.response, csum := t.csum } ∧ (i ≠ .csumCompute → t.csum = s.csum) ∧
        u.response = t.response

/-! ### The checksum family -/

/-- R79: the step function, bit by bit. -/
def Obligations.ChecksumStepXorsAndRotates : Prop :=
  ∀ c w : Half, (csumStep c w).getLsbD 0 = (c ^^^ w).getLsbD 15 ∧
    ∀ j, j < 15 → (csumStep c w).getLsbD (j + 1) = (c ^^^ w).getLsbD j

/-- R80: the checksum of an image. -/
def Obligations.ChecksumIsTheIteration : Prop :=
  ∀ m : Memory, csumCompute m =
    (List.range 63).foldl (fun c k => (c ^^^ m.getLe16 (0x80 + 2 * k)).rotateLeft 1)
      ((List.range 18).foldl (fun c k => (c ^^^ m.getLe16 (2 * k)).rotateLeft 1) 0xAAAA)

/-- R84 (the spec's own inference): the closed form. -/
def Obligations.ChecksumClosedForm : Prop :=
  ∀ m : Memory, csumCompute m =
    ((List.range 81).map fun j => (coveredWord m j).rotateLeft ((81 - j) % 16)).foldl (· ^^^ ·) 0x5555

/-- R85 (the spec's own inference): flipping bit `b` of covered word `j` flips exactly bit `(b + 81 - j) mod 16`. -/
def Obligations.SingleBitFlipFlipsOneChecksumBit : Prop :=
  ∀ (m : Memory) (j b : Nat), j < 81 → b < 16 →
    let a := 2 * (if j ≤ 17 then j else j + 46) + b / 8
    csumCompute (m.write a (m.read a ^^^ (1#8 <<< (b % 8)))) = csumCompute m ^^^ (1#16 <<< ((b + 81 - j) % 16))

/-- R87 (the spec's own inference): only the covered bytes count. -/
def Obligations.ChecksumIgnoresUncoveredBytes : Prop :=
  ∀ m m' : Memory, (∀ a, Covered a → m.read a = m'.read a) → csumCompute m = csumCompute m'

/-- R81: CSUM.COMPUTE. -/
def Obligations.CsumComputeAnswersChecksum : Prop :=
  ∀ s : State, s.Operating →
    decode (cmdWord 0x10 0 0 0 0) = .ok .csumCompute ∧
    exec .csumCompute s = .next (answered { s with csum := csumCompute s.img } ((csumCompute s.img).setWidth 32))

/-- R82: CSUM.VERIFY, accepting and refusing. -/
def Obligations.CsumVerifyComparesStored : Prop :=
  ∀ s : State, s.Operating →
    decode (cmdWord 0x11 0 0 0 0) = .ok .csumVerify ∧
    (csumCompute s.img = s.img.read 0xFF ++ s.img.read 0xFE →
      exec .csumVerify s = .next (answered { s with csum := csumCompute s.img } ((csumCompute s.img).setWidth 32))) ∧
    (csumCompute s.img ≠ s.img.read 0xFF ++ s.img.read 0xFE →
      exec .csumVerify s = .next (raised { s with csum := csumCompute s.img } .checksumMismatch (csumCompute s.img)
        (s.img.read 0xFF ++ s.img.read 0xFE)))

/-- R83: CSUM.STAMP and its frame. -/
def Obligations.CsumStampStoresChecksum : Prop :=
  ∀ s : State, s.Operating →
    decode (cmdWord 0x12 0 0 0 0) = .ok .csumStamp ∧
    ∃ t, exec .csumStamp s = .next t ∧ t.img.read 0xFE = (csumCompute s.img).extractLsb' 0 8 ∧
      t.img.read 0xFF = (csumCompute s.img).extractLsb' 8 8 ∧
      (∀ x, x ≠ 0xFE → x ≠ 0xFF → t.img.read x = s.img.read x) ∧
      t = answered { s with img := t.img, csum := csumCompute s.img } ((csumCompute s.img).setWidth 32)

/-- R86 (the spec's own inference): a stamped image verifies, at once and as long as the covered and the checksum bytes stand. -/
def Obligations.StampedImageVerifies : Prop :=
  ∀ s t u : State, s.Operating → exec .csumStamp s = .next t → u.Operating →
    (∀ a, Covered a ∨ a = 0xFE ∨ a = 0xFF → u.img.read a = t.img.read a) →
      exec .csumVerify u = .next (answered { u with csum := csumCompute s.img } ((csumCompute s.img).setWidth 32))

/-! ### The string table family -/

/-- R92, R93: emitted length and blob. -/
def Obligations.BlobBytesAreAsSpecified : Prop :=
  ∀ t : Text, emittedLen t .narrow = t.length ∧ emittedLen t .wide = 2 + 2 * t.length ∧ blob t .narrow = t ∧
    (blob t .wide).length = 2 + 2 * t.length ∧ (blob t .wide)[0]? = some (BitVec.ofNat 8 (2 + 2 * t.length)) ∧
    (blob t .wide)[1]? = some 0x03 ∧
    ∀ i, i < t.length → (blob t .wide)[2 + 2 * i]? = t[i]? ∧ (blob t .wide)[3 + 2 * i]? = some 0x00

/-- R95: STR.CHECK, within and over the budget. -/
def Obligations.StrCheckTestsBudget : Prop :=
  ∀ s : State, s.Operating →
    decode (cmdWord 0x20 0 0 0 0) = .ok .strCheck ∧
    (characters s ≤ 96 → exec .strCheck s = .next (answered s (BitVec.ofNat 32 (characters s)))) ∧
    (96 < characters s → exec .strCheck s = .next (raised s .stringTableOverflow (BitVec.ofNat 16 (characters s)) 96))

/-- R97, R96: STR.ENCODE: the blob at the cursor, the descriptor in the slot, every other byte, and the refusals. -/
def Obligations.StrEncodeLaysBlobAndDescriptor : Prop :=
  (∀ (n : StrReg) (k : Slot) (cur : BitVec 9) (s : State), s.Operating → 0x0A0 ≤ cur.toNat → cur.toNat ≤ 0x100 →
    decode (cmdWord 0x21 n.number (BitVec.ofNat 8 k.val) 0 (cur.setWidth 32)) = .ok (.strEncode n k cur) ∧
    (cur.toNat + emitted s n ≤ 256 →
      ∃ t, exec (.strEncode n k cur) s = .next t ∧
        (∀ i, i < emitted s n → (blobBytes (s.strs.get n) s.mode)[i]? = some (t.img.read (cur.toNat + i))) ∧
        t.img.read (0x0E + 2 * k.val) = BitVec.ofNat 8 cur.toNat ∧
        t.img.read (0x0F + 2 * k.val) = BitVec.ofNat 8 (emitted s n) ∧
        (∀ x, (x < cur.toNat ∨ cur.toNat + emitted s n ≤ x) → x ≠ 0x0E + 2 * k.val → x ≠ 0x0F + 2 * k.val →
          t.img.read x = s.img.read x) ∧
        t.cur.toNat = cur.toNat + emitted s n ∧
        t = answered { s with img := t.img, cur := t.cur }
          (BitVec.ofNat 32 (cur.toNat % 256 + 256 * emitted s n + 65536 * emitted s n))) ∧
    (256 < cur.toNat + emitted s n →
      exec (.strEncode n k cur) s =
        .next (raised s .boundsFault (BitVec.ofNat 16 cur.toNat) (BitVec.ofNat 16 (emitted s n))))) ∧
  (∀ (a b : Byte) (d : Word), 3 ≤ a.toNat ∨ 3 ≤ b.toNat ∨ d.toNat < 0x0A0 ∨ 0x100 < d.toNat →
    RaisesIllegal (cmdWord 0x21 a b 0 d))

/-- R99, R98: STR.DECODE: the longest zero-free prefix of the extracted bytes, and the refusals. -/
def Obligations.StrDecodeReadsBlob : Prop :=
  (∀ (n : StrReg) (offset length : Byte) (s : State), s.Operating →
    decode (cmdWord 0x22 n.number offset length 0) = .ok (.strDecode n offset length) ∧
    (offset.toNat + length.toNat ≤ 256 →
      ∃ t, exec (.strDecode n offset length) s = .next t ∧
        LongestZeroFree (t.strs.get n) (extracted s.img offset.toNat length.toNat s.mode) ∧
        (∀ k, k ≠ n → t.strs.get k = s.strs.get k) ∧
        t = answered { s with strs := t.strs } (BitVec.ofNat 32 (t.strs.get n).length)) ∧
    (256 < offset.toNat + length.toNat →
      exec (.strDecode n offset length) s =
        .next (raised s .boundsFault (offset.setWidth 16) (length.setWidth 16)))) ∧
  (∀ a b c : Byte, 3 ≤ a.toNat → RaisesIllegal (cmdWord 0x22 a b c 0))

/-- R101 (the spec's own inference): a text encoded into any image decodes to itself from the descriptor it left. -/
def Obligations.EncodedStringDecodesToItself : Prop :=
  ∀ (m : Memory) (t : Text) (k : Slot) (cur : Nat) (mode : Mode), (∀ ch ∈ t, ch ≠ 0) → 0xA0 ≤ cur →
    cur + emittedLen t mode ≤ 256 →
      ∃ m', strEncode m t k cur mode = .ok (m', cur + emittedLen t mode) ∧
        strDecode m' (descriptor m' k.val).1 (descriptor m' k.val).2 mode = .ok t

/-! ### The field codec family -/

/-- R112 (the spec's own inference), for bits and bit groups: get after put, frame, put after get, and puts to different bits
commute, read by read. -/
def Obligations.BitPrimitivesObeyTheirLaws : Prop :=
  (∀ (m : Memory) (a p : Nat) (v : BitVec 1), a < 256 → p < 8 →
    (m.putBit a p v).getBit a p = v ∧
    (∀ x q, x ≠ a ∨ q ≠ p → ((m.putBit a p v).read x).getLsbD q = (m.read x).getLsbD q) ∧
    (∀ x, (m.putBit a p (m.getBit a p)).read x = m.read x) ∧
    (∀ x b q (u : BitVec 1), b < 256 → q < 8 → b ≠ a ∨ q ≠ p →
      ((m.putBit a p v).putBit b q u).read x = ((m.putBit b q u).putBit a p v).read x)) ∧
  (∀ (m : Memory) (a lo w : Nat) (v : BitVec w), a < 256 → lo + w ≤ 8 →
    (m.putBits a lo w v).getBits a lo w = v ∧
    (∀ x q, x ≠ a ∨ q < lo ∨ lo + w ≤ q → ((m.putBits a lo w v).read x).getLsbD q = (m.read x).getLsbD q) ∧
    (∀ x, (m.putBits a lo w (m.getBits a lo w)).read x = m.read x))

/-- R112 (the spec's own inference), for the 16- and 24-bit integers: get after put, frame, put after get. -/
def Obligations.IntegerPrimitivesObeyTheirLaws : Prop :=
  (∀ (m : Memory) (a : Nat) (v : Half), a + 2 ≤ 256 →
    (m.putLe16 a v).getLe16 a = v ∧
    (∀ x, x < a ∨ a + 2 ≤ x → (m.putLe16 a v).read x = m.read x) ∧
    (∀ x, (m.putLe16 a (m.getLe16 a)).read x = m.read x)) ∧
  (∀ (m : Memory) (a : Nat) (v : BitVec 24), a + 3 ≤ 256 →
    (m.putLe24 a v).getLe24 a = v ∧
    (∀ x, x < a ∨ a + 3 ≤ x → (m.putLe24 a v).read x = m.read x) ∧
    (∀ x, (m.putLe24 a (m.getLe24 a)).read x = m.read x))

/-- R131, with the fields of R113 to R128: every byte of the image that FLD.ENCODE makes, and everything else it writes. The flag
positions of bytes 0x08 and 0x0A and the release byte addresses are the values the spec takes (R8, log entries 4 to 6). -/
def Obligations.FldEncodeWritesEveryField : Prop :=
  ∀ s : State, s.Operating → characters s ≤ 96 → emittedTotal s ≤ 96 →
    decode (cmdWord 0x30 0 0 0 0) = .ok .fldEncode ∧
    ∃ t, exec .fldEncode s = .next t ∧ (∀ a, a < 0xFE → t.img.read a = encodedByte s a) ∧
      t.img.read 0xFF ++ t.img.read 0xFE = csumCompute t.img ∧ t.cur.toNat = 0xA0 + emittedTotal s ∧
      t.csum = csumCompute t.img ∧
      t = answered { s with img := t.img, cur := t.cur, csum := t.csum } (t.csum.setWidth 32)

/-- R131, R130: the two errors of FLD.ENCODE, the budget first, then the first blob that does not fit; nothing is written. -/
def Obligations.FldEncodeRefusesOverlongStrings : Prop :=
  ∀ s : State, s.Operating →
    (96 < characters s →
      exec .fldEncode s = .next (raised s .stringTableOverflow (BitVec.ofNat 16 (characters s)) 96)) ∧
    (characters s ≤ 96 → 96 < emittedTotal s →
      exec .fldEncode s =
        .next (raised s .boundsFault (BitVec.ofNat 16 (firstMisfit s).1) (BitVec.ofNat 16 (firstMisfit s).2)))

/-- R133, with the fields of R113 to R127: every register that FLD.DECODE writes, and its refusal. The flag positions of bytes
0x08 and 0x0A and the release byte addresses are the values the spec takes (R8, log entries 4 to 6). -/
def Obligations.FldDecodeReadsEveryField : Prop :=
  ∀ s : State, s.Operating →
    decode (cmdWord 0x31 0 0 0 0) = .ok .fldDecode ∧
    ((∀ k, k < 3 → ¬outside (descriptor s.img k)) →
      ∃ t, exec .fldDecode s = .next t ∧ RegsFrom s.img t.regs ∧
        (∀ i : Fin 92, t.umem.get i = s.img.read (0x24 + i.val)) ∧ (∀ i : Fin 32, t.fcfg.get i = s.img.read (0x80 + i.val)) ∧
        (∀ n : StrReg, LongestZeroFree (t.strs.get n)
          (extracted s.img (descriptor s.img n.number.toNat).1 (descriptor s.img n.number.toNat).2 s.mode)) ∧
        t = answered { s with regs := t.regs, umem := t.umem, fcfg := t.fcfg, strs := t.strs } 0) ∧
    ((∃ k, k < 3 ∧ outside (descriptor s.img k)) →
      exec .fldDecode s = .next (raised s .boundsFault (BitVec.ofNat 16 (firstOutside s.img).1)
        (BitVec.ofNat 16 (firstOutside s.img).2)))

/-- R135 (the spec's own inference): the record survives FLD.ENCODE followed by FLD.DECODE, wherever the blobs stay below the
checksum. -/
def Obligations.RecordRoundTrip : Prop :=
  ∀ s : State, s.Operating → s.strs.legal = true → characters s ≤ 96 → 0xA0 + emittedTotal s ≤ 0xFE →
    ∃ t u, exec .fldEncode s = .next t ∧ exec .fldDecode t = .next u ∧ u.err = .none ∧ u.regs = s.regs ∧
      u.umem = s.umem ∧ u.fcfg = s.fcfg ∧ u.strs = s.strs

/-- R135 for every placement that R115, R117 and R119 allow: the round trip does not depend on the values taken for the
parameters of R8. -/
def Obligations.RoundTripForEveryLayout : Prop :=
  ∀ (l : Config.Layout) (r : Record) (mode : Mode) (m : Memory) (cur : Nat) (c : Half), l.valid = true →
    r.strs.legal = true → encodeImage l r mode = .ok (m, cur, c) → cur ≤ 0xFE → decodeRecord l m mode = .ok r

/-- R136, its last case (the spec's own inference): an image made by FLD.ENCODE below the checksum is a fixed point of decode and
encode, byte for byte and checksum for checksum. -/
def Obligations.EncodedImageIsFixedPoint : Prop :=
  ∀ s t u : State, s.Operating → s.strs.legal = true → characters s ≤ 96 → 0xA0 + emittedTotal s ≤ 0xFE →
    exec .fldEncode s = .next t → exec .fldDecode t = .next u →
      ∃ v, exec .fldEncode u = .next v ∧ v.img = t.img ∧ v.csum = t.csum ∧ v.response = t.response

/-- R137 (the spec's own inference): the invariants of every image that FLD.ENCODE makes. Which bits of bytes 0x08 and 0x0A are
unassigned follows from the positions the spec takes (R8, log entries 4 and 5). -/
def Obligations.EncodedImageInvariants : Prop :=
  ∀ s t : State, s.Operating → exec .fldEncode s = .next t → t.err = .none →
    (t.img.read 0x08).getLsbD 7 = true ∧
    (∀ a ∈ [0x01, 0x0D, 0x19, 0x21, 0x22, 0x23], t.img.read a = 0) ∧
    (∀ p, p < 5 → (t.img.read 0x08).getLsbD p = false) ∧ (∀ p, p < 2 → (t.img.read 0x0A).getLsbD p = false) ∧
    descriptor t.img 0 = (0xA0, emitted s .manufacturer) ∧
    descriptor t.img 1 = ((0xA0 + emitted s .manufacturer) % 256, emitted s .product) ∧
    descriptor t.img 2 = ((0xA0 + emitted s .manufacturer + emitted s .product) % 256, emitted s .serial) ∧
    t.img.getLe16 0xFE = csumCompute t.img

/-- R131, its corner cases, and R189: FLD.ENCODE raises `BoundsFault` in wide mode for 46 to 96 characters, and in narrow mode
never. -/
def Obligations.EncodeBoundsFaultsExactlyInWideMode : Prop :=
  ∀ s t : State, s.Operating → exec .fldEncode s = .next t →
    (t.err = .boundsFault ↔ s.mode = .wide ∧ 46 ≤ characters s ∧ characters s ≤ 96)

/-- R116, R131: the new image is a function of the record and the mode alone. -/
def Obligations.EncodeIgnoresOldImage : Prop :=
  ∀ s s' t t' : State, s.Operating → s'.Operating → s.record = s'.record → s.mode = s'.mode →
    exec .fldEncode s = .next t → exec .fldEncode s' = .next t' → t.err = .none →
      t'.img = t.img ∧ t'.cur = t.cur ∧ t'.csum = t.csum ∧ t'.err = .none ∧ t'.response = t.response

/-- R131: what FLD.ENCODE makes satisfies CSUM.VERIFY. -/
def Obligations.EncodedImageVerifies : Prop :=
  ∀ s t : State, s.Operating → exec .fldEncode s = .next t → t.err = .none →
    exec .csumVerify t = .next (answered t (t.csum.setWidth 32))

/-- R128, R75: no register depends on the unassigned bytes and bits (under the positions the spec takes, R8,
log entries 4 and 5), the reserved bit or the checksum bytes. (For the scalar and
opaque registers: a descriptor may point a string at any byte, R98.) -/
def Obligations.DecodeIgnoresUnassignedBits : Prop :=
  ∀ s s' t t' : State, s.Operating → s'.Operating →
    (∀ a, a ∉ [0x01, 0x08, 0x0A, 0x0D, 0x19, 0x21, 0x22, 0x23, 0xFE, 0xFF] → s.img.read a = s'.img.read a) →
    (∀ p, p = 5 ∨ p = 6 → (s.img.read 0x08).getLsbD p = (s'.img.read 0x08).getLsbD p) →
    (∀ p, 2 ≤ p → (s.img.read 0x0A).getLsbD p = (s'.img.read 0x0A).getLsbD p) →
    exec .fldDecode s = .next t → exec .fldDecode s' = .next t' → t.err = .none → t'.err = .none →
      t.regs = t'.regs ∧ t.umem = t'.umem ∧ t.fcfg = t'.fcfg
end

