-- ==== Sys2Proof/Laws/Command.lean ====
section
/-! SUPPORT. The command word as five fields (R54): reading the fields of a packed word, packing the fields of a word, and the
numbering of registers and opcodes read in both directions. -/

namespace Sys2Proof

theorem getLsbD_packCommand (op a b c : Byte) (d : Word) (i : Nat) :
    (packCommand op a b c d).getLsbD i =
      if i < 8 then op.getLsbD i
      else if i < 16 then a.getLsbD (i - 8)
      else if i < 24 then b.getLsbD (i - 16)
      else if i < 32 then c.getLsbD (i - 24) else d.getLsbD (i - 32) := by
  refine (BitVec.getLsbD_append ..).trans ?_
  by_cases h1 : i < 8
  · rw [if_pos h1, if_pos h1]
  rw [if_neg h1, if_neg h1, BitVec.getLsbD_append]
  by_cases h2 : i < 16
  · rw [if_pos h2, if_pos (by omega)]
  rw [if_neg h2, if_neg (by omega), BitVec.getLsbD_append]
  by_cases h3 : i < 24
  · rw [if_pos h3, if_pos (by omega), show i - 8 - 8 = i - 16 by omega]
  rw [if_neg h3, if_neg (by omega), BitVec.getLsbD_append]
  by_cases h4 : i < 32
  · rw [if_pos h4, if_pos (by omega), show i - 8 - 8 - 8 = i - 24 by omega]
  · rw [if_neg h4, if_neg (by omega), show i - 8 - 8 - 8 - 8 = i - 32 by omega]

@[simp] theorem opField_packCommand (op a b c : Byte) (d : Word) : opField (packCommand op a b c d) = op := by
  apply BitVec.eq_of_getLsbD_eq
  intro i hi
  rw [opField, BitVec.getLsbD_extractLsb', getLsbD_packCommand]
  simp [hi]

@[simp] theorem aField_packCommand (op a b c : Byte) (d : Word) : aField (packCommand op a b c d) = a := by
  apply BitVec.eq_of_getLsbD_eq
  intro i hi
  have h : 8 + i < 16 := by omega
  rw [aField, BitVec.getLsbD_extractLsb', getLsbD_packCommand]
  simp [hi, h]

@[simp] theorem bField_packCommand (op a b c : Byte) (d : Word) : bField (packCommand op a b c d) = b := by
  apply BitVec.eq_of_getLsbD_eq
  intro i hi
  rw [bField, BitVec.getLsbD_extractLsb', getLsbD_packCommand, if_neg (by omega), if_neg (by omega), if_pos (by omega),
    show 16 + i - 16 = i by omega]
  simp [hi]

@[simp] theorem cField_packCommand (op a b c : Byte) (d : Word) : cField (packCommand op a b c d) = c := by
  apply BitVec.eq_of_getLsbD_eq
  intro i hi
  rw [cField, BitVec.getLsbD_extractLsb', getLsbD_packCommand, if_neg (by omega), if_neg (by omega), if_neg (by omega), if_pos (by omega),
    show 24 + i - 24 = i by omega]
  simp [hi]

@[simp] theorem dField_packCommand (op a b c : Byte) (d : Word) : dField (packCommand op a b c d) = d := by
  apply BitVec.eq_of_getLsbD_eq
  intro i hi
  rw [dField, BitVec.getLsbD_extractLsb', getLsbD_packCommand, if_neg (by omega), if_neg (by omega), if_neg (by omega), if_neg (by omega),
    show 32 + i - 32 = i by omega]
  simp [hi]

/-- A word is its five fields (R54). -/
theorem packCommand_fields (cmd : Command) :
    packCommand (opField cmd) (aField cmd) (bField cmd) (cField cmd) (dField cmd) = cmd := by
  apply BitVec.eq_of_getLsbD_eq
  intro i hi
  rw [getLsbD_packCommand]
  simp only [opField, aField, bField, cField, dField, BitVec.getLsbD_extractLsb']
  split
  · simp [*]
  split
  · rw [show 8 + (i - 8) = i by omega]; simp; omega
  split
  · rw [show 16 + (i - 16) = i by omega]; simp; omega
  split
  · rw [show 24 + (i - 24) = i by omega]; simp; omega
  · rw [show 32 + (i - 32) = i by omega]; simp; omega

/-! ### Opcodes and register numbers -/

@[simp] theorem opcodeOf_code (o : Opcode) : opcodeOf o.code = some o := by cases o <;> rfl

/-- `OP` determines the command (R56). -/
theorem code_of_opcodeOf {op : Byte} {o : Opcode} (h : opcodeOf op = some o) : o.code = op := by
  unfold opcodeOf at h
  split at h <;> first | (cases h; apply BitVec.eq_of_toNat_eq; simp [Opcode.code, *]) | cases h

@[simp] theorem scalarOfNumber_number (f : ScalarReg) : scalarOfNumber f.number = some f := by cases f <;> rfl

theorem number_of_scalarOfNumber {n : Nat} {f : ScalarReg} (h : scalarOfNumber n = some f) : f.number = n := by
  have hn : n < 44 := by
    obtain ⟨h, -⟩ := List.getElem?_eq_some_iff.1 h
    exact h
  revert f
  interval_cases n <;> (intro f h; cases h; rfl)

theorem ScalarReg.number_lt (f : ScalarReg) : f.number < 44 := by cases f <;> decide

@[simp] theorem strRegOfNumber_number (n : StrReg) : strRegOfNumber n.number = some n := by cases n <;> rfl

theorem number_of_strRegOfNumber {a : Byte} {n : StrReg} (h : strRegOfNumber a = some n) : n.number = a := by
  unfold strRegOfNumber at h
  split at h <;> first | (cases h; apply BitVec.eq_of_toNat_eq; simp [StrReg.number, *]) | cases h

@[simp] theorem csrOfNumber_number (c : Csr) : csrOfNumber c.number = some c := by cases c <;> rfl

theorem number_of_csrOfNumber {a : Byte} {c : Csr} (h : csrOfNumber a = some c) : c.number = a := by
  unfold csrOfNumber at h
  split at h <;> first | (cases h; apply BitVec.eq_of_toNat_eq; simp [Csr.number, *]) | cases h

@[simp] theorem slotOfNumber_ofNat (k : Slot) : slotOfNumber (BitVec.ofNat 8 k.val) = some k := by
  revert k; decide

@[simp] theorem recRegOfNumber_number (r : RecReg) : recRegOfNumber r.number = some r := by
  cases r with
  | scalar f => cases f <;> rfl
  | umem i => revert i; decide
  | fcfg i => revert i; decide

end Sys2Proof
end

