-- ==== Sys2Proof/Laws/Memory.lean ====
section
/-! SUPPORT. The image memory: what a read gives after every write, that every operation keeps the canonical form, and that two
canonical images that read alike are the same data. -/

namespace Sys2Proof.Machine

/-! ### Reads after writes -/

@[simp] theorem Memory.read_nil (a : Nat) : Memory.read [] a = Config.unwrittenByte := rfl

theorem Memory.read_insert (m : Memory) (a b : Nat) (v : Byte) (h : ∀ c ∈ m, c.1 ≠ a) :
    (Memory.insert m a v).read b = if b = a then v else m.read b := by
  induction m with
  | nil => simp [Memory.insert, Memory.read, eq_comm]
  | cons c m ih =>
    obtain ⟨x, w⟩ := c
    have hx : x ≠ a := h _ List.mem_cons_self
    have ih := ih fun c hc => h c (List.mem_cons_of_mem _ hc)
    by_cases hax : a < x
    · simp [Memory.insert, hax, Memory.read, eq_comm]
    · by_cases hxb : x = b
      · subst hxb; simp [Memory.insert, hax, Memory.read, hx]
      · simp [Memory.insert, hax, Memory.read, hxb, ih]

theorem Memory.read_filter_ne (m : Memory) (a b : Nat) :
    Memory.read (m.filter fun c => c.1 != a) b = if b = a then Config.unwrittenByte else m.read b := by
  induction m with
  | nil => simp
  | cons c m ih =>
    obtain ⟨x, w⟩ := c
    by_cases hxa : x = a
    · subst hxa
      by_cases hb : b = x <;> simp_all [Memory.read, eq_comm]
    · by_cases hb : x = b
      · subst hb; simp [Memory.read, hxa]
      · simp [Memory.read, hxa, hb, ih]

/-- A read after a write: the written value at its address, the old one elsewhere (R42). -/
theorem Memory.read_write (m : Memory) {a : Nat} (b : Nat) (v : Byte) (ha : a < 256) :
    (m.write a v).read b = if b = a then v else m.read b := by
  unfold Memory.write
  rw [if_pos ha]
  by_cases hv : v = Config.unwrittenByte
  · simp [hv, Memory.read_filter_ne]
  · simp only [hv, if_false]
    rw [Memory.read_insert _ _ _ _ (by simp), Memory.read_filter_ne]
    split <;> rfl

@[simp] theorem Memory.read_write_self (m : Memory) {a : Nat} (v : Byte) (ha : a < 256) : (m.write a v).read a = v := by
  simp [Memory.read_write _ _ _ ha]

theorem Memory.read_write_of_ne (m : Memory) {a b : Nat} (v : Byte) (h : b ≠ a) : (m.write a v).read b = m.read b := by
  by_cases ha : a < 256
  · simp [Memory.read_write _ _ _ ha, h]
  · simp [Memory.write, ha]

/-- Outside the image nothing is stored. -/
theorem Memory.write_outside (m : Memory) {a : Nat} (v : Byte) (ha : ¬a < 256) : m.write a v = m := by
  simp [Memory.write, ha]

@[simp] theorem Memory.writeBytes_nil (m : Memory) (a : Nat) : m.writeBytes a [] = m := rfl

@[simp] theorem Memory.writeBytes_cons (m : Memory) (a : Nat) (b : Byte) (bs : List Byte) :
    m.writeBytes a (b :: bs) = (m.write a b).writeBytes (a + 1) bs := rfl

/-- A read below the first stored byte, or past the last, is unchanged (R111, R112 b). -/
theorem Memory.read_writeBytes_of_not_mem (bs : List Byte) (m : Memory) {a x : Nat} (h : x < a ∨ a + bs.length ≤ x) :
    (m.writeBytes a bs).read x = m.read x := by
  induction bs generalizing m a with
  | nil => rfl
  | cons b bs ih =>
    simp only [List.length_cons] at h
    rw [Memory.writeBytes_cons, ih _ (by omega), Memory.read_write_of_ne _ _ (by omega)]

/-- Byte `i` of the sequence stands at `a + i` (R111). -/
theorem Memory.read_writeBytes_of_lt (bs : List Byte) (m : Memory) {a i : Nat} (hin : a + bs.length ≤ 256)
    (hi : i < bs.length) : (m.writeBytes a bs).read (a + i) = bs[i] := by
  induction bs generalizing m a i with
  | nil => simp at hi
  | cons b bs ih =>
    simp only [List.length_cons] at hin hi
    rw [Memory.writeBytes_cons]
    cases i with
    | zero =>
      rw [Memory.read_writeBytes_of_not_mem _ _ (by omega)]
      exact Memory.read_write_self _ _ (by omega)
    | succ i =>
      have := ih (m.write a b) (a := a + 1) (i := i) (by omega) (by omega)
      simpa [Nat.add_assoc, Nat.add_comm 1 i] using this

/-- All reads after a sequence of bytes is stored (R111). -/
theorem Memory.read_writeBytes (bs : List Byte) (m : Memory) {a : Nat} (x : Nat) (hin : a + bs.length ≤ 256) :
    (m.writeBytes a bs).read x = if a ≤ x then bs[x - a]?.getD (m.read x) else m.read x := by
  by_cases h : a ≤ x ∧ x < a + bs.length
  · have := Memory.read_writeBytes_of_lt bs m hin (i := x - a) (by omega)
    rw [show a + (x - a) = x by omega] at this
    rw [this, if_pos h.1, List.getElem?_eq_getElem (by omega)]
    rfl
  · rw [Memory.read_writeBytes_of_not_mem bs m (by omega)]
    split
    · rw [List.getElem?_eq_none (by omega)]; rfl
    · rfl

/-! ### The canonical form -/

theorem Memory.wf_cons (a : Nat) (v : Byte) (m : Memory) :
    Memory.wf ((a, v) :: m) = true ↔ a < 256 ∧ v ≠ Config.unwrittenByte ∧ (∀ c ∈ m, a < c.1) ∧ Memory.wf m = true := by
  simp [Memory.wf, and_assoc]

@[simp] theorem Memory.wf_nil : Memory.wf [] = true := rfl

theorem Memory.wf_filter {m : Memory} (p : Host.Cell → Bool) (h : Memory.wf m = true) :
    Memory.wf (m.filter p) = true := by
  induction m with
  | nil => rfl
  | cons c m ih =>
    obtain ⟨a, v⟩ := c
    obtain ⟨h1, h2, h3, h4⟩ := (Memory.wf_cons a v m).1 h
    by_cases hp : p (a, v)
    · rw [List.filter_cons_of_pos hp, Memory.wf_cons]
      exact ⟨h1, h2, fun c hc => h3 c (List.mem_filter.1 hc).1, ih h4⟩
    · rw [List.filter_cons_of_neg hp]
      exact ih h4

theorem Memory.mem_insert {m : Memory} {a : Nat} {v : Byte} {c : Host.Cell} (h : c ∈ Memory.insert m a v) :
    c = (a, v) ∨ c ∈ m := by
  induction m with
  | nil => simpa [Memory.insert] using h
  | cons d m ih =>
    unfold Memory.insert at h
    split at h
    · simpa using h
    · rcases List.mem_cons.1 h with h | h
      · exact .inr (h ▸ List.mem_cons_self)
      · exact (ih h).imp_right (List.mem_cons_of_mem _)

theorem Memory.wf_insert {m : Memory} {a : Nat} {v : Byte} (ha : a < 256) (hv : v ≠ Config.unwrittenByte)
    (hm : Memory.wf m = true) (hne : ∀ c ∈ m, c.1 ≠ a) : Memory.wf (Memory.insert m a v) = true := by
  induction m with
  | nil => exact (Memory.wf_cons a v []).2 ⟨ha, hv, by simp, rfl⟩
  | cons c m ih =>
    obtain ⟨b, w⟩ := c
    obtain ⟨h1, h2, h3, h4⟩ := (Memory.wf_cons b w m).1 hm
    have hb : b ≠ a := hne _ List.mem_cons_self
    unfold Memory.insert
    split
    · rename_i hab
      refine (Memory.wf_cons a v _).2 ⟨ha, hv, fun c hc => ?_, hm⟩
      rcases List.mem_cons.1 hc with hc | hc
      · exact hc ▸ hab
      · exact Nat.lt_trans hab (h3 c hc)
    · rename_i hab
      refine (Memory.wf_cons b w _).2 ⟨h1, h2, fun c hc => ?_, ih h4 fun c hc => hne c (List.mem_cons_of_mem _ hc)⟩
      rcases Memory.mem_insert hc with hc | hc
      · subst hc; show b < a; omega
      · exact h3 c hc

/-- A write keeps the canonical form. -/
theorem Memory.wf_write {m : Memory} (a : Nat) (v : Byte) (h : Memory.wf m = true) : Memory.wf (m.write a v) = true := by
  by_cases ha : a < 256
  · unfold Memory.write
    rw [if_pos ha]
    by_cases hv : v = Config.unwrittenByte
    · simpa [hv] using Memory.wf_filter _ h
    · rw [if_neg hv]
      exact Memory.wf_insert ha hv (Memory.wf_filter _ h) (by simp)
  · rwa [Memory.write_outside m v ha]

/-- A sequence of writes keeps the canonical form. -/
theorem Memory.wf_writeBytes {m : Memory} (a : Nat) (bs : List Byte) (h : Memory.wf m = true) :
    Memory.wf (m.writeBytes a bs) = true := by
  induction bs generalizing m a with
  | nil => exact h
  | cons b bs ih => exact ih _ (Memory.wf_write a b h)

theorem Memory.wf_putBit {m : Memory} (a p : Nat) (v : BitVec 1) (h : Memory.wf m = true) :
    Memory.wf (m.putBit a p v) = true := Memory.wf_write _ _ h

theorem Memory.wf_putBits {m : Memory} (a lo w : Nat) (v : BitVec w) (h : Memory.wf m = true) :
    Memory.wf (m.putBits a lo w v) = true := Memory.wf_write _ _ h

theorem Memory.wf_putLe16 {m : Memory} (a : Nat) (v : Half) (h : Memory.wf m = true) :
    Memory.wf (m.putLe16 a v) = true := Memory.wf_write _ _ (Memory.wf_write _ _ h)

theorem Memory.wf_putLe24 {m : Memory} (a : Nat) (v : BitVec 24) (h : Memory.wf m = true) :
    Memory.wf (m.putLe24 a v) = true := Memory.wf_write _ _ (Memory.wf_write _ _ (Memory.wf_write _ _ h))

theorem Memory.wf_memWrite {m m' : Memory} {a n : Nat} {v : Word} (h : Memory.wf m = true)
    (hw : memWrite m a n v = .ok m') : Memory.wf m' = true := by
  unfold memWrite at hw
  split at hw
  · cases hw; exact Memory.wf_writeBytes _ _ h
  · cases hw

theorem Memory.wf_ofBytes (bytes : Vector Byte 256) : Memory.wf (Memory.ofBytes bytes) = true :=
  Memory.wf_writeBytes _ _ rfl

/-- The image a reset event brings holds its byte `a` at address `a` (R32). -/
theorem Memory.read_ofBytes (bytes : Vector Byte 256) {a : Nat} (ha : a < 256) :
    (Memory.ofBytes bytes).read a = bytes[a] := by
  have := Memory.read_writeBytes_of_lt bytes.toList [] (a := 0) (i := a) (by simp) (by simpa using ha)
  simpa [Memory.ofBytes] using this

theorem Memory.writeBytes_zeros (n a : Nat) : Memory.writeBytes [] a (List.replicate n 0) = [] := by
  induction n generalizing a with
  | zero => rfl
  | succ n ih =>
    rw [List.replicate_succ, Memory.writeBytes_cons]
    have : Memory.write [] a 0 = [] := by simp [Memory.write]
    rw [this, ih]

/-- The zero-filled image lists nothing (R116). -/
theorem Memory.zeroFilled_eq_nil : Memory.zeroFilled = [] := Memory.writeBytes_zeros _ _

@[simp] theorem Memory.read_zeroFilled (a : Nat) : Memory.zeroFilled.read a = 0 := by
  rw [Memory.zeroFilled_eq_nil]; rfl

/-! ### Equal reads, equal data -/

theorem Memory.read_eq_of_lt {m : Memory} {a : Nat} (h : ∀ c ∈ m, a < c.1) : m.read a = Config.unwrittenByte := by
  induction m with
  | nil => rfl
  | cons c m ih =>
    obtain ⟨b, v⟩ := c
    have hb : a < b := h _ List.mem_cons_self
    have : b ≠ a := by omega
    simpa [Memory.read, this] using ih fun c hc => h c (List.mem_cons_of_mem _ hc)

/-- Two canonical images that read alike at every address are the same list. -/
theorem Memory.ext_read {m m' : Memory} (h : Memory.wf m = true) (h' : Memory.wf m' = true)
    (hr : ∀ a, m.read a = m'.read a) : m = m' := by
  induction m generalizing m' with
  | nil =>
    cases m' with
    | nil => rfl
    | cons c m' =>
      obtain ⟨a, v⟩ := c
      exact absurd (by simpa [Memory.read] using (hr a).symm) ((Memory.wf_cons a v m').1 h').2.1
  | cons c m ih =>
    obtain ⟨a, v⟩ := c
    obtain ⟨-, hv, hlt, hm⟩ := (Memory.wf_cons a v m).1 h
    cases m' with
    | nil => exact absurd (by simpa [Memory.read] using hr a) hv
    | cons c' m' =>
      obtain ⟨a', v'⟩ := c'
      obtain ⟨-, hv', hlt', hm'⟩ := (Memory.wf_cons a' v' m').1 h'
      have haa : a = a' := by
        rcases Nat.lt_trichotomy a a' with hlt1 | heq | hlt1
        · have := hr a
          rw [Memory.read_eq_of_lt (m := (a', v') :: m') (by
            intro c hc; rcases List.mem_cons.1 hc with hc | hc
            · exact hc ▸ hlt1
            · exact Nat.lt_trans hlt1 (hlt' c hc))] at this
          exact absurd (by simpa [Memory.read] using this) hv
        · exact heq
        · have := hr a'
          rw [Memory.read_eq_of_lt (m := (a, v) :: m) (by
            intro c hc; rcases List.mem_cons.1 hc with hc | hc
            · exact hc ▸ hlt1
            · exact Nat.lt_trans hlt1 (hlt c hc))] at this
          exact absurd (by simpa [Memory.read] using this.symm) hv'
      subst haa
      have hvv : v = v' := by simpa [Memory.read] using hr a
      subst hvv
      congr 1
      refine ih hm hm' fun b => ?_
      by_cases hb : b = a
      · subst hb; rw [Memory.read_eq_of_lt hlt, Memory.read_eq_of_lt hlt']
      · have := hr b
        simpa [Memory.read, Ne.symm hb] using this

/-! ### The little-endian accesses (R11, R109) -/

theorem insideImage_iff (a n : Nat) : insideImage a n = true ↔ a + n ≤ 256 := by simp [insideImage]

/-- Bit `i` of a little-endian word (R38, R109). -/
theorem Memory.getLsbD_getLe16 (m : Memory) (a i : Nat) :
    (m.getLe16 a).getLsbD i = if i < 8 then (m.read a).getLsbD i else (m.read (a + 1)).getLsbD (i - 8) :=
  (BitVec.getLsbD_append ..).trans (by split <;> simp_all)

/-- Bit `i` of a 24-bit field (R110). -/
theorem Memory.getLsbD_getLe24 (m : Memory) (a i : Nat) :
    (m.getLe24 a).getLsbD i =
      if i < 8 then (m.read a).getLsbD i
      else if i < 16 then (m.read (a + 1)).getLsbD (i - 8) else (m.read (a + 2)).getLsbD (i - 16) := by
  refine (BitVec.getLsbD_append ..).trans ?_
  by_cases h8 : i < 8
  · simp [h8]
  · rw [if_neg h8, BitVec.getLsbD_append, if_neg h8, Nat.sub_sub]
    by_cases h16 : i < 16
    · rw [if_pos h16, if_pos (by omega)]
    · rw [if_neg h16, if_neg (by omega)]

/-- `MemRead(a, 2)` is `get_le16` inside the image. -/
theorem memRead_two (m : Memory) {a : Nat} (h : a + 2 ≤ 256) : memRead m a 2 = .ok ((m.getLe16 a).setWidth 32) := by
  unfold memRead
  rw [if_pos ((insideImage_iff a 2).2 h)]
  congr 1
  simp only [List.range_succ, List.range_zero, List.nil_append, List.foldl_append, List.foldl_cons, List.foldl_nil,
    Nat.add_zero]
  apply BitVec.eq_of_getLsbD_eq
  intro i hi
  rw [BitVec.getLsbD_setWidth, Memory.getLsbD_getLe16]
  by_cases h8 : i < 8
  · simp [h8, hi]
  · have : BitVec.getLsbD (m.read a) i = false := BitVec.getLsbD_of_ge _ _ (by omega)
    simp [h8, hi, this]

/-- `MemWrite(a, 2, v)` is `put_le16` inside the image. -/
theorem memWrite_two (m : Memory) {a : Nat} (v : Half) (h : a + 2 ≤ 256) :
    memWrite m a 2 (v.setWidth 32) = .ok (m.putLe16 a v) := by
  have hx (k : Nat) (hk : k ≤ 8) : (v.setWidth 32).extractLsb' k 8 = v.extractLsb' k 8 := by
    apply BitVec.eq_of_getLsbD_eq
    intro i hi
    have : k + i < 32 := by omega
    simp [hi, this]
  unfold memWrite
  rw [if_pos ((insideImage_iff a 2).2 h)]
  simp only [List.range_succ, List.range_zero, List.nil_append, List.map_cons, List.map_nil, List.cons_append,
    hx (8 * 0) (by omega), hx (8 * 1) (by omega), Memory.writeBytes_cons, Memory.writeBytes_nil, Memory.putLe16]

/-- The stored word reads back its bytes (R37, R109). -/
theorem Memory.read_putLe16 (m : Memory) {a : Nat} (b : Nat) (v : Half) (h : a + 2 ≤ 256) :
    (m.putLe16 a v).read b =
      if b = a then v.extractLsb' 0 8 else if b = a + 1 then v.extractLsb' 8 8 else m.read b := by
  unfold Memory.putLe16
  rw [Memory.read_write _ _ _ (by omega), Memory.read_write _ _ _ (by omega)]
  by_cases h1 : b = a + 1
  · subst h1; simp
  · simp [h1]

/-- The three bytes of a 24-bit field (R110). -/
theorem Memory.read_putLe24 (m : Memory) {a : Nat} (b : Nat) (v : BitVec 24) (h : a + 3 ≤ 256) :
    (m.putLe24 a v).read b =
      if b = a then v.extractLsb' 0 8 else if b = a + 1 then v.extractLsb' 8 8
      else if b = a + 2 then v.extractLsb' 16 8 else m.read b := by
  unfold Memory.putLe24
  rw [Memory.read_write _ _ _ (by omega), Memory.read_write _ _ _ (by omega), Memory.read_write _ _ _ (by omega)]
  by_cases h2 : b = a + 2
  · subst h2; simp
  · by_cases h1 : b = a + 1
    · subst h1; simp
    · simp [h1, h2]

end Sys2Proof.Machine
end

