-- ==== Sys2Proof/Laws/State.lean ====
section
/-! SUPPORT. Every field of the state after every shared update, by rfl and tagged for simp, so that no proof unfolds a record
update; and the register files as independent registers. -/

namespace Sys2Proof.Machine

/-! ### Responses and errors -/

@[simp] theorem State.respondOk_img (s : State) (v : Word) : (s.respondOk v).img = s.img := rfl
@[simp] theorem State.respondOk_regs (s : State) (v : Word) : (s.respondOk v).regs = s.regs := rfl
@[simp] theorem State.respondOk_umem (s : State) (v : Word) : (s.respondOk v).umem = s.umem := rfl
@[simp] theorem State.respondOk_fcfg (s : State) (v : Word) : (s.respondOk v).fcfg = s.fcfg := rfl
@[simp] theorem State.respondOk_strs (s : State) (v : Word) : (s.respondOk v).strs = s.strs := rfl
@[simp] theorem State.respondOk_mode (s : State) (v : Word) : (s.respondOk v).mode = s.mode := rfl
@[simp] theorem State.respondOk_err (s : State) (v : Word) : (s.respondOk v).err = s.err := rfl
@[simp] theorem State.respondOk_errA (s : State) (v : Word) : (s.respondOk v).errA = s.errA := rfl
@[simp] theorem State.respondOk_errB (s : State) (v : Word) : (s.respondOk v).errB = s.errB := rfl
@[simp] theorem State.respondOk_csum (s : State) (v : Word) : (s.respondOk v).csum = s.csum := rfl
@[simp] theorem State.respondOk_cur (s : State) (v : Word) : (s.respondOk v).cur = s.cur := rfl
@[simp] theorem State.respondOk_response (s : State) (v : Word) : (s.respondOk v).response = some ⟨.ok, v⟩ := rfl
@[simp] theorem State.respondOk_port (s : State) (v : Word) : (s.respondOk v).port = s.port := rfl

@[simp] theorem State.respondFailed_img (s : State) : (s.respondFailed).img = s.img := rfl
@[simp] theorem State.respondFailed_regs (s : State) : (s.respondFailed).regs = s.regs := rfl
@[simp] theorem State.respondFailed_umem (s : State) : (s.respondFailed).umem = s.umem := rfl
@[simp] theorem State.respondFailed_fcfg (s : State) : (s.respondFailed).fcfg = s.fcfg := rfl
@[simp] theorem State.respondFailed_strs (s : State) : (s.respondFailed).strs = s.strs := rfl
@[simp] theorem State.respondFailed_mode (s : State) : (s.respondFailed).mode = s.mode := rfl
@[simp] theorem State.respondFailed_err (s : State) : (s.respondFailed).err = s.err := rfl
@[simp] theorem State.respondFailed_errA (s : State) : (s.respondFailed).errA = s.errA := rfl
@[simp] theorem State.respondFailed_errB (s : State) : (s.respondFailed).errB = s.errB := rfl
@[simp] theorem State.respondFailed_csum (s : State) : (s.respondFailed).csum = s.csum := rfl
@[simp] theorem State.respondFailed_cur (s : State) : (s.respondFailed).cur = s.cur := rfl
@[simp] theorem State.respondFailed_response (s : State) : (s.respondFailed).response = some ⟨.failed, s.err.code.setWidth 32⟩ := rfl
@[simp] theorem State.respondFailed_port (s : State) : (s.respondFailed).port = s.port := rfl

@[simp] theorem State.raise_img (s : State) (e : EngineError) : (s.raise e).img = s.img := rfl
@[simp] theorem State.raise_regs (s : State) (e : EngineError) : (s.raise e).regs = s.regs := rfl
@[simp] theorem State.raise_umem (s : State) (e : EngineError) : (s.raise e).umem = s.umem := rfl
@[simp] theorem State.raise_fcfg (s : State) (e : EngineError) : (s.raise e).fcfg = s.fcfg := rfl
@[simp] theorem State.raise_strs (s : State) (e : EngineError) : (s.raise e).strs = s.strs := rfl
@[simp] theorem State.raise_mode (s : State) (e : EngineError) : (s.raise e).mode = s.mode := rfl
@[simp] theorem State.raise_err (s : State) (e : EngineError) : (s.raise e).err = e.code := rfl
@[simp] theorem State.raise_errA (s : State) (e : EngineError) : (s.raise e).errA = e.infoA := rfl
@[simp] theorem State.raise_errB (s : State) (e : EngineError) : (s.raise e).errB = e.infoB := rfl
@[simp] theorem State.raise_csum (s : State) (e : EngineError) : (s.raise e).csum = s.csum := rfl
@[simp] theorem State.raise_cur (s : State) (e : EngineError) : (s.raise e).cur = s.cur := rfl
@[simp] theorem State.raise_response (s : State) (e : EngineError) : (s.raise e).response = some ⟨.failed, e.code.code.setWidth 32⟩ := rfl
@[simp] theorem State.raise_port (s : State) (e : EngineError) : (s.raise e).port = s.port := rfl

/-! ### Presenting a command and reset -/

@[simp] theorem present_img (s : State) (cmd : Command) : (present s cmd).img = s.img := rfl
@[simp] theorem present_regs (s : State) (cmd : Command) : (present s cmd).regs = s.regs := rfl
@[simp] theorem present_umem (s : State) (cmd : Command) : (present s cmd).umem = s.umem := rfl
@[simp] theorem present_fcfg (s : State) (cmd : Command) : (present s cmd).fcfg = s.fcfg := rfl
@[simp] theorem present_strs (s : State) (cmd : Command) : (present s cmd).strs = s.strs := rfl
@[simp] theorem present_mode (s : State) (cmd : Command) : (present s cmd).mode = s.mode := rfl
@[simp] theorem present_err (s : State) (cmd : Command) : (present s cmd).err = s.err := rfl
@[simp] theorem present_errA (s : State) (cmd : Command) : (present s cmd).errA = s.errA := rfl
@[simp] theorem present_errB (s : State) (cmd : Command) : (present s cmd).errB = s.errB := rfl
@[simp] theorem present_csum (s : State) (cmd : Command) : (present s cmd).csum = s.csum := rfl
@[simp] theorem present_cur (s : State) (cmd : Command) : (present s cmd).cur = s.cur := rfl
@[simp] theorem present_response (s : State) (cmd : Command) : (present s cmd).response = s.response := rfl
@[simp] theorem present_port (s : State) (cmd : Command) : (present s cmd).port = .command cmd :: s.port := rfl

@[simp] theorem resetEngine_img (strap : Mode) (image : Vector Byte 256) (port : List HostEvent) :
    (resetEngine strap image port).img = Memory.ofBytes image := rfl
@[simp] theorem resetEngine_regs (strap : Mode) (image : Vector Byte 256) (port : List HostEvent) :
    (resetEngine strap image port).regs = Regs.zero := rfl
@[simp] theorem resetEngine_umem (strap : Mode) (image : Vector Byte 256) (port : List HostEvent) :
    (resetEngine strap image port).umem = Vector.replicate 92 0 := rfl
@[simp] theorem resetEngine_fcfg (strap : Mode) (image : Vector Byte 256) (port : List HostEvent) :
    (resetEngine strap image port).fcfg = Vector.replicate 32 0 := rfl
@[simp] theorem resetEngine_strs (strap : Mode) (image : Vector Byte 256) (port : List HostEvent) :
    (resetEngine strap image port).strs = ⟨[], [], []⟩ := rfl
@[simp] theorem resetEngine_mode (strap : Mode) (image : Vector Byte 256) (port : List HostEvent) :
    (resetEngine strap image port).mode = strap := rfl
@[simp] theorem resetEngine_err (strap : Mode) (image : Vector Byte 256) (port : List HostEvent) :
    (resetEngine strap image port).err = .none := rfl
@[simp] theorem resetEngine_errA (strap : Mode) (image : Vector Byte 256) (port : List HostEvent) :
    (resetEngine strap image port).errA = 0 := rfl
@[simp] theorem resetEngine_errB (strap : Mode) (image : Vector Byte 256) (port : List HostEvent) :
    (resetEngine strap image port).errB = 0 := rfl
@[simp] theorem resetEngine_csum (strap : Mode) (image : Vector Byte 256) (port : List HostEvent) :
    (resetEngine strap image port).csum = 0 := rfl
@[simp] theorem resetEngine_cur (strap : Mode) (image : Vector Byte 256) (port : List HostEvent) :
    (resetEngine strap image port).cur = 0x0A0 := rfl
@[simp] theorem resetEngine_response (strap : Mode) (image : Vector Byte 256) (port : List HostEvent) :
    (resetEngine strap image port).response = none := rfl
@[simp] theorem resetEngine_port (strap : Mode) (image : Vector Byte 256) (port : List HostEvent) :
    (resetEngine strap image port).port = port := rfl

/-! ### Register writes -/

@[simp] theorem writeReg_img (s : State) (r : RecReg) (v : Word) : (writeReg s r v).img = s.img := by cases r <;> rfl
@[simp] theorem writeReg_strs (s : State) (r : RecReg) (v : Word) : (writeReg s r v).strs = s.strs := by cases r <;> rfl
@[simp] theorem writeReg_mode (s : State) (r : RecReg) (v : Word) : (writeReg s r v).mode = s.mode := by cases r <;> rfl
@[simp] theorem writeReg_err (s : State) (r : RecReg) (v : Word) : (writeReg s r v).err = s.err := by cases r <;> rfl
@[simp] theorem writeReg_errA (s : State) (r : RecReg) (v : Word) : (writeReg s r v).errA = s.errA := by cases r <;> rfl
@[simp] theorem writeReg_errB (s : State) (r : RecReg) (v : Word) : (writeReg s r v).errB = s.errB := by cases r <;> rfl
@[simp] theorem writeReg_csum (s : State) (r : RecReg) (v : Word) : (writeReg s r v).csum = s.csum := by cases r <;> rfl
@[simp] theorem writeReg_cur (s : State) (r : RecReg) (v : Word) : (writeReg s r v).cur = s.cur := by cases r <;> rfl
@[simp] theorem writeReg_response (s : State) (r : RecReg) (v : Word) : (writeReg s r v).response = s.response := by cases r <;> rfl
@[simp] theorem writeReg_port (s : State) (r : RecReg) (v : Word) : (writeReg s r v).port = s.port := by cases r <;> rfl

theorem writeReg_scalar (s : State) (f : ScalarReg) (v : Word) :
    writeReg s (.scalar f) v = { s with regs := s.regs.set f v } := rfl

theorem writeReg_umem (s : State) (i : Fin 92) (v : Word) :
    writeReg s (.umem i) v = { s with umem := s.umem.set i.val (v.setWidth 8) i.isLt } := rfl

theorem writeReg_fcfg (s : State) (i : Fin 32) (v : Word) :
    writeReg s (.fcfg i) v = { s with fcfg := s.fcfg.set i.val (v.setWidth 8) i.isLt } := rfl

/-! ### String registers -/

@[simp] theorem Strs.get_set_self (t : Strs) (n : StrReg) (text : Text) : (t.set n text).get n = text := by
  cases n <;> rfl

theorem Strs.get_set_of_ne (t : Strs) {n k : StrReg} (h : k ≠ n) (text : Text) : (t.set n text).get k = t.get k := by
  cases n <;> cases k <;> first | rfl | exact absurd rfl h

/-! ### The record of a state -/

@[simp] theorem State.record_regs (s : State) : s.record.regs = s.regs := rfl
@[simp] theorem State.record_umem (s : State) : s.record.umem = s.umem := rfl
@[simp] theorem State.record_fcfg (s : State) : s.record.fcfg = s.fcfg := rfl
@[simp] theorem State.record_strs (s : State) : s.record.strs = s.strs := rfl

/-! ### Statuses and codes -/

@[simp] theorem State.isFailed_iff (s : State) : s.isFailed = true ↔ s.err ≠ .none := by
  simp [State.isFailed]

@[simp] theorem State.isFailed_eq_false_iff (s : State) : s.isFailed = false ↔ s.err = .none := by
  simp [State.isFailed]

@[simp] theorem EngineError.code_ne_none (e : EngineError) : e.code ≠ .none := by cases e <;> simp [EngineError.code]

end Sys2Proof.Machine
end

