-- ==== Sys2Proof/Laws/Ops.lean ====
section
/-! SUPPORT. What each shared operation can do, said once: how a command ends, what the port offers, what the codecs' operations
answer. Later proofs cite these and do not unfold the operations. -/

namespace Sys2Proof.Machine

/-! ### How a command ends -/

@[simp] theorem CommandResult.finish_done (s : State) (v : Word) :
    (CommandResult.done s v).finish = s.respondOk v := rfl

@[simp] theorem CommandResult.finish_raised (s : State) (e : EngineError) :
    (CommandResult.raised s e).finish = s.raise e := rfl

@[simp] theorem CommandResult.ofExcept_ok {α : Type} (s : State) (x : α) (k : α → CommandResult) :
    CommandResult.ofExcept s (.ok x) k = k x := rfl

@[simp] theorem CommandResult.ofExcept_error {α : Type} (s : State) (e : EngineError) (k : α → CommandResult) :
    CommandResult.ofExcept s (.error e) k = .raised s e := rfl

/-- A computation that may raise ends a command in one of two ways. -/
theorem CommandResult.ofExcept_cases {α : Type} (s : State) (r : Except EngineError α) (k : α → CommandResult) :
    (∃ x, r = .ok x ∧ ofExcept s r k = k x) ∨ ∃ e, r = .error e ∧ ofExcept s r k = .raised s e := by
  cases r with
  | ok x => exact .inl ⟨x, rfl, rfl⟩
  | error e => exact .inr ⟨e, rfl, rfl⟩

theorem whenOperating_of_operating {s : State} (h : s.Operating) (body : CommandResult) :
    whenOperating s body = .next body.finish := by
  simp [whenOperating, State.isFailed, show s.err = .none from h]

theorem whenOperating_of_failed {s : State} (h : s.err ≠ .none) (body : CommandResult) :
    whenOperating s body = .next s.respondFailed := by
  simp [whenOperating, State.isFailed, h, refuse]

/-- All that a command that needs an operating engine can do (R168, R180). -/
theorem whenOperating_next {s t : State} {body : CommandResult} (h : whenOperating s body = .next t) :
    (s.err ≠ .none ∧ t = s.respondFailed) ∨ (s.err = .none ∧ t = body.finish) := by
  by_cases hs : s.err = .none
  · rw [whenOperating_of_operating hs] at h
    exact .inr ⟨hs, by cases h; rfl⟩
  · rw [whenOperating_of_failed hs] at h
    exact .inl ⟨hs, by cases h; rfl⟩

/-- A command always ends in a next state (R180). -/
theorem whenOperating_total (s : State) (body : CommandResult) : ∃ t, whenOperating s body = .next t := by
  by_cases hs : s.err = .none
  · exact ⟨_, whenOperating_of_operating hs body⟩
  · exact ⟨_, whenOperating_of_failed hs body⟩

/-- All that a word that is no legal command does (R60, R168). -/
theorem illegalWord_next {cmd : Command} {s t : State} (h : illegalWord cmd s = .next t) :
    (s.err ≠ .none ∧ t = s.respondFailed) ∨ (s.err = .none ∧ t = s.raise (.illegalCommand cmd)) :=
  whenOperating_next h

/-! ### The port -/

theorem takeInput_nil {s : State} (h : s.port = []) : takeInput s = .idle := by simp [takeInput, h]

theorem takeInput_reset {s : State} {strap : Mode} {image : Vector Byte 256} {rest : List HostEvent}
    (h : s.port = .reset strap image :: rest) : takeInput s = .reset (resetEngine strap image rest) := by
  simp [takeInput, h]

theorem takeInput_run {s : State} {cmd : Command} {rest : List HostEvent} {i : Instr}
    (h : s.port = .command cmd :: rest) (hd : decode cmd = .ok i) : takeInput s = .run i { s with port := rest } := by
  simp [takeInput, h, hd]

theorem takeInput_illegal {s : State} {cmd : Command} {rest : List HostEvent} {e : Illegal}
    (h : s.port = .command cmd :: rest) (hd : decode cmd = .error e) :
    takeInput s = .illegal cmd { s with port := rest } := by
  simp [takeInput, h, hd]

/-- All that the port can offer. -/
theorem takeInput_cases (s : State) :
    (s.port = [] ∧ takeInput s = .idle) ∨
    (∃ strap image rest, s.port = .reset strap image :: rest ∧ takeInput s = .reset (resetEngine strap image rest)) ∨
    (∃ cmd rest i, s.port = .command cmd :: rest ∧ decode cmd = .ok i ∧ takeInput s = .run i { s with port := rest }) ∨
    (∃ cmd rest e, s.port = .command cmd :: rest ∧ decode cmd = .error e ∧
      takeInput s = .illegal cmd { s with port := rest }) := by
  rcases hp : s.port with _ | ⟨ev, rest⟩
  · exact .inl ⟨rfl, takeInput_nil hp⟩
  · cases ev with
    | reset strap image => exact .inr (.inl ⟨strap, image, rest, rfl, takeInput_reset hp⟩)
    | command cmd =>
      cases hd : decode cmd with
      | ok i => exact .inr (.inr (.inl ⟨cmd, rest, i, rfl, hd, takeInput_run hp hd⟩))
      | error e => exact .inr (.inr (.inr ⟨cmd, rest, e, rfl, hd, takeInput_illegal hp hd⟩))

/-! ### The checksum -/

/-- The stamp never faults: it stores the checksum of the image in its last two bytes (R83). -/
theorem stamp_eq (m : Memory) : stamp m = .ok (m.putLe16 0xFE (csumCompute m), csumCompute m) := by
  have h := memWrite_two m (a := Config.csumAddr) (csumCompute m) (by decide)
  simp only [stamp, h]
  rfl

/-! ### The string codec -/

theorem checkBudget_of_le {t : Strs} (h : totalLength t ≤ 96) : checkBudget t = .ok (totalLength t) := by
  simp [checkBudget, h]

theorem checkBudget_of_gt {t : Strs} (h : 96 < totalLength t) :
    checkBudget t = .error (.stringTableOverflow (totalLength t)) := by
  simp [checkBudget, h]

/-- A blob has the emitted length (R92, R93). -/
@[simp] theorem length_blob (t : Text) (m : Mode) : (blob t m).length = emittedLen t m := by
  cases m with
  | narrow => rfl
  | wide => simp [blob, emittedLen, List.length_flatMap]; omega

/-- All that the string encoder can do (R96). -/
theorem strEncode_cases (img : Memory) (t : Text) (k : Slot) (cur : Nat) (m : Mode) :
    (cur + emittedLen t m ≤ 256 ∧ strEncode img t k cur m =
      .ok (((img.writeBytes cur (blob t m)).write (descriptorAddr k) (BitVec.ofNat 8 cur)).write (descriptorAddr k + 1)
        (BitVec.ofNat 8 (emittedLen t m)), cur + emittedLen t m)) ∨
    (256 < cur + emittedLen t m ∧ strEncode img t k cur m = .error (.boundsFault cur (emittedLen t m))) := by
  by_cases h : cur + emittedLen t m ≤ 256
  · exact .inl ⟨h, by simp only [strEncode, (insideImage_iff _ _).2 h, if_true]⟩
  · refine .inr ⟨by omega, ?_⟩
    have : insideImage cur (emittedLen t m) = false := by simpa [insideImage] using h
    simp [strEncode, this]

/-- All that the string decoder can do (R98). -/
theorem strDecode_cases (img : Memory) (offset length : Nat) (m : Mode) :
    (offset + length ≤ 256 ∧ strDecode img offset length m = .ok ((rawText img offset length m).takeWhile (· != 0))) ∨
    (256 < offset + length ∧ strDecode img offset length m = .error (.boundsFault offset length)) := by
  by_cases h : offset + length ≤ 256
  · exact .inl ⟨h, by simp only [strDecode, (insideImage_iff _ _).2 h, if_true]⟩
  · refine .inr ⟨by omega, ?_⟩
    have : insideImage offset length = false := by simpa [insideImage] using h
    simp [strDecode, this]

theorem length_rawText (img : Memory) (offset length : Nat) (m : Mode) :
    (rawText img offset length m).length = match m with | .narrow => length | .wide => (length - 2) / 2 := by
  cases m <;> simp [rawText, Memory.readBytes]

/-- What the string decoder answers is a text (R18, R99). -/
theorem strDecode_legal {img : Memory} {offset length : Nat} {m : Mode} {t : Text} (hl : length ≤ 255)
    (h : strDecode img offset length m = .ok t) : Text.legal t = true := by
  rcases strDecode_cases img offset length m with ⟨-, he⟩ | ⟨-, he⟩
  · rw [he] at h
    cases h
    have h1 : ((rawText img offset length m).takeWhile (· != 0)).length ≤ (rawText img offset length m).length :=
      (List.takeWhile_sublist _).length_le
    have h2 : (rawText img offset length m).length ≤ 255 := by
      rw [length_rawText]; cases m
      · exact hl
      · show (length - 2) / 2 ≤ 255; omega
    have h3 : ∀ c ∈ (rawText img offset length m).takeWhile (· != 0), (c != 0) = true := fun c hc =>
      List.mem_takeWhile_imp (p := fun x : Byte => x != 0) hc
    simp only [Text.legal, Bool.and_eq_true, decide_eq_true_eq, List.all_eq_true]
    exact ⟨by show _ ≤ 255; omega, h3⟩
  · rw [he] at h
    cases h

/-! ### The invariant -/

/-- The five parts of the invariant. -/
theorem State.inv_iff (s : State) :
    s.Inv ↔ s.img.wf = true ∧ s.strs.legal = true ∧ s.cursorLegal = true ∧ s.errorLegal = true ∧ s.responseLegal = true := by
  simp [State.Inv, State.inv, and_assoc]

end Sys2Proof.Machine
end

