-- ==== Sys2Proof/Laws/PerInstr.lean ====
section
/-! SUPPORT. A law of every command, one lemma per constructor: its encoding carries the opcode of its row (R56) and leaves every
reserved bit of its format zero (R55, R58). -/

namespace Sys2Proof.Laws.EncodesRow

/-- The encoding has the row's opcode and no reserved bit set. -/
def Statement (i : Instr) : Prop :=
  opField (encode i) = i.opcode.code ∧ reservedClear i.opcode.format (encode i) = true

/-- The bits above a narrow operand in the data field are zero. -/
theorem extract_above {w : Nat} (v : BitVec w) (lo len : Nat) (h : w ≤ lo) :
    (v.setWidth 32).extractLsb' lo len = 0#len := by
  apply BitVec.eq_of_getLsbD_eq
  intro i hi
  have : v.getLsbD (lo + i) = false := BitVec.getLsbD_of_ge _ _ (by omega)
  simp [this]

theorem extract_bit7 (w : BitVec 7) : (w.setWidth 8).extractLsb' 7 1 = 0#1 := by
  apply BitVec.eq_of_getLsbD_eq
  intro i hi
  simp

theorem imgLdb (a : Byte) : Statement (.imgLdb a) := by
  simp [Statement, encode, Instr.opcode, Opcode.format, reservedClear]

theorem imgStb (a v : Byte) : Statement (.imgStb a v) := by
  simp [Statement, encode, Instr.opcode, Opcode.format, reservedClear, extract_above v 8 24 (by omega)]

theorem imgLdw (w : BitVec 7) : Statement (.imgLdw w) := by
  simp [Statement, encode, Instr.opcode, Opcode.format, reservedClear, extract_bit7 w]

theorem imgStw (w : BitVec 7) (v : Half) : Statement (.imgStw w v) := by
  simp [Statement, encode, Instr.opcode, Opcode.format, reservedClear, extract_bit7 w, extract_above v 16 16 (by omega)]

theorem recRd (r : RecReg) : Statement (.recRd r) := by
  simp [Statement, encode, Instr.opcode, Opcode.format, reservedClear]

theorem recWr (r : RecReg) (v : Word) : Statement (.recWr r v) := by
  simp [Statement, encode, Instr.opcode, Opcode.format, reservedClear]

theorem strClr (n : StrReg) : Statement (.strClr n) := by
  simp [Statement, encode, Instr.opcode, Opcode.format, reservedClear]

theorem strPutc (n : StrReg) (ch : Byte) : Statement (.strPutc n ch) := by
  simp [Statement, encode, Instr.opcode, Opcode.format, reservedClear, extract_above ch 8 24 (by omega)]

theorem strLen (n : StrReg) : Statement (.strLen n) := by
  simp [Statement, encode, Instr.opcode, Opcode.format, reservedClear]

theorem strGetc (n : StrReg) (idx : Byte) : Statement (.strGetc n idx) := by
  simp [Statement, encode, Instr.opcode, Opcode.format, reservedClear]

theorem csrRd (c : Csr) : Statement (.csrRd c) := by
  simp [Statement, encode, Instr.opcode, Opcode.format, reservedClear]

theorem csumCompute : Statement .csumCompute := by
  simp [Statement, encode, Instr.opcode, Opcode.format, reservedClear]

theorem csumVerify : Statement .csumVerify := by
  simp [Statement, encode, Instr.opcode, Opcode.format, reservedClear]

theorem csumStamp : Statement .csumStamp := by
  simp [Statement, encode, Instr.opcode, Opcode.format, reservedClear]

theorem strCheck : Statement .strCheck := by
  simp [Statement, encode, Instr.opcode, Opcode.format, reservedClear]

theorem strEncode (n : StrReg) (k : Slot) (cur : BitVec 9) : Statement (.strEncode n k cur) := by
  simp [Statement, encode, Instr.opcode, Opcode.format, reservedClear, extract_above cur 9 23 (by omega)]

theorem strDecode (n : StrReg) (offset length : Byte) : Statement (.strDecode n offset length) := by
  simp [Statement, encode, Instr.opcode, Opcode.format, reservedClear]

theorem fldEncode : Statement .fldEncode := by
  simp [Statement, encode, Instr.opcode, Opcode.format, reservedClear]

theorem fldDecode : Statement .fldDecode := by
  simp [Statement, encode, Instr.opcode, Opcode.format, reservedClear]

end Sys2Proof.Laws.EncodesRow
end

