-- ==== Sys2Proof/Tests/Slice0.lean ====
section
/-! SUPPORT. The model's own tests: decoding of words written out from the spec's encodings, the well-formedness smoke tests, one
or two one-step tests per command with results from spec/95_test_vectors.md and the rules' examples, and for every statement with
hypotheses a concrete case that meets them. -/

namespace Sys2Proof.Tests

open Sys2Proof.Machine Sys2Proof.Claims

/-! ### Well-formedness: what each check refuses -/

theorem test_recWr_refuses_wide_value : (Instr.recWr (.scalar .dbusDrive) 4).wellFormed = false := by decide

theorem test_strPutc_refuses_zero_character : (Instr.strPutc .manufacturer 0).wellFormed = false := by decide

theorem test_strEncode_refuses_low_cursor : (Instr.strEncode .manufacturer 0 0x09F).wellFormed = false := by decide

theorem test_strEncode_refuses_high_cursor : (Instr.strEncode .manufacturer 0 0x101).wellFormed = false := by decide

/-! ### Decoding: the words of the table of R76 -/

theorem test_decode_imgLdb : decode 0x000000000000FE01 = .ok (.imgLdb 0xFE) := by decide
theorem test_decode_imgStb : decode 0x0000002D00000902 = .ok (.imgStb 0x09 0x2D) := by decide
theorem test_decode_imgLdw : decode 0x0000000000007F03 = .ok (.imgLdw 127) := by decide
theorem test_decode_imgStw : decode 0x0000040300000104 = .ok (.imgStw 1 0x0403) := by decide
theorem test_decode_recRd : decode 0x0000000000000805 = .ok (.recRd (.scalar .usbVid)) := by decide
theorem test_decode_recWr : decode 0x0000005A00010306 = .ok (.recWr (.umem 3) 0x5A) := by decide
theorem test_decode_strClr : decode 0x0000000000000107 = .ok (.strClr .product) := by decide
theorem test_decode_strPutc : decode 0x0000005400000008 = .ok (.strPutc .manufacturer 0x54) := by decide
theorem test_decode_strLen : decode 0x0000000000000209 = .ok (.strLen .serial) := by decide
theorem test_decode_strGetc : decode 0x000000000003000A = .ok (.strGetc .manufacturer 3) := by decide
theorem test_decode_csrRd : decode 0x000000000000010B = .ok (.csrRd .err) := by decide
theorem test_decode_csumCompute : decode 0x0000000000000010 = .ok .csumCompute := by decide
theorem test_decode_csumVerify : decode 0x0000000000000011 = .ok .csumVerify := by decide
theorem test_decode_csumStamp : decode 0x0000000000000012 = .ok .csumStamp := by decide
theorem test_decode_strCheck : decode 0x0000000000000020 = .ok .strCheck := by decide
theorem test_decode_strEncode : decode 0x000000A000000021 = .ok (.strEncode .manufacturer 0 0x0A0) := by decide
theorem test_decode_strDecode : decode 0x000000000AA00022 = .ok (.strDecode .manufacturer 0xA0 10) := by decide
theorem test_decode_fldEncode : decode 0x0000000000000030 = .ok .fldEncode := by decide
theorem test_decode_fldDecode : decode 0x0000000000000031 = .ok .fldDecode := by decide

/-! Words that no step of R60 lets through (vectors A1, A5, A7, A12, A14, T18). -/

theorem test_decode_zero_word : decode 0 = .error .unassignedOpcode := by decide
theorem test_decode_reserved_d31 : decode 0x8000000000000030 = .error .reservedBits := by decide
theorem test_decode_reserved_a7 : decode 0x0000000000008003 = .error .reservedBits := by decide
theorem test_decode_fcfg_32 : decode 0x0000000000022005 = .error .illegalOperand := by decide
theorem test_decode_wide_value : decode 0x0000000400001D06 = .error .illegalOperand := by decide
theorem test_decode_reserved_d9 : decode 0x000002A000000021 = .error .reservedBits := by decide

/-! ### One step of each command -/

/-- A condition on the state after an outcome. -/
def after (o : Host.Outcome State Fault Refusal) (p : State → Bool) : Bool :=
  match o with
  | .next t => p t
  | .fault _ => false
  | .refused _ => false

/-- The state after reset in the given mode with the given image entries and manufacturer string. -/
def start (mode : Mode) (img : Memory) (text : Text) : State :=
  { State.reset with mode := mode, img := img, strs := ⟨text, [], []⟩ }

/-- The text "Test" (S5). -/
def testText : Text := [0x54, 0x65, 0x73, 0x74]

/-- The blob of "Test" in wide mode, at 0xA0 (S4, T3): the entries that are not zero. -/
def wideImage : Memory := [(0xA0, 0x0A), (0xA1, 3), (0xA2, 0x54), (0xA4, 0x65), (0xA6, 0x73), (0xA8, 0x74)]

/-- A response `(OK, v)`. -/
def isOk (v : Word) (t : State) : Bool := t.response == some ⟨.ok, v⟩

/-- A response `(FAILED, code)` with the error registers of the error. -/
def isError (e : ErrCode) (a b : Half) (t : State) : Bool :=
  t.response == some ⟨.failed, errNumber e⟩ && t.err == e && t.errA == a && t.errB == b

/-- A33 after the store: the high byte of word 127. -/
theorem test_imgLdw_little_endian :
    after (exec (.imgLdw 127) (start .narrow [(0xFF, 0xAB)] [])) (isOk 0xAB00) = true := by decide

/-- A32: the low byte of the stored word stands at the lower address. -/
theorem test_imgStw_little_endian :
    after (exec (.imgStw 1 0x0403) State.reset) (fun t => t.img == [(2, 3), (3, 4)] && isOk 0 t) = true := by decide

theorem test_imgLdb_reads : after (exec (.imgLdb 3) (start .narrow [(2, 3), (3, 4)] [])) (isOk 4) = true := by decide

/-- Storing zero keeps the canonical form. -/
theorem test_imgStb_zero_removes_entry :
    after (exec (.imgStb 2 0) (start .narrow [(2, 3), (3, 4)] [])) (fun t => t.img == [(3, 4)]) = true := by decide

theorem test_recRd_cbusMode6 :
    after (step (present { State.reset with regs := { Regs.zero with cbusMode6 := 0xC8 } } 0x2B05)) (isOk 0xC8) = true := by
  decide

/-- A28. -/
theorem test_recWr_24_bits :
    after (exec (.recWr (.scalar .i2cDeviceId) 0xFFFFFF) State.reset) (fun t => t.regs.i2cDeviceId == 0xFFFFFF && isOk 0 t)
      = true := by decide

/-- A14. -/
theorem test_recWr_too_wide :
    after (step (present State.reset 0x0000000400001D06)) (isError .illegalCommand 0x1D06 0) = true := by decide

theorem test_strClr_empties :
    after (exec (.strClr .manufacturer) (start .narrow [] testText)) (fun t => t.strs == ⟨[], [], []⟩ && isOk 0 t) = true := by
  decide

/-- P4 step 5: the fourth character. -/
theorem test_strPutc_fourth :
    after (exec (.strPutc .manufacturer 0x74) (start .narrow [] [0x54, 0x65, 0x73]))
      (fun t => t.strs.manufacturer == testText && isOk 4 t) = true := by decide

/-- A22. -/
theorem test_strPutc_full :
    after (exec (.strPutc .manufacturer 0x41) (start .narrow [] (List.replicate 255 0x78))) (isError .illegalCommand 8 0)
      = true := by decide +kernel

theorem test_strLen_four : after (exec (.strLen .manufacturer) (start .wide [] testText)) (isOk 4) = true := by decide

/-- P4 step 13. -/
theorem test_strGetc_last : after (exec (.strGetc .manufacturer 3) (start .wide [] testText)) (isOk 0x74) = true := by decide

/-- A23. -/
theorem test_strGetc_past_end :
    after (exec (.strGetc .manufacturer 1) (start .narrow [] [0x41])) (isError .illegalCommand 0x000A 1) = true := by decide

/-- A35. -/
theorem test_csrRd_cur : after (exec (.csrRd .cur) State.reset) (isOk 0xA0) = true := by decide

/-- A34: a legal CSR.RD executes in the Failed state. -/
theorem test_csrRd_failed : after (exec (.csrRd .err) (State.reset.raise (.illegalCommand 0))) (isOk 4) = true := by decide

/-- K4. -/
theorem test_csumStep_k4 : csumStep 0x5555 0x0403 = 0xA2AC := by decide

/-- K18: two flips that land on checksum bit 1 cancel. -/
theorem test_csumCompute_k18 :
    after (exec .csumCompute (start .narrow [(0, 1), (2, 2)] [])) (fun t => isOk 0x5555 t && t.csum == 0x5555) = true := by
  decide +kernel

/-- K24. -/
theorem test_csumVerify_stamped :
    after (exec .csumVerify (start .narrow [(0xFE, 0x55), (0xFF, 0x55)] [])) (isOk 0x5555) = true := by decide +kernel

/-- K26: the computed checksum in `ERR_A`, the stored one in `ERR_B`. -/
theorem test_csumVerify_mismatch :
    after (exec .csumVerify (start .narrow [(0, 1), (0xFE, 0x55), (0xFF, 0x55)] []))
      (fun t => isError .checksumMismatch 0x5557 0x5555 t && t.csum == 0x5557) = true := by decide +kernel

/-- K17 stamped. -/
theorem test_csumStamp_k17 :
    after (exec .csumStamp (start .narrow [(2, 3), (3, 4)] []))
      (fun t => t.img == [(2, 3), (3, 4), (0xFE, 0x56), (0xFF, 0x51)] && isOk 0x5156 t) = true := by decide +kernel

/-- T43. -/
theorem test_strCheck_96 :
    after (exec .strCheck (start .wide [] (List.replicate 96 0x41))) (isOk 96) = true := by decide +kernel

/-- T44. -/
theorem test_strCheck_97 :
    after (exec .strCheck (start .narrow [] (List.replicate 97 0x41))) (isError .stringTableOverflow 97 96) = true := by
  decide +kernel

/-- T10. -/
theorem test_strEncode_wide :
    after (exec (.strEncode .manufacturer 0 0x0A0) (start .wide [] testText))
      (fun t => t.img == (0x0E, 0xA0) :: (0x0F, 0x0A) :: wideImage && t.cur == 0x0AA && isOk 0x000A0AA0 t) = true := by decide

/-- T12. -/
theorem test_strEncode_bounds :
    after (exec (.strEncode .product 2 0x100) (start .wide [] [])) (isError .boundsFault 0x100 2) = true := by decide

/-- T21. -/
theorem test_strDecode_wide :
    after (exec (.strDecode .product 0xA0 10) (start .wide wideImage [])) (fun t => t.strs.product == testText && isOk 4 t)
      = true := by decide

/-- T30. -/
theorem test_strDecode_bounds :
    after (exec (.strDecode .manufacturer 0xA0 97) (start .wide wideImage [])) (isError .boundsFault 0xA0 0x61) = true := by
  decide

/-- P1 in wide mode: the image of the empty record. -/
theorem test_fldEncode_wide_empty :
    after (exec .fldEncode (start .wide [(1, 0xEE)] []))
      (fun t => t.img == [(0x08, 0x80), (0x0E, 0xA0), (0x0F, 2), (0x10, 0xA2), (0x11, 2), (0x12, 0xA4), (0x13, 2), (0xA0, 2),
        (0xA1, 3), (0xA2, 2), (0xA3, 3), (0xA4, 2), (0xA5, 3), (0xFE, 0x69), (0xFF, 0xF4)] && t.cur == 0x0A6 &&
        isOk 0xF469 t) = true := by decide +kernel

/-- P6: 46 characters in wide mode pass the budget and do not fit. -/
theorem test_fldEncode_misfit :
    after (exec .fldEncode (start .wide [] (List.replicate 46 0x41))) (isError .boundsFault 0x100 2) = true := by decide +kernel

/-- F44: a descriptor into the header. -/
theorem test_fldDecode_header_string :
    after (exec .fldDecode (start .narrow [(0x02, 0x41), (0x03, 0x42), (0x04, 0x43), (0x05, 0x44), (0x0E, 2), (0x0F, 4)] []))
      (fun t => t.strs.manufacturer == [0x41, 0x42, 0x43, 0x44] && t.regs.usbVid == 0x4241 && t.regs.usbPid == 0x4443 &&
        isOk 0 t) = true := by decide +kernel

/-- F43: a descriptor out of the image. -/
theorem test_fldDecode_bounds :
    after (exec .fldDecode (start .narrow [(0x10, 0xFF), (0x11, 2)] [])) (isError .boundsFault 0xFF 2) = true := by decide

/-- P7 step 9: everything but CSR.RD is refused after an error. -/
theorem test_failed_engine_refuses :
    after (step (present (State.reset.raise (.checksumMismatch 0x5555 0)) 0x11))
      (fun t => isError .checksumMismatch 0x5555 0 t) = true := by decide

/-- R183: a reset event brings its image and strap. -/
theorem test_reset_event :
    after (step { State.reset.raise (.illegalCommand 0) with port := [.reset .wide (Vector.replicate 256 0xA5)] })
      (fun t => t.err == .none && t.mode == .wide && t.img.read 0xFF == 0xA5 && t.port == []) = true := by decide +kernel

/-- Decoding a table word and running it as the first command after reset. -/
theorem test_table_word_runs :
    decodeTableWord 64 0x0000040300000104 = some (.imgStw 1 0x0403) ∧
      after (step (State.reset.withFetchWord 64 0x0000040300000104)) (isOk 0) = true := by decide

/-! ### For every statement with hypotheses, cases that meet them: each clause, at the boundary of its range -/

theorem next_of_after {o : Host.Outcome State Fault Refusal} {p : State → Bool} (h : after o p = true) :
    ∃ t, o = .next t ∧ p t = true := by
  cases o with
  | next t => exact ⟨t, rfl, h⟩
  | fault f => cases f
  | refused r => cases h

/-- The engine after reset, with a BoundsFault recorded. -/
def failedState : State := State.reset.raise (.boundsFault 256 1)

/-- A text of `n` times the character "A". -/
def run (n : Nat) : Text := List.replicate n 0x41

theorem witness_DecodeOfEncode : (Instr.recWr (.scalar .dbusDrive) 3).wellFormed = true ∧
    (Instr.strEncode .serial 2 0x100).wellFormed = true := by decide

theorem witness_EncodeOfDecode : decode 0x0000010000020221 = .ok (.strEncode .serial 2 0x100) := by decide

theorem witness_LegalWord_cursor : LegalWord 0x0000010000020221 ∧ ¬LegalWord 0x0000010100020221 := by
  constructor <;> simp [LegalWord, legalRN]

theorem witness_LegalWord_value : LegalWord 0x0000000300001D06 ∧ ¬LegalWord 0x0000000400001D06 := by
  constructor <;> simp [LegalWord, legalRN, widthRN]

theorem witness_LegalCsrRead : LegalCsrRead 0x050B ∧ ¬LegalCsrRead 0x060B := by
  constructor <;> simp [LegalCsrRead]

/-- The four clauses: Failed or operating, on either kind of word. -/
theorem witness_StepChecksCommandInOrder :
    failedState.err ≠ .none ∧ (present failedState 0x060B).port = .command 0x060B :: [] ∧
      (present failedState 0x050B).port = .command 0x050B :: [] ∧ State.reset.err = .none ∧
      (present State.reset 0x0000010100020221).port = .command 0x0000010100020221 :: [] ∧
      (present State.reset 0x0000010000020221).port = .command 0x0000010000020221 :: [] := by decide

theorem witness_StepRunsDecodedCommand :
    (present State.reset 0xFE01).port = .command 0xFE01 :: [] ∧ decode 0xFE01 = .ok (.imgLdb 0xFE) := by decide

theorem witness_IdleStepHoldsState : State.reset.port = [] := rfl

theorem witness_ResetEventLeavesResetValues :
    { failedState with port := [.reset .wide (Vector.replicate 256 0xA5)] }.port
      = .reset .wide (Vector.replicate 256 0xA5) :: [] := rfl

theorem witness_StepKeepsInvariant :
    State.Inv (present State.reset 0x31) ∧ ∃ t, step (present State.reset 0x31) = .next t ∧ (t.err == .none) = true :=
  ⟨by decide +kernel, next_of_after (by decide +kernel)⟩

theorem witness_StepKeepsInvariant_failed :
    State.Inv (present failedState 0x11) ∧ ∃ t, step (present failedState 0x11) = .next t ∧ (t.err == .boundsFault) = true :=
  ⟨by decide +kernel, next_of_after (by decide +kernel)⟩

theorem witness_FailedRunsStayFrozen :
    (present failedState 0x11).err ≠ .none ∧ noReset (present failedState 0x11).port = true ∧
      ∃ t, core.run 2 (present failedState 0x11) = .next t := ⟨by decide, by decide, _, rfl⟩

theorem witness_FailedStateRefusesAllButCsrRead :
    failedState.err ≠ .none ∧ (Instr.csrRd .cur = .csrRd .cur) ∧ ∀ c, Instr.csumVerify ≠ .csrRd c := by
  refine ⟨by decide, rfl, fun c => ?_⟩
  simp

theorem witness_ModeHoldsUntilReset :
    (∃ t, exec .strCheck State.reset = .next t) ∧ noReset (present State.reset 0x20).port = true ∧
      ∃ t, core.run 1 (present State.reset 0x20) = .next t := ⟨⟨_, rfl⟩, by decide, _, rfl⟩

/-- CSUM.VERIFY and another command, each raising its error. -/
theorem witness_ErrorsArePrecise :
    State.reset.Operating ∧ (∃ t, exec .csumVerify State.reset = .next t ∧ (t.err != .none) = true) ∧
      ∃ t, exec (.strGetc .product 0) State.reset = .next t ∧ (t.err != .none) = true :=
  ⟨rfl, next_of_after (by decide +kernel), next_of_after (by decide +kernel)⟩

/-- A cause and none: 97 and 96 characters. -/
theorem witness_ErrorCausesAreExactlyTheTable :
    cause .strCheck (start .narrow [] (run 97)) = some (.stringTableOverflow, 97, 96) ∧
      cause .strCheck (start .narrow [] (run 96)) = none ∧ Instr.strCheck.wellFormed = true ∧
      (start .narrow [] (run 97)).Operating ∧ ∃ t, exec .strCheck (start .narrow [] (run 97)) = .next t :=
  ⟨by decide +kernel, by decide +kernel, rfl, rfl, _, rfl⟩

theorem witness_FirstErrorIsKept : failedState.err ≠ .none ∧ ∃ t, exec .csumVerify failedState = .next t :=
  ⟨by decide, _, rfl⟩

/-- Every statement that asks for an operating engine. -/
theorem witness_operating : State.reset.Operating := rfl

/-- The illegal operands and words of the access and string families, each at its first illegal value. -/
theorem witness_illegal_operands :
    256 ≤ (0x100 : Word).toNat ∧ 128 ≤ (0x80 : Byte).toNat ∧ 65536 ≤ (0x10000 : Word).toNat ∧ 3 ≤ (3 : Byte).toNat ∧
      5 < (6 : Byte).toNat ∧ (5 : Byte).toNat ≤ 5 ∧ (0x09F : Word).toNat < 0x0A0 ∧ 0x100 < (0x101 : Word).toNat := by decide

/-- `RaisesIllegal`: an operating engine with the word at its port. -/
theorem witness_RaisesIllegal :
    (present State.reset (cmdWord 0x03 0x80 0 0 0)).Operating ∧
      (present State.reset (cmdWord 0x03 0x80 0 0 0)).port = .command (cmdWord 0x03 0x80 0 0 0) :: [] := ⟨rfl, rfl⟩

/-- The last legal register number of each bank and the first illegal one after it. -/
theorem witness_legalRN :
    legalRN 0x02B ∧ ¬legalRN 0x02C ∧ legalRN 0x100 ∧ legalRN 0x15B ∧ ¬legalRN 0x15C ∧ legalRN 0x200 ∧ legalRN 0x21F ∧
      ¬legalRN 0x220 := by
  simp [legalRN]

/-- The widest value that fits, and the first that does not. -/
theorem witness_RecWrWritesNumberedRegister :
    (0xFFFFFF : Word).toNat < 2 ^ widthRN (RecReg.scalar .i2cDeviceId).number.toNat ∧
      2 ^ widthRN (RecReg.scalar .i2cDeviceId).number.toNat ≤ (0x1000000 : Word).toNat ∧
      (0x02C : Nat) ≠ (RecReg.scalar .i2cDeviceId).number.toNat := by decide

theorem witness_StrClrEmptiesRegister : StrReg.serial ≠ .product := by decide

/-- One below the capacity, and full. -/
theorem witness_StrPutcAppendsCharacter :
    (0x41 : Byte) ≠ 0 ∧ ((start .narrow [] (run 254)).strs.get .manufacturer).length < 255 ∧
      ((start .narrow [] (run 255)).strs.get .manufacturer).length = 255 := by decide +kernel

/-- The last index and the first past the end. -/
theorem witness_StrGetcReadsCharacter :
    (3 : Byte).toNat < ((start .narrow [] testText).strs.get .manufacturer).length ∧
      ((start .narrow [] testText).strs.get .manufacturer).length ≤ (4 : Byte).toNat := by decide

/-- The Failed clause of CSR.RD. -/
theorem witness_CsrRdReadsRegister :
    failedState.err ≠ .none ∧
      (present failedState (cmdWord 0x0B 6 0 0 0)).port = .command (cmdWord 0x0B 6 0 0 0) :: [] := by decide

theorem witness_ReadOnlyCommandsChangeNothing :
    readOnly .csumCompute = true ∧ ∃ t, exec .csumCompute State.reset = .next t ∧ t.err = .none ∧
      ∃ u, exec .csumCompute t = .next u := ⟨rfl, _, rfl, rfl, _, rfl⟩

theorem witness_SingleBitFlip : (80 : Nat) < 81 ∧ (15 : Nat) < 16 := by decide

/-- Two different images that agree on the covered bytes. -/
theorem witness_ChecksumIgnoresUncoveredBytes :
    ∀ a, Covered a → Memory.read [(0x24, 1)] a = Memory.read [(0x7F, 2), (0xFE, 3)] a := by
  intro a ha
  have h1 : ¬(0x24 = a) := by rintro rfl; simp [Covered] at ha
  have h2 : ¬(0x7F = a) := by rintro rfl; simp [Covered] at ha
  have h3 : ¬(0xFE = a) := by rintro rfl; simp [Covered] at ha
  simp [Memory.read, h1, h2, h3]

/-- A stored checksum that agrees, and one that does not. -/
theorem witness_CsumVerifyComparesStored :
    csumCompute [(0xFE, 0x55), (0xFF, 0x55)] = Memory.read [(0xFE, 0x55), (0xFF, 0x55)] 0xFF ++
        Memory.read [(0xFE, 0x55), (0xFF, 0x55)] 0xFE ∧
      csumCompute [] ≠ Memory.read [] 0xFF ++ Memory.read [] 0xFE := by decide +kernel

/-- The state after the stamp, with an uncovered byte changed. -/
theorem witness_StampedImageVerifies :
    ∃ t, exec .csumStamp State.reset = .next t ∧ ∃ u : State, u.Operating ∧ u.img ≠ t.img ∧
      ∀ a, Covered a ∨ a = 0xFE ∨ a = 0xFF → u.img.read a = t.img.read a := by
  obtain ⟨t, ht, hp⟩ := next_of_after (o := exec .csumStamp State.reset)
    (p := fun t => t.err == .none && t.img == [(0xFE, 0x55), (0xFF, 0x55)]) (by decide +kernel)
  simp only [Bool.and_eq_true, beq_iff_eq] at hp
  refine ⟨t, ht, { t with img := [(0x24, 1), (0xFE, 0x55), (0xFF, 0x55)] }, hp.1, by simp [hp.2], fun a ha => ?_⟩
  have h1 : ¬(0x24 = a) := by rintro rfl; simp [Covered] at ha
  simp [hp.2, Memory.read, h1]

/-- At the budget and one over it. -/
theorem witness_StrCheckTestsBudget :
    characters (start .narrow [] (run 96)) ≤ 96 ∧ 96 < characters (start .narrow [] (run 97)) := by decide +kernel

/-- A blob that ends at the end of the image, and one that ends one byte past it. -/
theorem witness_StrEncodeLaysBlobAndDescriptor :
    0x0A0 ≤ (0x100 - 10 : BitVec 9).toNat ∧ (0x100 : BitVec 9).toNat ≤ 0x100 ∧
      (0x100 - 10 : BitVec 9).toNat + emitted (start .wide [] testText) .manufacturer ≤ 256 ∧
      256 < (0x100 - 9 : BitVec 9).toNat + emitted (start .wide [] testText) .manufacturer := by decide

/-- A range that ends at the end of the image, and one that ends one byte past it. -/
theorem witness_StrDecodeReadsBlob :
    (0xA0 : Byte).toNat + (96 : Byte).toNat ≤ 256 ∧ 256 < (0xA0 : Byte).toNat + (97 : Byte).toNat := by decide

theorem witness_EncodedStringDecodesToItself :
    (∀ ch ∈ testText, ch ≠ 0) ∧ 0xA0 ≤ 246 ∧ 246 + emittedLen testText .wide ≤ 256 := by decide

theorem witness_BitPrimitivesObeyTheirLaws : (255 : Nat) < 256 ∧ (7 : Nat) < 8 ∧ 0 + 8 ≤ 8 ∧ ((255 : Nat) ≠ 254 ∨ (7 : Nat) ≠ 7) := by
  decide

theorem witness_IntegerPrimitivesObeyTheirLaws : 0xFE + 2 ≤ 256 ∧ 0xFD + 3 ≤ 256 := by decide

/-- Exactly full: 96 characters in narrow mode. -/
theorem witness_FldEncodeWritesEveryField :
    characters (start .narrow [] (run 96)) ≤ 96 ∧ emittedTotal (start .narrow [] (run 96)) ≤ 96 := by decide +kernel

/-- Over the budget, and within it but too long in wide mode. -/
theorem witness_FldEncodeRefusesOverlongStrings :
    96 < characters (start .wide [] (run 97)) ∧ characters (start .wide [] (run 46)) ≤ 96 ∧
      96 < emittedTotal (start .wide [] (run 46)) := by decide +kernel

/-- No descriptor out of the image, the first at its very end; and one out by a byte. -/
theorem witness_FldDecodeReadsEveryField :
    (∀ k, k < 3 → ¬outside (descriptor [(0x0E, 0xFF), (0x0F, 1)] k)) ∧
      outside (descriptor [(0x12, 0xFF), (0x13, 2)] 2) := by
  unfold outside
  decide

/-- 0xA0 + 94 characters: the blobs end where the checksum begins. -/
theorem witness_RecordRoundTrip :
    (start .narrow [] (run 94)).Operating ∧ (start .narrow [] (run 94)).strs.legal = true ∧
      characters (start .narrow [] (run 94)) ≤ 96 ∧ 0xA0 + emittedTotal (start .narrow [] (run 94)) ≤ 0xFE := by
  decide +kernel

/-- Another placement than the spec's, with an image it makes. -/
theorem witness_RoundTripForEveryLayout :
    (⟨0, 1, 7, 6, 5, 4, 3, 2, 0x06⟩ : Config.Layout).valid = true ∧ State.reset.record.strs.legal = true ∧
      (match encodeImage ⟨0, 1, 7, 6, 5, 4, 3, 2, 0x06⟩ State.reset.record .wide with
        | .ok (_, cur, _) => decide (cur ≤ 0xFE)
        | .error _ => false) = true := by decide +kernel

theorem witness_EncodedImageIsFixedPoint :
    ∃ t, exec .fldEncode (start .wide [] testText) = .next t ∧
      after (exec .fldDecode t) (fun u => u.err == .none) = true := by
  obtain ⟨t, ht, hp⟩ := next_of_after (o := exec .fldEncode (start .wide [] testText))
    (p := fun t => after (exec .fldDecode t) fun u => u.err == .none) (by decide +kernel)
  exact ⟨t, ht, hp⟩

/-- FLD.ENCODE that completes: also for EncodedImageVerifies. -/
theorem witness_EncodedImageInvariants :
    ∃ t, exec .fldEncode (start .wide [] testText) = .next t ∧ (t.err == .none) = true :=
  next_of_after (by decide +kernel)

/-- 45, 46 and 96 characters in wide mode. -/
theorem witness_EncodeBoundsFaultsExactlyInWideMode :
    (∃ t, exec .fldEncode (start .wide [] (run 45)) = .next t ∧ (t.err == .none) = true) ∧
      (∃ t, exec .fldEncode (start .wide [] (run 46)) = .next t ∧ (t.err == .boundsFault) = true) ∧
      ∃ t, exec .fldEncode (start .wide [] (run 96)) = .next t ∧ (t.err == .boundsFault) = true :=
  ⟨next_of_after (by decide +kernel), next_of_after (by decide +kernel), next_of_after (by decide +kernel)⟩

/-- Two engines with one record and different images. -/
theorem witness_EncodeIgnoresOldImage :
    (start .wide [(1, 0xEE)] testText).record = (start .wide [] testText).record ∧
      (start .wide [(1, 0xEE)] testText).mode = (start .wide [] testText).mode ∧
      ∃ t, exec .fldEncode (start .wide [(1, 0xEE)] testText) = .next t ∧ (t.err == .none) = true :=
  ⟨rfl, rfl, next_of_after (by decide +kernel)⟩

/-- Two images that differ in unassigned bytes, in unassigned bits of bytes 0x08 and 0x0A, and in the checksum. -/
theorem witness_DecodeIgnoresUnassignedBits :
    (∀ a, a ∉ [0x01, 0x08, 0x0A, 0x0D, 0x19, 0x21, 0x22, 0x23, 0xFE, 0xFF] →
      Memory.read [(0x01, 1), (0x08, 0x9F), (0x0A, 0x03), (0xFE, 9)] a = Memory.read [] a) ∧
    (∀ p, p = 5 ∨ p = 6 → (Memory.read [(0x01, 1), (0x08, 0x9F), (0x0A, 0x03), (0xFE, 9)] 0x08).getLsbD p
      = (Memory.read [] 0x08).getLsbD p) ∧
    (∀ p, 2 ≤ p → (Memory.read [(0x01, 1), (0x08, 0x9F), (0x0A, 0x03), (0xFE, 9)] 0x0A).getLsbD p
      = (Memory.read [] 0x0A).getLsbD p) ∧
    ∃ t, exec .fldDecode (start .narrow [(0x01, 1), (0x08, 0x9F), (0x0A, 0x03), (0xFE, 9)] []) = .next t ∧
      (t.err == .none) = true := by
  refine ⟨fun a ha => ?_, ?_, fun p hp => ?_, next_of_after (by decide +kernel)⟩
  · simp only [List.mem_cons, List.not_mem_nil, or_false, not_or] at ha
    simp [Memory.read, Ne.symm ha.1, Ne.symm ha.2.1, Ne.symm ha.2.2.1, Ne.symm ha.2.2.2.2.2.2.2.2.1]
  · rintro p (rfl | rfl) <;> decide
  · rcases Nat.lt_or_ge p 8 with h | h
    · have : p = 2 ∨ p = 3 ∨ p = 4 ∨ p = 5 ∨ p = 6 ∨ p = 7 := by omega
      rcases this with rfl | rfl | rfl | rfl | rfl | rfl <;> decide
    · rw [BitVec.getLsbD_of_ge _ _ h, BitVec.getLsbD_of_ge _ _ h]

end Sys2Proof.Tests
end

section
/-! PROOFS of the statements on the state (family 10): reset, the invariant and `MODE`. The first parts are facts about the model
that are said once: the register files, the texts, the codecs, how a command ends (`CommandOutcome`) and what a step can do
(`step_cases`). The invariant and the mode are then read off the outcomes. -/

namespace Sys2Proof.Machine

/-! ### The registers and strings after reset (R32) -/

@[simp] theorem Regs.get_zero (f : ScalarReg) : Regs.zero.get f = 0 := by cases f <;> rfl

@[simp] theorem Strs.get_empty (n : StrReg) : (Strs.mk [] [] []).get n = [] := by cases n <;> rfl

theorem readReg_reset (r : RecReg) : readReg State.reset r = 0 := by
  cases r with
  | scalar f => exact Regs.get_zero f
  | umem i => simp [readReg, State.reset, Vector.get_replicate]
  | fcfg i => simp [readReg, State.reset, Vector.get_replicate]

/-! ### Texts and their lengths (R18, R92, R94) -/

theorem Text.legal_iff (t : Text) : Text.legal t = true ↔ t.length ≤ 255 ∧ ∀ c ∈ t, c ≠ 0 := by
  simp [Text.legal]

theorem Text.legal_append_char {t : Text} {ch : Byte} (ht : Text.legal t = true) (hl : t.length < 255)
    (hch : legalChar ch = true) : Text.legal (t ++ [ch]) = true := by
  obtain ⟨-, hz⟩ := (Text.legal_iff t).1 ht
  have hne : ch ≠ 0 := by simpa [legalChar] using hch
  refine (Text.legal_iff _).2 ⟨by rw [List.length_append, List.length_singleton]; omega, fun c hc => ?_⟩
  rcases List.mem_append.1 hc with hc | hc
  · exact hz c hc
  · exact List.mem_singleton.1 hc ▸ hne

theorem Strs.legal_iff (t : Strs) : t.legal = true ↔ ∀ n, Text.legal (t.get n) = true := by
  simp only [Strs.legal, Bool.and_eq_true]
  constructor
  · rintro ⟨⟨hm, hp⟩, hs⟩ n
    cases n
    · exact hm
    · exact hp
    · exact hs
  · exact fun h => ⟨⟨h .manufacturer, h .product⟩, h .serial⟩

theorem Strs.legal_set {t : Strs} (n : StrReg) {text : Text} (ht : t.legal = true) (hx : Text.legal text = true) :
    (t.set n text).legal = true := by
  refine (Strs.legal_iff _).2 fun k => ?_
  by_cases hk : k = n
  · rw [hk, Strs.get_set_self]; exact hx
  · rw [Strs.get_set_of_ne t hk]; exact (Strs.legal_iff t).1 ht k

theorem Strs.length_get_le {t : Strs} (n : StrReg) (ht : t.legal = true) : (t.get n).length ≤ 255 :=
  ((Text.legal_iff _).1 ((Strs.legal_iff t).1 ht n)).1

theorem totalLength_le {t : Strs} (ht : t.legal = true) : totalLength t ≤ 765 := by
  have hm : t.manufacturer.length ≤ 255 := Strs.length_get_le .manufacturer ht
  have hp : t.product.length ≤ 255 := Strs.length_get_le .product ht
  have hs : t.serial.length ≤ 255 := Strs.length_get_le .serial ht
  unfold totalLength
  omega

theorem emittedLen_le {t : Text} (m : Mode) (ht : t.length ≤ 255) : emittedLen t m ≤ 512 := by
  cases m with
  | narrow => exact Nat.le_trans ht (by omega)
  | wide => simp only [emittedLen]; omega

/-! ### Errors that the registers can hold -/

/-- A bounds fault whose first address and length fit the error registers and whose range leaves the image (R25, R26, R39). -/
def EngineError.LeavesImage : EngineError → Prop
  | .boundsFault a n => a ≤ 256 ∧ n ≤ 512 ∧ 256 < a + n
  | .checksumMismatch _ _ => False
  | .stringTableOverflow _ => False
  | .illegalCommand _ => False

/-- The information words of the error say what holds in the state it is raised in (R162): the counterpart, before the words are
cut to 16 bits, of what `State.errorLegal` says of the error registers (`State.errorLegal_raise`). -/
def EngineError.Legal (s : State) : EngineError → Prop
  | .checksumMismatch c d => c ≠ d ∧ s.csum = c ∧ csumCompute s.img = c ∧ s.img.getLe16 Config.csumAddr = d
  | .stringTableOverflow total => 96 < total ∧ total ≤ 765 ∧ totalLength s.strs = total
  | .boundsFault a n => (EngineError.boundsFault a n).LeavesImage
  | .illegalCommand _ => True

theorem EngineError.LeavesImage.legal {e : EngineError} (h : e.LeavesImage) (s : State) : e.Legal s := by
  cases e with
  | boundsFault a n => exact h
  | checksumMismatch c d => exact h.elim
  | stringTableOverflow total => exact h.elim
  | illegalCommand cmd => exact trivial

theorem State.errorLegal_raise {s : State} {e : EngineError} (h : e.Legal s) : (s.raise e).errorLegal = true := by
  cases e with
  | checksumMismatch c d =>
    obtain ⟨hne, hcsum, hcomputed, hstored⟩ := h
    simp [State.errorLegal, EngineError.code, EngineError.infoA, EngineError.infoB, hne, hcsum, hcomputed, hstored]
  | stringTableOverflow total =>
    obtain ⟨hlo, hhi, htotal⟩ := h
    have hmod : total % 65536 = total := by omega
    have hmin : 97 ≤ total := hlo
    simp [State.errorLegal, EngineError.code, EngineError.infoA, EngineError.infoB, hmod, htotal, hhi, hmin]
  | boundsFault a n =>
    obtain ⟨ha, hn, hout⟩ := h
    have hamod : a % 65536 = a := by omega
    have hnmod : n % 65536 = n := by omega
    have hpos : 1 ≤ n := by omega
    simp [State.errorLegal, EngineError.code, EngineError.infoA, EngineError.infoB, hamod, hnmod, ha, hn, hout, hpos]
  | illegalCommand cmd => rfl

/-! ### Computations that may raise -/

theorem bind_eq_ok_iff {α β : Type} {x : Except EngineError α} {f : α → Except EngineError β} {b : β} :
    x >>= f = .ok b ↔ ∃ a, x = .ok a ∧ f a = .ok b := by
  cases x <;> simp [bind, Except.bind]

theorem bind_eq_error_iff {α β : Type} {x : Except EngineError α} {f : α → Except EngineError β} {e : EngineError} :
    x >>= f = .error e ↔ x = .error e ∨ ∃ a, x = .ok a ∧ f a = .error e := by
  cases x <;> simp [bind, Except.bind]

/-! ### The string codec keeps the image, the cursor and the texts in range -/

theorem strEncode_ok {img img' : Memory} {t : Text} {k : Slot} {cur next : Nat} {m : Mode}
    (h : strEncode img t k cur m = .ok (img', next)) :
    (img.wf = true → img'.wf = true) ∧ cur ≤ next ∧ next ≤ 256 := by
  rcases strEncode_cases img t k cur m with ⟨hfit, he⟩ | ⟨-, he⟩
  · rw [he] at h
    cases h
    exact ⟨fun hw => Memory.wf_write _ _ (Memory.wf_write _ _ (Memory.wf_writeBytes _ _ hw)), by omega, hfit⟩
  · rw [he] at h
    cases h

theorem strEncode_error {img : Memory} {t : Text} {k : Slot} {cur : Nat} {m : Mode} {e : EngineError}
    (ht : t.length ≤ 255) (hc : cur ≤ 256) (h : strEncode img t k cur m = .error e) : e.LeavesImage := by
  rcases strEncode_cases img t k cur m with ⟨-, he⟩ | ⟨hout, he⟩
  · rw [he] at h
    cases h
  · rw [he] at h
    cases h
    exact ⟨hc, emittedLen_le m ht, hout⟩

theorem strDecode_error {img : Memory} {offset length : Byte} {m : Mode} {e : EngineError}
    (h : strDecode img offset.toNat length.toNat m = .error e) : e.LeavesImage := by
  rcases strDecode_cases img offset.toNat length.toNat m with ⟨-, he⟩ | ⟨hout, he⟩
  · rw [he] at h
    cases h
  · rw [he] at h
    cases h
    exact ⟨by omega, by omega, hout⟩

theorem checkBudget_error {s : State} {e : EngineError} (hs : s.strs.legal = true) (h : checkBudget s.strs = .error e) :
    e.Legal s := by
  by_cases hle : totalLength s.strs ≤ 96
  · rw [checkBudget_of_le hle] at h
    cases h
  · rw [checkBudget_of_gt (by omega)] at h
    cases h
    exact ⟨by omega, totalLength_le hs, rfl⟩

/-! ### The field codec keeps the image, the cursor and the texts in range -/

theorem wf_putHeader {m : Memory} (l : Config.Layout) (r : Regs) (h : m.wf = true) : (putHeader l r m).wf = true := by
  have hmisc := Memory.wf_write 0x00 (miscFlags r) h
  have hids := Memory.wf_putLe16 0x04 r.usbPid (Memory.wf_putLe16 0x02 r.usbVid hmisc)
  have hrelease := Memory.wf_write l.releaseMajorAt r.usbReleaseMajor (Memory.wf_write l.releaseMinorAt r.usbReleaseMinor hids)
  have hpower := Memory.wf_write 0x09 r.maxPower (Memory.wf_write 0x08 (powerFlags l r) hrelease)
  exact Memory.wf_write _ _ (Memory.wf_write _ _ (Memory.wf_write _ _ hpower))

theorem wf_putPeripherals {m : Memory} (r : Regs) (h : m.wf = true) : (putPeripherals r m).wf = true :=
  Memory.wf_writeBytes _ _ (Memory.wf_putLe24 _ _ (Memory.wf_putLe16 _ _ h))

theorem wf_putRegions {m : Memory} (umem : Vector Byte 92) (fcfg : Vector Byte 32) (h : m.wf = true) :
    (putRegions umem fcfg m).wf = true :=
  Memory.wf_writeBytes _ _ (Memory.wf_writeBytes _ _ h)

theorem wf_zeroFilled : Memory.zeroFilled.wf = true := Memory.wf_writeBytes _ _ rfl

theorem putStrings_ok {m m' : Memory} {t : Strs} {mode : Mode} {cur : Nat}
    (h : putStrings m t mode = .ok (m', cur)) : (m.wf = true → m'.wf = true) ∧ 0xA0 ≤ cur ∧ cur ≤ 256 := by
  obtain ⟨⟨m₁, c₁⟩, hfirst, h⟩ := bind_eq_ok_iff.1 h
  obtain ⟨⟨m₂, c₂⟩, hsecond, hthird⟩ := bind_eq_ok_iff.1 h
  obtain ⟨hwf₁, hle₁, -⟩ := strEncode_ok hfirst
  obtain ⟨hwf₂, hle₂, -⟩ := strEncode_ok hsecond
  obtain ⟨hwf₃, hle₃, hmax⟩ := strEncode_ok hthird
  exact ⟨fun hw => hwf₃ (hwf₂ (hwf₁ hw)), Nat.le_trans hle₁ (Nat.le_trans hle₂ hle₃), hmax⟩

theorem putStrings_error {m : Memory} {t : Strs} {mode : Mode} {e : EngineError} (ht : t.legal = true)
    (h : putStrings m t mode = .error e) : e.LeavesImage := by
  rcases bind_eq_error_iff.1 h with hfirst | ⟨⟨m₁, c₁⟩, hfirst, h⟩
  · exact strEncode_error (Strs.length_get_le .manufacturer ht) (by decide) hfirst
  obtain ⟨-, -, hc₁⟩ := strEncode_ok hfirst
  rcases bind_eq_error_iff.1 h with hsecond | ⟨⟨m₂, c₂⟩, hsecond, hthird⟩
  · exact strEncode_error (Strs.length_get_le .product ht) hc₁ hsecond
  obtain ⟨-, -, hc₂⟩ := strEncode_ok hsecond
  exact strEncode_error (Strs.length_get_le .serial ht) hc₂ hthird

/-- A completed encoding: a canonical image, and a final cursor in the range of `CUR` (R28, R131). -/
theorem encodeImage_ok {l : Config.Layout} {r : Record} {mode : Mode} {m : Memory} {cur : Nat} {c : Half}
    (h : encodeImage l r mode = .ok (m, cur, c)) : m.wf = true ∧ 0xA0 ≤ cur ∧ cur ≤ 256 := by
  obtain ⟨-, -, h⟩ := bind_eq_ok_iff.1 h
  obtain ⟨⟨m₁, cur₁⟩, hstrings, h⟩ := bind_eq_ok_iff.1 h
  obtain ⟨⟨m₂, c₂⟩, hstamp, h⟩ := bind_eq_ok_iff.1 h
  obtain ⟨hwf, hrange⟩ := putStrings_ok hstrings
  rw [stamp_eq] at hstamp
  cases hstamp
  cases h
  exact ⟨Memory.wf_putLe16 _ _ (wf_putRegions _ _ (wf_putPeripherals _ (hwf (wf_putHeader _ _ wf_zeroFilled)))), hrange⟩

theorem encodeImage_error {l : Config.Layout} {s : State} {mode : Mode} {e : EngineError} (hs : s.strs.legal = true)
    (h : encodeImage l s.record mode = .error e) : e.Legal s := by
  rcases bind_eq_error_iff.1 h with hbudget | ⟨-, -, h⟩
  · exact checkBudget_error hs hbudget
  rcases bind_eq_error_iff.1 h with hstrings | ⟨⟨m₁, cur₁⟩, -, h⟩
  · exact (putStrings_error hs hstrings).legal s
  rcases bind_eq_error_iff.1 h with hstamp | ⟨-, -, h⟩
  · rw [stamp_eq] at hstamp
    cases hstamp
  · cases h

theorem decodeStrings_legal {m : Memory} {mode : Mode} {t : Strs} (h : decodeStrings m mode = .ok t) :
    t.legal = true := by
  obtain ⟨t₀, hm, h⟩ := bind_eq_ok_iff.1 h
  obtain ⟨t₁, hp, h⟩ := bind_eq_ok_iff.1 h
  obtain ⟨t₂, hs, h⟩ := bind_eq_ok_iff.1 h
  cases h
  refine (Strs.legal_iff _).2 fun n => ?_
  cases n with
  | manufacturer => exact strDecode_legal (by omega) hm
  | product => exact strDecode_legal (by omega) hp
  | serial => exact strDecode_legal (by omega) hs

theorem decodeStrings_error {m : Memory} {mode : Mode} {e : EngineError} (h : decodeStrings m mode = .error e) :
    e.LeavesImage := by
  rcases bind_eq_error_iff.1 h with hm | ⟨_, _, h⟩
  · exact strDecode_error hm
  rcases bind_eq_error_iff.1 h with hp | ⟨_, _, h⟩
  · exact strDecode_error hp
  rcases bind_eq_error_iff.1 h with hs | ⟨_, _, h⟩
  · exact strDecode_error hs
  · cases h

theorem decodeRecord_legal {l : Config.Layout} {m : Memory} {mode : Mode} {r : Record}
    (h : decodeRecord l m mode = .ok r) : r.strs.legal = true := by
  obtain ⟨t, ht, h⟩ := bind_eq_ok_iff.1 h
  cases h
  exact decodeStrings_legal ht

theorem decodeRecord_error {l : Config.Layout} {m : Memory} {mode : Mode} {e : EngineError}
    (h : decodeRecord l m mode = .error e) : e.LeavesImage := by
  rcases bind_eq_error_iff.1 h with ht | ⟨_, _, h⟩
  · exact decodeStrings_error ht
  · cases h

/-! ### How a command can end -/

/-- The part of the invariant that is about the data a command may write. -/
structure State.DataLegal (s : State) : Prop where
  canonical : s.img.wf = true
  texts : s.strs.legal = true
  cursor : s.cursorLegal = true

theorem State.inv_iff_dataLegal (s : State) :
    s.Inv ↔ s.DataLegal ∧ s.errorLegal = true ∧ s.responseLegal = true := by
  rw [State.inv_iff]
  exact ⟨fun ⟨hi, ht, hc, he, hr⟩ => ⟨⟨hi, ht, hc⟩, he, hr⟩, fun ⟨⟨hi, ht, hc⟩, he, hr⟩ => ⟨hi, ht, hc, he, hr⟩⟩

theorem cursorLegal_of_cur_eq {s : State} {cur : Nat} (hcur : s.cur = BitVec.ofNat 9 cur) (hlo : 0xA0 ≤ cur)
    (hhi : cur ≤ 256) : s.cursorLegal = true := by
  have hmod : cur % 512 = cur := by omega
  simp [State.cursorLegal, hcur, hmod, hlo, hhi]

/-- The state of a result: after a completed command, or where the error is raised. -/
def CommandResult.state : CommandResult → State
  | .done u _ => u
  | .raised u _ => u

/-- What no command's own rule writes: `MODE`, the error registers and the port (R23, R166). -/
structure SameControl (s u : State) : Prop where
  mode : u.mode = s.mode
  err : u.err = s.err
  errA : u.errA = s.errA
  errB : u.errB = s.errB
  port : u.port = s.port

theorem SameControl.refl (s : State) : SameControl s s := ⟨rfl, rfl, rfl, rfl, rfl⟩

theorem SameControl.writeReg (s : State) (r : RecReg) (v : Word) : SameControl s (writeReg s r v) :=
  ⟨writeReg_mode s r v, writeReg_err s r v, writeReg_errA s r v, writeReg_errB s r v, writeReg_port s r v⟩

/-- The end of a command that began in `s`: the control state is as it was, legal data stay legal, and an error's information
words are true of where it is raised. -/
structure CommandResult.Lawful (s : State) (r : CommandResult) : Prop where
  control : SameControl s r.state
  data : s.DataLegal → r.state.DataLegal
  error : s.DataLegal → ∀ u e, r = .raised u e → e.Legal u

namespace CommandResult.Lawful

variable {s : State}

theorem done {u : State} (v : Word) (hc : SameControl s u) (hd : s.DataLegal → u.DataLegal) :
    (CommandResult.done u v).Lawful s :=
  ⟨hc, hd, nofun⟩

/-- A command that only answers a value. -/
theorem answer (s : State) (v : Word) : (CommandResult.done s v).Lawful s := done v (.refl s) id

/-- A command that writes data: any of the image, the record, the strings, `CSUM` and `CUR`. -/
theorem write {img : Memory} {regs : Regs} {umem : Vector Byte 92} {fcfg : Vector Byte 32} {strs : Strs} {csum : Half}
    {cur : BitVec 9} {v : Word}
    (hd : s.DataLegal → State.DataLegal
      { s with img := img, regs := regs, umem := umem, fcfg := fcfg, strs := strs, csum := csum, cur := cur }) :
    (CommandResult.done
      { s with img := img, regs := regs, umem := umem, fcfg := fcfg, strs := strs, csum := csum, cur := cur } v).Lawful s :=
  done v ⟨rfl, rfl, rfl, rfl, rfl⟩ hd

/-- A command that writes the image, keeping its form. -/
theorem writeImg {m : Memory} (v : Word) (hm : s.img.wf = true → m.wf = true) :
    (CommandResult.done { s with img := m } v).Lawful s :=
  write fun ⟨hi, ht, hc⟩ => ⟨hm hi, ht, hc⟩

/-- A command that replaces one string register by a text. -/
theorem writeText (n : StrReg) {text : Text} (v : Word) (hx : s.strs.legal = true → Text.legal text = true) :
    (CommandResult.done { s with strs := s.strs.set n text } v).Lawful s :=
  write fun ⟨hi, ht, hc⟩ => ⟨hi, Strs.legal_set n ht (hx ht), hc⟩

/-- A command that writes `CSUM`. -/
theorem writeCsum (c : Half) (v : Word) : (CommandResult.done { s with csum := c } v).Lawful s :=
  write fun ⟨hi, ht, hc⟩ => ⟨hi, ht, hc⟩

/-- A command that writes a record register. -/
theorem writeReg (r : RecReg) (v w : Word) : (CommandResult.done (writeReg s r v) w).Lawful s :=
  done w (.writeReg s r v) fun ⟨hi, ht, hc⟩ =>
    ⟨by rwa [writeReg_img], by rwa [writeReg_strs], by rwa [State.cursorLegal, writeReg_cur]⟩

/-- An error raised in the state before the command (R167). -/
theorem raised {e : EngineError} (he : s.DataLegal → e.Legal s) : (CommandResult.raised s e).Lawful s :=
  ⟨.refl s, id, fun hd _ _ h => by cases h; exact he hd⟩

theorem illegal (s : State) (cmd : Command) : (CommandResult.raised s (.illegalCommand cmd)).Lawful s :=
  raised fun _ => trivial

/-- A computation that may raise is lawful when its error is, and each continuation of a value is. -/
theorem ofExcept {α : Type} {x : Except EngineError α} {k : α → CommandResult}
    (hok : ∀ a, x = .ok a → (k a).Lawful s) (herr : ∀ e, x = .error e → s.DataLegal → e.Legal s) :
    (CommandResult.ofExcept s x k).Lawful s := by
  cases x with
  | ok a => exact hok a rfl
  | error e => exact raised (herr e rfl)

end CommandResult.Lawful

/-- What a command word can do to the engine that takes it: answer a value and nothing else (also in the Failed state, for
`CSR.RD`), be refused, or, while the engine operates, end lawfully (R60, R168). -/
inductive CommandOutcome (s : State) : State → Prop
  | answered (v : Word) : CommandOutcome s (s.respondOk v)
  | refused (hf : s.err ≠ .none) : CommandOutcome s s.respondFailed
  | ended (ho : s.Operating) (r : CommandResult) (hr : r.Lawful s) : CommandOutcome s r.finish

theorem whenOperating_outcome {s t : State} {body : CommandResult} (hb : body.Lawful s)
    (h : whenOperating s body = .next t) : CommandOutcome s t := by
  rcases whenOperating_next h with ⟨hf, rfl⟩ | ⟨ho, rfl⟩
  · exact .refused hf
  · exact .ended ho body hb

theorem illegalWord_outcome {cmd : Command} {s t : State} (h : illegalWord cmd s = .next t) : CommandOutcome s t :=
  whenOperating_outcome (.illegal s cmd) h

/-- `CSUM.VERIFY` writes `CSUM`, and a mismatch is one of the image as it stands (R82, R167). -/
theorem lawful_verify (s : State) (stored : Half) (hs : s.img.getLe16 Config.csumAddr = stored) :
    CommandResult.Lawful s
      (if csumCompute s.img = stored then .done { s with csum := csumCompute s.img } ((csumCompute s.img).setWidth 32)
      else .raised { s with csum := csumCompute s.img } (.checksumMismatch (csumCompute s.img) stored)) := by
  split
  · exact .writeCsum _ _
  · next hne =>
    refine ⟨⟨rfl, rfl, rfl, rfl, rfl⟩, fun ⟨hi, ht, hc⟩ => ⟨hi, ht, hc⟩, fun _ u e h => ?_⟩
    cases h
    exact ⟨hne, rfl, rfl, hs⟩

/-- Every command has one of the outcomes (R60, R168, R180). -/
theorem exec_outcome {i : Instr} {s t : State} (h : exec i s = .next t) : CommandOutcome s t := by
  cases i with
  | csrRd c => cases h; exact .answered _
  | imgLdb a => exact whenOperating_outcome (.answer s _) h
  | recRd r => exact whenOperating_outcome (.answer s _) h
  | strLen n => exact whenOperating_outcome (.answer s _) h
  | csumCompute => exact whenOperating_outcome (.writeCsum _ _) h
  | imgStb a v => exact whenOperating_outcome (.writeImg _ (Memory.wf_write _ _)) h
  | strClr n => exact whenOperating_outcome (.writeText n _ fun _ => rfl) h
  | imgLdw w =>
    refine whenOperating_outcome ?_ h
    rw [memRead_two _ (by omega)]
    exact .answer s _
  | imgStw w v =>
    refine whenOperating_outcome ?_ h
    rw [memWrite_two _ _ (by omega)]
    exact .writeImg _ (Memory.wf_putLe16 _ _)
  | csumVerify =>
    refine whenOperating_outcome ?_ h
    rw [memRead_two _ (by decide)]
    exact lawful_verify s _ (by simp)
  | csumStamp =>
    refine whenOperating_outcome ?_ h
    rw [stamp_eq]
    exact .write (hd := fun ⟨hi, ht, hc⟩ => ⟨Memory.wf_putLe16 0xFE (csumCompute s.img) hi, ht, hc⟩)
  | recWr r v =>
    refine whenOperating_outcome ?_ h
    split
    · exact .writeReg r v 0
    · exact .illegal s _
  | strPutc n ch =>
    refine whenOperating_outcome ?_ h
    dsimp only
    split
    · next hch =>
      obtain ⟨hchar, hroom⟩ : legalChar ch = true ∧ (s.strs.get n).length < 255 := by simpa using hch
      exact .writeText n _ fun ht => Text.legal_append_char ((Strs.legal_iff _).1 ht n) hroom hchar
    · exact .illegal s _
  | strGetc n idx =>
    refine whenOperating_outcome ?_ h
    split
    · exact .answer s _
    · exact .illegal s _
  | strCheck =>
    refine whenOperating_outcome (.ofExcept (fun total _ => ?_) fun e he hd => ?_) h
    · exact .answer s _
    · exact checkBudget_error hd.texts he
  | strEncode n k cur =>
    refine whenOperating_outcome ?_ h
    split
    · next hcur =>
      obtain ⟨hlo, hhi⟩ : 0xA0 ≤ cur.toNat ∧ cur.toNat ≤ 256 := by simpa [legalCursor] using hcur
      refine .ofExcept (fun ⟨m, next⟩ hx => ?_) fun e he hd => ?_
      · obtain ⟨hwf, hle, hmax⟩ := strEncode_ok hx
        exact .write (hd := fun ⟨hi, ht, _⟩ => ⟨hwf hi, ht, cursorLegal_of_cur_eq rfl (by omega) hmax⟩)
      · exact (strEncode_error (Strs.length_get_le n hd.texts) hhi he).legal s
    · exact .illegal s _
  | strDecode n offset length =>
    refine whenOperating_outcome (.ofExcept (fun text hx => ?_) fun e he _ => ?_) h
    · exact .writeText n _ fun _ => strDecode_legal (by omega) hx
    · exact (strDecode_error he).legal s
  | fldEncode =>
    refine whenOperating_outcome ?_ h
    refine .ofExcept (fun ⟨m, cur, c⟩ hx => ?_) fun e he hd => ?_
    · obtain ⟨hwf, hlo, hhi⟩ := encodeImage_ok hx
      exact .write (hd := fun ⟨_, ht, _⟩ => ⟨hwf, ht, cursorLegal_of_cur_eq rfl hlo hhi⟩)
    · exact encodeImage_error hd.texts he
  | fldDecode =>
    refine whenOperating_outcome (.ofExcept (fun r hx => ?_) fun e he _ => ?_) h
    · exact .write (hd := fun ⟨hi, _, hc⟩ => ⟨hi, decodeRecord_legal hx, hc⟩)
    · exact (decodeRecord_error he).legal s

/-! ### What an outcome keeps -/

theorem CommandResult.Lawful.finish_mode {s : State} {r : CommandResult} (hr : r.Lawful s) : r.finish.mode = s.mode := by
  cases r <;> exact hr.control.mode

theorem CommandResult.Lawful.finish_port {s : State} {r : CommandResult} (hr : r.Lawful s) : r.finish.port = s.port := by
  cases r <;> exact hr.control.port

theorem CommandOutcome.mode_eq {s t : State} (h : CommandOutcome s t) : t.mode = s.mode := by
  cases h with
  | answered v => rfl
  | refused hf => rfl
  | ended ho r hr => exact hr.finish_mode

theorem CommandOutcome.port_eq {s t : State} (h : CommandOutcome s t) : t.port = s.port := by
  cases h with
  | answered v => rfl
  | refused hf => rfl
  | ended ho r hr => exact hr.finish_port

theorem State.errorLegal_iff_of_operating {s : State} (ho : s.Operating) :
    s.errorLegal = true ↔ s.errA = 0 ∧ s.errB = 0 := by
  have herr : s.err = .none := ho
  simp [State.errorLegal, herr]

/-- An OK response is legal in every state, so only the data and the error registers matter (R61). -/
theorem State.inv_respondOk {s : State} (v : Word) (hd : s.DataLegal) (he : s.errorLegal = true) : (s.respondOk v).Inv :=
  (State.inv_iff_dataLegal _).2 ⟨⟨hd.canonical, hd.texts, hd.cursor⟩, he, rfl⟩

theorem State.inv_respondFailed {s : State} (hf : s.err ≠ .none) (hd : s.DataLegal) (he : s.errorLegal = true) :
    s.respondFailed.Inv := by
  refine (State.inv_iff_dataLegal _).2 ⟨⟨hd.canonical, hd.texts, hd.cursor⟩, he, ?_⟩
  simp [State.responseLegal, hf]

theorem State.inv_raise {s : State} {e : EngineError} (hd : s.DataLegal) (he : e.Legal s) : (s.raise e).Inv := by
  refine (State.inv_iff_dataLegal _).2 ⟨⟨hd.canonical, hd.texts, hd.cursor⟩, State.errorLegal_raise he, ?_⟩
  simp [State.responseLegal]

/-- A lawful end of a command leaves the invariant, from an operating engine that meets it. -/
theorem CommandResult.Lawful.inv_finish {s : State} {r : CommandResult} (hr : r.Lawful s) (ho : s.Operating)
    (hd : s.DataLegal) (he : s.errorLegal = true) : r.finish.Inv := by
  obtain ⟨hcontrol, hdata, herror⟩ := hr
  cases r with
  | done u v =>
    obtain ⟨hA, hB⟩ := (State.errorLegal_iff_of_operating ho).1 he
    have hou : u.Operating := hcontrol.err.trans ho
    exact State.inv_respondOk v (hdata hd)
      ((State.errorLegal_iff_of_operating hou).2 ⟨hcontrol.errA.trans hA, hcontrol.errB.trans hB⟩)
  | raised u e => exact State.inv_raise (hdata hd) (herror hd u e rfl)

theorem CommandOutcome.inv {s t : State} (h : CommandOutcome s t) (hs : s.Inv) : t.Inv := by
  obtain ⟨hd, he, -⟩ := (State.inv_iff_dataLegal s).1 hs
  cases h with
  | answered v => exact State.inv_respondOk v hd he
  | refused hf => exact State.inv_respondFailed hf hd he
  | ended ho r hr => exact hr.inv_finish ho hd he

/-! ### What a step can do -/

theorem step_of_idle {s : State} (h : s.port = []) : step s = .next s := by
  simp only [step, takeInput_nil h]

theorem step_of_reset {s : State} {strap : Mode} {image : Vector Byte 256} {rest : List HostEvent}
    (h : s.port = .reset strap image :: rest) : step s = .next (resetEngine strap image rest) := by
  simp only [step, takeInput_reset h]

theorem step_of_decode_ok {s : State} {cmd : Command} {rest : List HostEvent} {i : Instr}
    (h : s.port = .command cmd :: rest) (hd : decode cmd = .ok i) : step s = exec i { s with port := rest } := by
  simp only [step, takeInput_run h hd]

theorem step_of_decode_error {s : State} {cmd : Command} {rest : List HostEvent} {e : Illegal}
    (h : s.port = .command cmd :: rest) (hd : decode cmd = .error e) :
    step s = illegalWord cmd { s with port := rest } := by
  simp only [step, takeInput_illegal h hd]

/-- All that a step can do (R53, R172, R183): hold the state, apply a reset, or take a word with one of the outcomes. -/
theorem step_cases {s t : State} (h : step s = .next t) :
    (s.port = [] ∧ t = s) ∨
    (∃ strap image rest, s.port = .reset strap image :: rest ∧ t = resetEngine strap image rest) ∨
    (∃ cmd rest, s.port = .command cmd :: rest ∧ CommandOutcome { s with port := rest } t) := by
  rcases takeInput_cases s with ⟨hp, -⟩ | ⟨strap, image, rest, hp, -⟩ | ⟨cmd, rest, i, hp, hd, -⟩ | ⟨cmd, rest, e, hp, hd, -⟩
  · rw [step_of_idle hp] at h
    cases h
    exact .inl ⟨hp, rfl⟩
  · rw [step_of_reset hp] at h
    cases h
    exact .inr (.inl ⟨strap, image, rest, hp, rfl⟩)
  · rw [step_of_decode_ok hp hd] at h
    exact .inr (.inr ⟨cmd, rest, hp, exec_outcome h⟩)
  · rw [step_of_decode_error hp hd] at h
    exact .inr (.inr ⟨cmd, rest, hp, illegalWord_outcome h⟩)

/-- A step takes one input of the port. -/
theorem step_port {s t : State} (h : step s = .next t) : t.port = s.port.tail := by
  rcases step_cases h with ⟨hp, rfl⟩ | ⟨strap, image, rest, hp, rfl⟩ | ⟨cmd, rest, hp, ho⟩
  · rw [hp, List.tail_nil]
  · rw [hp, resetEngine_port, List.tail_cons]
  · rw [hp, ho.port_eq, List.tail_cons]

theorem inv_resetEngine (strap : Mode) (image : Vector Byte 256) (port : List HostEvent) :
    (resetEngine strap image port).Inv :=
  (State.inv_iff _).2 ⟨Memory.wf_ofBytes image, rfl, rfl, rfl, rfl⟩

/-! ### Runs without a reset -/

theorem noReset_tail {port : List HostEvent} (h : noReset port = true) : noReset port.tail = true := by
  cases port with
  | nil => rfl
  | cons ev rest => exact (Bool.and_eq_true_iff.1 h).2

theorem noReset_ne_reset_cons {port rest : List HostEvent} {strap : Mode} {image : Vector Byte 256}
    (h : noReset port = true) : port ≠ .reset strap image :: rest := by
  rintro rfl
  cases h

theorem step_mode {s t : State} (hn : noReset s.port = true) (h : step s = .next t) : t.mode = s.mode := by
  rcases step_cases h with ⟨-, rfl⟩ | ⟨strap, image, rest, hp, -⟩ | ⟨cmd, rest, -, ho⟩
  · rfl
  · exact absurd hp (noReset_ne_reset_cons hn)
  · exact ho.mode_eq

/-- A run of `k + 1` steps that ends in a state is a step and a run of `k` steps. -/
theorem run_succ {M : Host.Core} {k : Nat} {s t : M.State} (h : M.run (k + 1) s = .next t) :
    ∃ u, M.step s = .next u ∧ M.run k u = .next t := by
  unfold Host.Core.run at h
  split at h
  · next u hu => exact ⟨u, hu, h⟩
  · cases h
  · cases h

theorem run_mode {k : Nat} {s t : State} (hn : noReset s.port = true) (h : core.run k s = .next t) : t.mode = s.mode := by
  induction k generalizing s with
  | zero =>
    cases h
    rfl
  | succ k ih =>
    obtain ⟨u, hstep, hrun⟩ := run_succ h
    have hnu : noReset u.port = true := step_port hstep ▸ noReset_tail hn
    exact (ih hnu hrun).trans (step_mode hn hstep)

/-! ### The statements -/

/-- Settles O13: a step holds the state, resets it, or takes a word with an outcome, and each leaves the invariant. -/
theorem stepKeepsInvariant : Obligations.StepKeepsInvariant := by
  intro s t hs h
  rcases step_cases h with ⟨-, rfl⟩ | ⟨strap, image, rest, -, rfl⟩ | ⟨cmd, rest, -, ho⟩
  · exact hs
  · exact inv_resetEngine strap image rest
  · exact ho.inv hs

/-- Settles O10, from the fields of `resetEngine` and `Memory.read_ofBytes`. -/
theorem resetEventLeavesResetValues : Obligations.ResetEventLeavesResetValues := by
  intro s strap image rest hp
  exact ⟨resetEngine strap image rest, step_of_reset hp, Regs.get_zero, Vector.get_replicate 92 0,
    Vector.get_replicate 32 0, Strs.get_empty, fun a ha => Memory.read_ofBytes image ha, rfl, rfl, rfl, rfl, rfl, rfl⟩

/-- Settles O16: no outcome of a command writes `MODE`; over a run, by induction on the number of steps. -/
theorem modeHoldsUntilReset : Obligations.ModeHoldsUntilReset :=
  ⟨fun _ _ _ h => (exec_outcome h).mode_eq, fun _ _ _ hn h => run_mode hn h⟩

/-- Settles O11. -/
theorem resetStateHoldsResetValues : Obligations.ResetStateHoldsResetValues :=
  ⟨readReg_reset, Strs.get_empty, rfl, rfl, rfl, rfl, rfl⟩

/-- Settles O12, part by part of the invariant. -/
theorem invariantHoldsAtReset : Obligations.InvariantHoldsAtReset :=
  (State.inv_iff _).2 ⟨Memory.wf_nil, rfl, rfl, rfl, rfl⟩

end Sys2Proof.Machine
end

section
/-! PROOFS of the statements on the encoding (family 30). A word whose opcode is assigned is `packCommand o.code a b c d`, so the
facts are about packed words: which fields each format leaves zero, which numbers name an operand. From them come the two
directions of the round trip and, opcode by opcode, the agreement of the decoder with `LegalWord`. -/

namespace Sys2Proof

open Sys2Proof.Machine Sys2Proof.Claims

/-! ### The fields of a word as numbers (R54) -/

theorem toNat_opField (w : Command) : (opField w).toNat = w.toNat % 256 := by simp [opField]

theorem toNat_aField (w : Command) : (aField w).toNat = w.toNat / 2 ^ 8 % 256 := by
  simp [aField, Nat.shiftRight_eq_div_pow]

theorem toNat_bField (w : Command) : (bField w).toNat = w.toNat / 2 ^ 16 % 256 := by
  simp [bField, Nat.shiftRight_eq_div_pow]

theorem toNat_cField (w : Command) : (cField w).toNat = w.toNat / 2 ^ 24 % 256 := by
  simp [cField, Nat.shiftRight_eq_div_pow]

theorem toNat_dField (w : Command) : (dField w).toNat = w.toNat / 2 ^ 32 := by
  have hw : w.toNat / 2 ^ 32 < 2 ^ 32 := by omega
  rw [dField, BitVec.extractLsb'_toNat, Nat.shiftRight_eq_div_pow, Nat.mod_eq_of_lt hw]

theorem toNat_eq_zero_iff {n : Nat} (v : BitVec n) : v.toNat = 0 ↔ v = 0 := by
  rw [BitVec.toNat_eq]
  rfl

/-! ### Operands narrower or wider than a field (R55) -/

theorem extractLsb'_high_eq_zero_iff {n : Nat} (k m : Nat) (v : BitVec n) (h : n = k + m) :
    v.extractLsb' k m = 0 ↔ v.toNat < 2 ^ k := by
  have hv : v.toNat < 2 ^ k * 2 ^ m := by rw [← Nat.pow_add, ← h]; exact v.isLt
  rw [← BitVec.toNat_inj, BitVec.extractLsb'_toNat, Nat.shiftRight_eq_div_pow,
    Nat.mod_eq_of_lt (Nat.div_lt_of_lt_mul hv)]
  simp

theorem setWidth_extractLsb'_low {n : Nat} (k : Nat) (v : BitVec n) (h : v.toNat < 2 ^ k) :
    (v.extractLsb' 0 k).setWidth n = v := by
  apply BitVec.eq_of_toNat_eq
  simp [Nat.mod_eq_of_lt h]

theorem extractLsb'_low_setWidth {k : Nat} (n : Nat) (v : BitVec k) (h : k ≤ n) :
    (v.setWidth n).extractLsb' 0 k = v := by
  rw [← BitVec.setWidth_eq_extractLsb' h, BitVec.setWidth_setWidth_of_le v h, BitVec.setWidth_eq]

/-- A register number is its two bytes. -/
theorem append_extractLsb'_bytes (rn : BitVec 16) : rn.extractLsb' 8 8 ++ rn.extractLsb' 0 8 = rn := by
  rw [BitVec.extractLsb'_append_extractLsb'_eq_extractLsb' (by decide), BitVec.extractLsb'_eq_self]

theorem extractLsb'_low_of_eq_append {rn : BitVec 16} {a b : Byte} (h : rn = b ++ a) : rn.extractLsb' 0 8 = a :=
  h ▸ BitVec.extractLsb'_append_eq_right

theorem extractLsb'_high_of_eq_append {rn : BitVec 16} {a b : Byte} (h : rn = b ++ a) : rn.extractLsb' 8 8 = b :=
  h ▸ BitVec.extractLsb'_append_eq_left

theorem toNat_append_bytes (a b : Byte) : (b ++ a).toNat = a.toNat + 256 * b.toNat := by
  rw [BitVec.toNat_append, ← Nat.shiftLeft_add_eq_or_of_lt a.isLt, Nat.shiftLeft_eq]
  omega

/-! ### The reserved bits of each format (R55, R58) -/

section ReservedBits

variable (op a b c : Byte) (d : Word)

@[simp] theorem reservedClear_Z :
    reservedClear .Z (packCommand op a b c d) = true ↔ a = 0 ∧ b = 0 ∧ c = 0 ∧ d = 0 := by
  simp [reservedClear, and_assoc]

@[simp] theorem reservedClear_MA :
    reservedClear .MA (packCommand op a b c d) = true ↔ b = 0 ∧ c = 0 ∧ d = 0 := by
  simp [reservedClear, and_assoc]

@[simp] theorem reservedClear_MAD :
    reservedClear .MAD (packCommand op a b c d) = true ↔ b = 0 ∧ c = 0 ∧ d.toNat < 2 ^ 8 := by
  rw [← extractLsb'_high_eq_zero_iff 8 24 d rfl]
  simp [reservedClear, and_assoc]

@[simp] theorem reservedClear_MW :
    reservedClear .MW (packCommand op a b c d) = true ↔ a.toNat < 2 ^ 7 ∧ b = 0 ∧ c = 0 ∧ d = 0 := by
  rw [← extractLsb'_high_eq_zero_iff 7 1 a rfl]
  simp [reservedClear, and_assoc]

@[simp] theorem reservedClear_MWD :
    reservedClear .MWD (packCommand op a b c d) = true ↔ a.toNat < 2 ^ 7 ∧ b = 0 ∧ c = 0 ∧ d.toNat < 2 ^ 16 := by
  rw [← extractLsb'_high_eq_zero_iff 7 1 a rfl, ← extractLsb'_high_eq_zero_iff 16 16 d rfl]
  simp [reservedClear, and_assoc]

@[simp] theorem reservedClear_RG : reservedClear .RG (packCommand op a b c d) = true ↔ c = 0 ∧ d = 0 := by
  simp [reservedClear]

@[simp] theorem reservedClear_RGD : reservedClear .RGD (packCommand op a b c d) = true ↔ c = 0 := by
  simp [reservedClear]

@[simp] theorem reservedClear_S :
    reservedClear .S (packCommand op a b c d) = true ↔ b = 0 ∧ c = 0 ∧ d = 0 := by
  simp [reservedClear, and_assoc]

@[simp] theorem reservedClear_SD :
    reservedClear .SD (packCommand op a b c d) = true ↔ b = 0 ∧ c = 0 ∧ d.toNat < 2 ^ 8 := by
  rw [← extractLsb'_high_eq_zero_iff 8 24 d rfl]
  simp [reservedClear, and_assoc]

@[simp] theorem reservedClear_SI : reservedClear .SI (packCommand op a b c d) = true ↔ c = 0 ∧ d = 0 := by
  simp [reservedClear]

@[simp] theorem reservedClear_CR :
    reservedClear .CR (packCommand op a b c d) = true ↔ b = 0 ∧ c = 0 ∧ d = 0 := by
  simp [reservedClear, and_assoc]

@[simp] theorem reservedClear_SE :
    reservedClear .SE (packCommand op a b c d) = true ↔ c = 0 ∧ d.toNat < 2 ^ 9 := by
  rw [← extractLsb'_high_eq_zero_iff 9 23 d rfl]
  simp [reservedClear]

@[simp] theorem reservedClear_SX : reservedClear .SX (packCommand op a b c d) = true ↔ d = 0 := by
  simp [reservedClear]

end ReservedBits

/-! ### The operand checks (R57) -/

@[simp] theorem operand_bind_eq_ok_iff {α β : Type} {o : Option α} {f : α → Except Illegal β} {y : β} :
    (operand o >>= f) = .ok y ↔ ∃ x, o = some x ∧ f x = .ok y := by
  cases o <;> simp [operand, bind, Except.bind]

@[simp] theorem operand_map_eq_ok_iff {α β : Type} {o : Option α} {f : α → β} {y : β} :
    f <$> operand o = .ok y ↔ ∃ x, o = some x ∧ f x = y := by
  cases o <;> simp [operand, Functor.map, Except.map]

@[simp] theorem checked_eq_ok_iff {α : Type} {b : Bool} {x y : α} : checked b x = .ok y ↔ b = true ∧ x = y := by
  cases b <;> simp [checked]

@[simp] theorem strRegOfNumber_eq_some_iff {a : Byte} {n : StrReg} : strRegOfNumber a = some n ↔ n.number = a :=
  ⟨number_of_strRegOfNumber, fun h => h ▸ strRegOfNumber_number n⟩

@[simp] theorem csrOfNumber_eq_some_iff {a : Byte} {c : Csr} : csrOfNumber a = some c ↔ c.number = a :=
  ⟨number_of_csrOfNumber, fun h => h ▸ csrOfNumber_number c⟩

@[simp] theorem slotOfNumber_eq_some_iff {a : Byte} {k : Slot} :
    slotOfNumber a = some k ↔ BitVec.ofNat 8 k.val = a := by
  refine ⟨fun h => ?_, fun h => h ▸ slotOfNumber_ofNat k⟩
  obtain ⟨_, hk⟩ := Option.dite_none_right_eq_some.1 h
  cases hk
  exact BitVec.ofNat_toNat 8 a

theorem toNat_number_scalar (f : ScalarReg) : (RecReg.scalar f).number.toNat = f.number := by
  have hf := f.number_lt
  exact Nat.mod_eq_of_lt (by omega)

theorem toNat_number_umem (i : Fin 92) : (RecReg.umem i).number.toNat = 0x100 + i.val :=
  Nat.mod_eq_of_lt (by omega)

theorem toNat_number_fcfg (i : Fin 32) : (RecReg.fcfg i).number.toNat = 0x200 + i.val :=
  Nat.mod_eq_of_lt (by omega)

@[simp] theorem recRegOfNumber_eq_some_iff {rn : BitVec 16} {r : RecReg} :
    recRegOfNumber rn = some r ↔ r.number = rn := by
  refine ⟨fun h => ?_, fun h => h ▸ recRegOfNumber_number r⟩
  apply BitVec.eq_of_toNat_eq
  unfold recRegOfNumber at h
  dsimp only at h
  split at h
  · obtain ⟨f, hf, rfl⟩ := Option.map_eq_some_iff.1 h
    exact (toNat_number_scalar f).trans (number_of_scalarOfNumber hf)
  split at h
  · obtain ⟨hlt, hr⟩ := Option.dite_none_right_eq_some.1 h
    cases hr
    exact (toNat_number_umem _).trans (Nat.add_sub_of_le (by omega))
  · obtain ⟨hlt, hr⟩ := Option.dite_none_right_eq_some.1 h
    cases hr
    exact (toNat_number_fcfg _).trans (Nat.add_sub_of_le (by omega))

@[simp] theorem exists_strReg_number_iff (a : Byte) : (∃ n : StrReg, n.number = a) ↔ a.toNat < 3 := by
  constructor
  · rintro ⟨n, rfl⟩
    cases n <;> decide
  · intro h
    simp only [← strRegOfNumber_eq_some_iff, strRegOfNumber]
    interval_cases a.toNat <;> simp

@[simp] theorem exists_csr_number_iff (a : Byte) : (∃ c : Csr, c.number = a) ↔ a.toNat < 6 := by
  constructor
  · rintro ⟨c, rfl⟩
    cases c <;> decide
  · intro h
    simp only [← csrOfNumber_eq_some_iff, csrOfNumber]
    interval_cases a.toNat <;> simp

@[simp] theorem exists_slot_number_iff (a : Byte) : (∃ k : Slot, BitVec.ofNat 8 k.val = a) ↔ a.toNat < 3 := by
  simp only [← slotOfNumber_eq_some_iff]
  simp [slotOfNumber]

theorem legalRN_number (r : RecReg) : legalRN r.number.toNat := by
  cases r with
  | scalar f =>
    rw [toNat_number_scalar]
    exact .inl (Nat.le_of_lt_succ f.number_lt)
  | umem i =>
    rw [toNat_number_umem]
    exact .inr (.inl (by omega))
  | fcfg i =>
    rw [toNat_number_fcfg]
    exact .inr (.inr (by omega))

theorem width_eq_widthRN (r : RecReg) : r.width = widthRN r.number.toNat := by
  cases r with
  | scalar f => cases f <;> rfl
  | umem i => revert i; decide
  | fcfg i => revert i; decide

/-- The record registers have exactly the legal register numbers. -/
@[simp] theorem exists_recReg_number_iff (rn : BitVec 16) : (∃ r : RecReg, r.number = rn) ↔ legalRN rn.toNat := by
  refine ⟨fun ⟨r, hr⟩ => hr ▸ legalRN_number r, ?_⟩
  rintro (h | h | h)
  · obtain ⟨f, hf⟩ : ∃ f, scalarOfNumber rn.toNat = some f :=
      ⟨_, List.getElem?_eq_getElem (show rn.toNat < scalarRegs.length from Nat.lt_succ_of_le h)⟩
    exact ⟨.scalar f, BitVec.eq_of_toNat_eq ((toNat_number_scalar f).trans (number_of_scalarOfNumber hf))⟩
  · refine ⟨.umem ⟨rn.toNat - 0x100, by omega⟩, BitVec.eq_of_toNat_eq ?_⟩
    exact (toNat_number_umem _).trans (Nat.add_sub_of_le (by omega))
  · refine ⟨.fcfg ⟨rn.toNat - 0x200, by omega⟩, BitVec.eq_of_toNat_eq ?_⟩
    exact (toNat_number_fcfg _).trans (Nat.add_sub_of_le (by omega))

@[simp] theorem exists_recReg_valueFits_iff (rn : BitVec 16) (d : Word) :
    (∃ r : RecReg, r.number = rn ∧ valueFits r d = true) ↔ legalRN rn.toNat ∧ d.toNat < 2 ^ widthRN rn.toNat := by
  rw [← exists_recReg_number_iff, ← exists_and_right]
  refine exists_congr fun r => and_congr_right fun hr => ?_
  rw [valueFits, decide_eq_true_iff, width_eq_widthRN, hr]

/-! ### Decoding the encoding of a command -/

/-- The laws of all commands' encodings as one. -/
theorem encodesRow : ∀ i : Instr, Laws.EncodesRow.Statement i
  | .imgLdb a => Laws.EncodesRow.imgLdb a
  | .imgStb a v => Laws.EncodesRow.imgStb a v
  | .imgLdw w => Laws.EncodesRow.imgLdw w
  | .imgStw w v => Laws.EncodesRow.imgStw w v
  | .recRd r => Laws.EncodesRow.recRd r
  | .recWr r v => Laws.EncodesRow.recWr r v
  | .strClr n => Laws.EncodesRow.strClr n
  | .strPutc n ch => Laws.EncodesRow.strPutc n ch
  | .strLen n => Laws.EncodesRow.strLen n
  | .strGetc n idx => Laws.EncodesRow.strGetc n idx
  | .csrRd c => Laws.EncodesRow.csrRd c
  | .csumCompute => Laws.EncodesRow.csumCompute
  | .csumVerify => Laws.EncodesRow.csumVerify
  | .csumStamp => Laws.EncodesRow.csumStamp
  | .strCheck => Laws.EncodesRow.strCheck
  | .strEncode n k cur => Laws.EncodesRow.strEncode n k cur
  | .strDecode n offset length => Laws.EncodesRow.strDecode n offset length
  | .fldEncode => Laws.EncodesRow.fldEncode
  | .fldDecode => Laws.EncodesRow.fldDecode

theorem operands_encode {i : Instr} (h : i.wellFormed = true) : operands i.opcode (encode i) = .ok i := by
  cases i with
  | csumCompute | csumVerify | csumStamp | strCheck | fldEncode | fldDecode => rfl
  | imgLdb | strClr | strLen | strGetc | strDecode | csrRd => simp [encode, Instr.opcode, operands]
  | imgStb | imgLdw | imgStw => simp [encode, Instr.opcode, operands, extractLsb'_low_setWidth]
  | recRd r => simp [encode, Instr.opcode, operands, append_extractLsb'_bytes]
  | recWr r v =>
    have hv : valueFits r v = true := h
    simp [encode, Instr.opcode, operands, append_extractLsb'_bytes, hv]
  | strPutc n ch =>
    have hch : legalChar ch = true := h
    simp [encode, Instr.opcode, operands, extractLsb'_low_setWidth, hch]
  | strEncode n k cur =>
    have hcur : legalCursor cur = true := h
    simp [encode, Instr.opcode, operands, extractLsb'_low_setWidth, hcur]

/-- Settles O2: the encoding names the command's opcode, leaves the reserved bits zero, and holds its operands. -/
theorem decodeOfEncode : Obligations.DecodeOfEncode := by
  intro i h
  obtain ⟨hop, hres⟩ := encodesRow i
  simp only [decode, hop, opcodeOf_code, hres, if_true]
  exact operands_encode h

/-! ### Encoding the command of a decoded word -/

/-- A word that decodes passed steps 2 to 4 of R60. -/
theorem decode_eq_ok_iff {w : Command} {i : Instr} :
    decode w = .ok i ↔
      ∃ o, opcodeOf (opField w) = some o ∧ reservedClear o.format w = true ∧ operands o w = .ok i := by
  unfold decode
  cases opcodeOf (opField w) with
  | none => simp
  | some o => cases hres : reservedClear o.format w <;> simp [hres]

theorem packCommand_of_opcodeOf {w : Command} {o : Opcode} (h : opcodeOf (opField w) = some o) :
    packCommand o.code (aField w) (bField w) (cField w) (dField w) = w := by
  rw [code_of_opcodeOf h, packCommand_fields]

/-- Every field that is no operand is zero, and every operand's number is that of the register it names. -/
theorem encode_of_operands {o : Opcode} {a b c : Byte} {d : Word} {i : Instr}
    (hres : reservedClear o.format (packCommand o.code a b c d) = true)
    (h : operands o (packCommand o.code a b c d) = .ok i) :
    encode i = packCommand o.code a b c d ∧ i.wellFormed = true := by
  cases o with
  | csumCompute | csumVerify | csumStamp | strCheck | fldEncode | fldDecode =>
    obtain ⟨rfl, rfl, rfl, rfl⟩ := (reservedClear_Z ..).1 hres
    cases h
    exact ⟨rfl, rfl⟩
  | imgLdb =>
    obtain ⟨rfl, rfl, rfl⟩ := (reservedClear_MA ..).1 hres
    cases h
    simp [encode, Instr.opcode, Instr.wellFormed]
  | imgStb =>
    obtain ⟨rfl, rfl, hd⟩ := (reservedClear_MAD ..).1 hres
    cases h
    simp [encode, Instr.opcode, Instr.wellFormed, setWidth_extractLsb'_low 8 d hd]
  | imgLdw =>
    obtain ⟨ha, rfl, rfl, rfl⟩ := (reservedClear_MW ..).1 hres
    cases h
    simp [encode, Instr.opcode, Instr.wellFormed, setWidth_extractLsb'_low 7 a ha]
  | imgStw =>
    obtain ⟨ha, rfl, rfl, hd⟩ := (reservedClear_MWD ..).1 hres
    cases h
    simp [encode, Instr.opcode, Instr.wellFormed, setWidth_extractLsb'_low 7 a ha, setWidth_extractLsb'_low 16 d hd]
  | recRd =>
    obtain ⟨rfl, rfl⟩ := (reservedClear_RG ..).1 hres
    obtain ⟨r, hr, rfl⟩ : ∃ r : RecReg, r.number = b ++ a ∧ .recRd r = i := by simpa [operands] using h
    simp [encode, Instr.opcode, Instr.wellFormed, extractLsb'_low_of_eq_append hr,
      extractLsb'_high_of_eq_append hr]
  | recWr =>
    obtain rfl := (reservedClear_RGD ..).1 hres
    obtain ⟨r, hr, hv, rfl⟩ : ∃ r : RecReg, r.number = b ++ a ∧ valueFits r d = true ∧ .recWr r d = i := by
      simpa [operands] using h
    simp [encode, Instr.opcode, Instr.wellFormed, hv, extractLsb'_low_of_eq_append hr,
      extractLsb'_high_of_eq_append hr]
  | strClr =>
    obtain ⟨rfl, rfl, rfl⟩ := (reservedClear_S ..).1 hres
    obtain ⟨n, rfl, rfl⟩ : ∃ n : StrReg, n.number = a ∧ .strClr n = i := by simpa [operands] using h
    exact ⟨rfl, rfl⟩
  | strLen =>
    obtain ⟨rfl, rfl, rfl⟩ := (reservedClear_S ..).1 hres
    obtain ⟨n, rfl, rfl⟩ : ∃ n : StrReg, n.number = a ∧ .strLen n = i := by simpa [operands] using h
    exact ⟨rfl, rfl⟩
  | strGetc =>
    obtain ⟨rfl, rfl⟩ := (reservedClear_SI ..).1 hres
    obtain ⟨n, rfl, rfl⟩ : ∃ n : StrReg, n.number = a ∧ .strGetc n b = i := by simpa [operands] using h
    exact ⟨rfl, rfl⟩
  | strDecode =>
    obtain rfl := (reservedClear_SX ..).1 hres
    obtain ⟨n, rfl, rfl⟩ : ∃ n : StrReg, n.number = a ∧ .strDecode n b c = i := by simpa [operands] using h
    exact ⟨rfl, rfl⟩
  | csrRd =>
    obtain ⟨rfl, rfl, rfl⟩ := (reservedClear_CR ..).1 hres
    obtain ⟨n, rfl, rfl⟩ : ∃ n : Csr, n.number = a ∧ .csrRd n = i := by simpa [operands] using h
    exact ⟨rfl, rfl⟩
  | strPutc =>
    obtain ⟨rfl, rfl, hd⟩ := (reservedClear_SD ..).1 hres
    obtain ⟨n, rfl, hch, rfl⟩ : ∃ n : StrReg, n.number = a ∧ legalChar (d.extractLsb' 0 8) = true ∧
        .strPutc n (d.extractLsb' 0 8) = i := by simpa [operands] using h
    simp [encode, Instr.opcode, Instr.wellFormed, hch, setWidth_extractLsb'_low 8 d hd]
  | strEncode =>
    obtain ⟨rfl, hd⟩ := (reservedClear_SE ..).1 hres
    obtain ⟨n, rfl, k, rfl, hcur, rfl⟩ : ∃ n : StrReg, n.number = a ∧ ∃ k : Slot, BitVec.ofNat 8 k.val = b ∧
        legalCursor (d.extractLsb' 0 9) = true ∧ .strEncode n k (d.extractLsb' 0 9) = i := by
      simpa [operands] using h
    simp [encode, Instr.opcode, Instr.wellFormed, hcur, setWidth_extractLsb'_low 9 d hd]

/-- Settles O3: the word is the packing of its fields, and `encode_of_operands` reads them off the command. -/
theorem encodeOfDecode : Obligations.EncodeOfDecode := by
  intro w i h
  obtain ⟨o, ho, hres, hi⟩ := decode_eq_ok_iff.1 h
  rw [← packCommand_of_opcodeOf ho] at hres hi ⊢
  exact encode_of_operands hres hi

/-! ### The legal words (R55 to R59) -/

theorem legalChar_low_iff {d : Word} :
    d.toNat < 256 ∧ legalChar (d.extractLsb' 0 8) = true ↔ 0 < d.toNat ∧ d.toNat < 256 := by
  rw [and_comm (a := 0 < d.toNat)]
  refine and_congr_right fun hd => ?_
  simp [legalChar, ← BitVec.toNat_inj, Nat.mod_eq_of_lt hd, Nat.pos_iff_ne_zero]

theorem legalCursor_low_iff {d : Word} :
    d.toNat < 512 ∧ legalCursor (d.extractLsb' 0 9) = true ↔ 0x0A0 ≤ d.toNat ∧ d.toNat ≤ 0x100 := by
  rw [← and_iff_right_of_imp (a := d.toNat < 512) (b := 0x0A0 ≤ d.toNat ∧ d.toNat ≤ 0x100) (by omega)]
  refine and_congr_right fun hd => ?_
  simp [legalCursor, Nat.mod_eq_of_lt hd]

/-- Row by row of the opcode map: a word with an assigned opcode is legal exactly when it passes steps 3 and 4 of R60. -/
theorem legalWord_packCommand_iff (o : Opcode) (a b c : Byte) (d : Word) :
    LegalWord (packCommand o.code a b c d) ↔
      reservedClear o.format (packCommand o.code a b c d) = true ∧
        ∃ i, operands o (packCommand o.code a b c d) = .ok i := by
  simp only [LegalWord, ← toNat_opField, ← toNat_aField, ← toNat_bField, ← toNat_cField, ← toNat_dField,
    opField_packCommand, aField_packCommand, bField_packCommand, cField_packCommand, dField_packCommand,
    toNat_eq_zero_iff]
  cases o with
  | csumCompute | csumVerify | csumStamp | strCheck | fldEncode | fldDecode =>
    simp [Opcode.code, Opcode.format, operands]
  | imgLdb | imgStb | imgLdw | imgStw => simp [Opcode.code, Opcode.format, operands]
  | recRd => simp [Opcode.code, Opcode.format, operands, toNat_append_bytes, and_assoc, and_comm, and_left_comm]
  | recWr => simp [Opcode.code, Opcode.format, operands, toNat_append_bytes, and_left_comm (b := c = 0#8)]
  | strClr | strLen | strGetc | strDecode | csrRd =>
    simp [Opcode.code, Opcode.format, operands, and_assoc, and_comm, and_left_comm]
  | strPutc =>
    simp [Opcode.code, Opcode.format, operands, ← legalChar_low_iff, and_assoc, and_comm, and_left_comm]
  | strEncode =>
    simp [Opcode.code, Opcode.format, operands, ← legalCursor_low_iff, and_assoc, and_left_comm]

/-- The rows of `LegalWord` have assigned opcodes only (R59). -/
theorem opcodeOf_of_legalWord {w : Command} (h : LegalWord w) : ∃ o, opcodeOf (opField w) = some o := by
  rw [← Option.isSome_iff_exists, opcodeOf, toNat_opField]
  rcases h with ⟨hop, -⟩ | ⟨hop, -⟩ | ⟨hop, -⟩ | ⟨hop, -⟩ | ⟨hop, -⟩ | ⟨hop, -⟩ | ⟨hop, -⟩ | ⟨hop, -⟩ | ⟨hop, -⟩ |
      ⟨hop, -⟩ | ⟨hop, -⟩ | ⟨hop | hop | hop | hop | hop | hop, -⟩ | ⟨hop, -⟩ | ⟨hop, -⟩ <;>
    rw [hop] <;> rfl

theorem legalWord_iff_exists_decode {w : Command} : LegalWord w ↔ ∃ i, decode w = .ok i := by
  simp only [decode_eq_ok_iff]
  constructor
  · intro h
    obtain ⟨o, ho⟩ := opcodeOf_of_legalWord h
    rw [← packCommand_of_opcodeOf ho, legalWord_packCommand_iff, packCommand_of_opcodeOf ho] at h
    obtain ⟨hres, i, hi⟩ := h
    exact ⟨i, o, ho, hres, hi⟩
  · rintro ⟨i, o, ho, hres, hi⟩
    rw [← packCommand_of_opcodeOf ho, legalWord_packCommand_iff, packCommand_of_opcodeOf ho]
    exact ⟨hres, i, hi⟩

theorem opcode_code_of_decode {w : Command} {i : Instr} (h : decode w = .ok i) : i.opcode.code = opField w := by
  obtain ⟨rfl, -⟩ := encodeOfDecode w i h
  exact (encodesRow i).1.symm

theorem exists_decode_of_legalWord {w : Command} (h : LegalWord w) :
    ∃ i, decode w = .ok i ∧ i.opcode.code.toNat = w.toNat % 256 := by
  obtain ⟨i, hi⟩ := legalWord_iff_exists_decode.1 h
  exact ⟨i, hi, by rw [opcode_code_of_decode hi, toNat_opField]⟩

theorem exists_error_of_not_legalWord {w : Command} (h : ¬LegalWord w) : ∃ e, decode w = .error e := by
  cases hd : decode w with
  | ok i => exact absurd (legalWord_iff_exists_decode.2 ⟨i, hd⟩) h
  | error e => exact ⟨e, rfl⟩

/-- Settles O4: `LegalWord` is what steps 2 to 4 of R60 let through, row by row of the opcode map. -/
theorem decoderAcceptsExactlyLegalWords : Obligations.DecoderAcceptsExactlyLegalWords :=
  fun _ => ⟨exists_decode_of_legalWord, exists_error_of_not_legalWord⟩

/-! ### The legal `CSR.RD` (R157, R168) -/

theorem Opcode.code_injective {o p : Opcode} (h : o.code = p.code) : o = p := by
  have ho := opcodeOf_code o
  rw [h, opcodeOf_code] at ho
  exact (Option.some.inj ho).symm

theorem exists_csrRd_of_opcode {i : Instr} (h : i.opcode = .csrRd) : ∃ c, i = .csrRd c := by
  cases i with
  | csrRd c => exact ⟨c, rfl⟩
  | _ => cases h

theorem legalCsrRead_iff {w : Command} : LegalCsrRead w ↔ ∃ c, decode w = .ok (.csrRd c) := by
  constructor
  · rintro ⟨hop, ha, hbcd⟩
    have hw : LegalWord w := by
      have hb : w.toNat / 2 ^ 16 % 256 = 0 := by omega
      have hc : w.toNat / 2 ^ 24 % 256 = 0 := by omega
      have hd : w.toNat / 2 ^ 32 = 0 := by omega
      simp only [LegalWord, hop, ha, hb, hc, hd, and_self, true_or, or_true]
    obtain ⟨i, hi, hcode⟩ := exists_decode_of_legalWord hw
    obtain ⟨c, rfl⟩ := exists_csrRd_of_opcode (Opcode.code_injective (BitVec.eq_of_toNat_eq (hcode.trans hop)))
    exact ⟨c, hi⟩
  · rintro ⟨c, hc⟩
    obtain ⟨rfl, -⟩ := encodeOfDecode w _ hc
    unfold LegalCsrRead
    cases c <;> decide

/-- `A` holds the number of the register that a `CSR.RD` reads. -/
theorem number_of_decode_csrRd {w : Command} {c : Csr} (h : decode w = .ok (.csrRd c)) :
    c.number.toNat = w.toNat / 2 ^ 8 % 256 := by
  obtain ⟨rfl, -⟩ := encodeOfDecode w _ h
  rw [← toNat_aField, encode, aField_packCommand]

/-! ### A word at the port (R60) -/

theorem setWidth_code_eq_errNumber (e : ErrCode) : e.code.setWidth 32 = errNumber e := by cases e <;> rfl

theorem readCsr_eq_csrValue (s : State) (c : Csr) : readCsr s c = csrValue s c.number.toNat := by
  cases c with
  | mode => simp only [readCsr, csrValue, Csr.number]; cases s.mode <;> rfl
  | err => exact setWidth_code_eq_errNumber s.err
  | errA | errB | csum | cur => rfl

theorem respondFailed_eq (s : State) : s.respondFailed = { s with response := some ⟨.failed, errNumber s.err⟩ } := by
  rw [State.respondFailed, setWidth_code_eq_errNumber]

theorem exec_csrRd (c : Csr) (s : State) : exec (.csrRd c) s = .next (answered s (csrValue s c.number.toNat)) := by
  rw [← readCsr_eq_csrValue]
  rfl

/-- In the Failed state every command but `CSR.RD` is refused (R168). -/
theorem exec_of_failed {i : Instr} {s : State} (hs : s.err ≠ .none) (hi : ∀ c, i ≠ .csrRd c) :
    exec i s = .next s.respondFailed := by
  cases i with
  | csrRd c => exact absurd rfl (hi c)
  | _ => exact whenOperating_of_failed hs _

theorem illegalWord_of_operating {s : State} (hs : s.Operating) (w : Command) :
    illegalWord w s = .next (raised s .illegalCommand (w.extractLsb' 0 16) (w.extractLsb' 16 16)) :=
  whenOperating_of_operating hs _

/-- In the Failed state a word that is no legal `CSR.RD` is refused, whether it is a legal command or not (R61, R168). -/
theorem step_of_failed {s : State} {w : Command} {rest : List HostEvent} (hp : s.port = .command w :: rest)
    (hs : s.err ≠ .none) (hw : ¬LegalCsrRead w) :
    step s = .next { s with port := rest, response := some ⟨.failed, errNumber s.err⟩ } := by
  cases hd : decode w with
  | ok i =>
    have hi : ∀ c, i ≠ .csrRd c := fun c hc => hw (legalCsrRead_iff.2 ⟨c, hc ▸ hd⟩)
    rw [step_of_decode_ok hp hd, exec_of_failed (s := { s with port := rest }) hs hi, respondFailed_eq]
  | error e =>
    rw [step_of_decode_error hp hd, illegalWord, whenOperating_of_failed (s := { s with port := rest }) hs,
      respondFailed_eq]

theorem step_of_legalCsrRead {s : State} {w : Command} {rest : List HostEvent} (hp : s.port = .command w :: rest)
    (hw : LegalCsrRead w) :
    step s = .next (answered { s with port := rest } (csrValue s (w.toNat / 2 ^ 8 % 256))) := by
  obtain ⟨c, hc⟩ := legalCsrRead_iff.1 hw
  rw [step_of_decode_ok hp hc, exec_csrRd, number_of_decode_csrRd hc]
  rfl

/-- Settles O5: the Failed state by `step_of_failed` and `step_of_legalCsrRead`, the operating state by the decoder. -/
theorem stepChecksCommandInOrder : Obligations.StepChecksCommandInOrder := by
  intro s w rest hp
  refine ⟨step_of_failed hp, fun _ => step_of_legalCsrRead hp, fun hs hw => ?_, fun _ hw => ?_⟩
  · obtain ⟨e, he⟩ := exists_error_of_not_legalWord hw
    rw [step_of_decode_error hp he]
    exact illegalWord_of_operating (s := { s with port := rest }) hs w
  · obtain ⟨i, hi, hop⟩ := exists_decode_of_legalWord hw
    exact ⟨i, hi, hop, step_of_decode_ok hp hi⟩

/-! ### The statements of tier 1 -/

/-- Settles O1, from the extracted bits of each field. -/
theorem commandFieldsAreTheirBits : Obligations.CommandFieldsAreTheirBits := by
  intro w k
  refine ⟨fun hk => ⟨?_, ?_, ?_, ?_⟩, fun hk => ?_⟩
  · simp [opField, hk]
  · simp [aField, hk]
  · simp [bField, hk]
  · simp [cField, hk]
  · simp [dField, hk]

/-- Settles O6: each of the six words is evaluated. -/
theorem sampleWordsDecode : Obligations.SampleWordsDecode := by
  refine ⟨?_, ?_, ?_, ?_, ?_, ?_⟩ <;> decide

/-- Settles O7. -/
theorem stepRunsDecodedCommand : Obligations.StepRunsDecodedCommand :=
  fun _ _ _ _ => step_of_decode_ok

end Sys2Proof
end

section
/-! PROOFS of the statements on the checksum (family 40). A rotation moves bits and is linear over the exclusive-or, so the
iteration over any list of words has a closed form, and a difference in one word comes out rotated by the steps that follow. The
commands then read and store that value. -/

namespace Sys2Proof.Machine

open Sys2Proof.Claims

/-! ### Rotations of a 16-bit word (R11, R79) -/

theorem getLsbD_rotateLeft_half (x : Half) (n : Nat) {i : Nat} (hi : i < 16) :
    (x.rotateLeft n).getLsbD i = x.getLsbD ((i + (16 - n % 16)) % 16) := by
  rw [BitVec.getLsbD_rotateLeft]
  by_cases h : i < n % 16
  · rw [Nat.mod_eq_of_lt (a := i + (16 - n % 16)) (by omega)]
    simp [h, Nat.add_comm]
  · rw [show (i + (16 - n % 16)) % 16 = i - n % 16 by omega]
    simp [h, hi]

theorem rotateLeft_xor (x y : Half) (n : Nat) : (x ^^^ y).rotateLeft n = x.rotateLeft n ^^^ y.rotateLeft n := by
  apply BitVec.eq_of_getLsbD_eq
  intro i hi
  simp only [BitVec.getLsbD_xor, getLsbD_rotateLeft_half _ _ hi]

theorem rotateLeft_rotateLeft (x : Half) (n k : Nat) : (x.rotateLeft n).rotateLeft k = x.rotateLeft (n + k) := by
  apply BitVec.eq_of_getLsbD_eq
  intro i hi
  rw [getLsbD_rotateLeft_half _ _ hi, getLsbD_rotateLeft_half _ _ (Nat.mod_lt _ (by omega)),
    getLsbD_rotateLeft_half _ _ hi]
  congr 1
  omega

theorem rotateLeft_zero (x : Half) : x.rotateLeft 0 = x := by
  apply BitVec.eq_of_getLsbD_eq
  intro i hi
  rw [getLsbD_rotateLeft_half _ _ hi]
  congr 1
  omega

/-- A rotation moves the one set bit of a word. -/
theorem rotateLeft_twoPow {b : Nat} (n : Nat) (hb : b < 16) :
    (BitVec.twoPow 16 b).rotateLeft n = BitVec.twoPow 16 ((b + n) % 16) := by
  apply BitVec.eq_of_getLsbD_eq
  intro i hi
  have hmod : (b + n) % 16 < 16 := Nat.mod_lt _ (by omega)
  simp only [getLsbD_rotateLeft_half _ _ hi, BitVec.getLsbD_twoPow, hb, hmod, decide_true, Bool.true_and,
    decide_eq_decide]
  omega

/-! ### The iteration over a list of words (R80, R84) -/

theorem csumStep_xor_left (c d w : Half) : csumStep (c ^^^ d) w = csumStep c w ^^^ d.rotateLeft 1 := by
  rw [csumStep, csumStep, ← rotateLeft_xor, BitVec.xor_assoc, BitVec.xor_assoc, BitVec.xor_comm d w]

theorem csumStep_xor_right (c w d : Half) : csumStep c (w ^^^ d) = csumStep c w ^^^ d.rotateLeft 1 := by
  rw [csumStep, csumStep, ← rotateLeft_xor, BitVec.xor_assoc]

/-- A difference in the accumulator comes out rotated once by every word that follows. -/
theorem foldl_csumStep_xor (ws : List Half) (c d : Half) :
    ws.foldl csumStep (c ^^^ d) = ws.foldl csumStep c ^^^ d.rotateLeft ws.length := by
  induction ws generalizing c d with
  | nil => simp [rotateLeft_zero]
  | cons w ws ih =>
    rw [List.foldl_cons, csumStep_xor_left, ih, rotateLeft_rotateLeft, List.foldl_cons, List.length_cons, Nat.add_comm 1]

/-- A difference in word `j` comes out rotated by its own step and by those that follow. -/
theorem foldl_csumStep_set_xor (ws : List Half) (c d : Half) {j : Nat} (hj : j < ws.length) :
    (ws.set j (ws[j] ^^^ d)).foldl csumStep c = ws.foldl csumStep c ^^^ d.rotateLeft (ws.length - j) := by
  induction ws generalizing c j with
  | nil => cases hj
  | cons w ws ih =>
    cases j with
    | zero =>
      simp only [List.set_cons_zero, List.getElem_cons_zero, List.foldl_cons, csumStep_xor_right, foldl_csumStep_xor,
        rotateLeft_rotateLeft, List.length_cons, Nat.sub_zero, Nat.add_comm 1]
    | succ j => simpa using ih (csumStep c w) (Nat.lt_of_succ_lt_succ hj)

/-- The iteration from `c` over `n` words is the exclusive-or of `c` and the words, each rotated once per step it goes through. -/
theorem foldl_csumStep_range (f : Nat → Half) (c : Half) (n : Nat) :
    ((List.range n).map f).foldl csumStep c =
      ((List.range n).map fun j => (f j).rotateLeft (n - j)).foldl (· ^^^ ·) (c.rotateLeft n) := by
  induction n with
  | zero => simp [rotateLeft_zero]
  | succ n ih =>
    have hstep : ((List.range n).map fun j => (f j).rotateLeft (n + 1 - j)) =
        ((List.range n).map fun j => (f j).rotateLeft (n - j)).map (·.rotateLeft 1) := by
      rw [List.map_map]
      refine List.map_congr_left fun j hj => ?_
      have hjn : j < n := List.mem_range.1 hj
      rw [Function.comp_apply, rotateLeft_rotateLeft, Nat.sub_add_comm (Nat.le_of_lt hjn)]
    simp only [List.range_succ, List.map_append, List.map_singleton, List.foldl_concat, ih, csumStep, rotateLeft_xor,
      Nat.add_sub_cancel_left, hstep, ← rotateLeft_rotateLeft c n 1]
    rw [List.foldl_map_hom fun x y => (rotateLeft_xor x y 1).symm]

/-! ### The covered words of an image (R45) -/

/-- The byte address of covered word `j` (R84). -/
def coveredAddr (j : Nat) : Nat := 2 * if j ≤ 17 then j else j + 46

theorem coveredWord_eq (m : Memory) (j : Nat) : coveredWord m j = m.getLe16 (coveredAddr j) := rfl

theorem coveredWords_eq : coveredWords = (List.range 81).map coveredAddr := by decide

theorem coveredAddr_add_two_le {j : Nat} (hj : j < 81) : coveredAddr j + 2 ≤ 256 := by
  unfold coveredAddr
  split <;> omega

/-- Two covered words have no byte in common. -/
theorem coveredAddr_disjoint {j k : Nat} (h : j ≠ k) :
    coveredAddr j + 1 < coveredAddr k ∨ coveredAddr k + 1 < coveredAddr j := by
  unfold coveredAddr
  split <;> split <;> omega

/-- Both bytes of a covered word are covered (R45). -/
theorem covered_coveredAddr {j : Nat} (hj : j < 81) : Covered (coveredAddr j) ∧ Covered (coveredAddr j + 1) := by
  unfold coveredAddr Covered
  split <;> omega

/-- The checksum is the iteration over the 81 covered words. -/
theorem csumCompute_eq (m : Memory) : csumCompute m = ((List.range 81).map (coveredWord m)).foldl csumStep 0xAAAA := by
  rw [csumCompute, coveredWords_eq, List.map_map]
  rfl

theorem coveredWord_congr {m m' : Memory} (h : ∀ a, Covered a → m.read a = m'.read a) {j : Nat} (hj : j < 81) :
    coveredWord m j = coveredWord m' j := by
  obtain ⟨hlo, hhi⟩ := covered_coveredAddr hj
  rw [coveredWord_eq, coveredWord_eq, Memory.getLe16, Memory.getLe16, h _ hlo, h _ hhi]

/-- Bit `b` of a little-endian word is bit `b % 8` of its byte `b / 8` (R38). -/
theorem twoPow_eq_append : ∀ b < 16, BitVec.twoPow 16 b =
    (if b / 8 = 0 then 0 else 1#8 <<< (b % 8)) ++ (if b / 8 = 0 then 1#8 <<< (b % 8) else 0) := by decide

/-- Flipping bit `b` of a little-endian word through the byte that holds it (R38, R109). -/
theorem Memory.getLe16_write_flip (m : Memory) {a b : Nat} (ha : a + 2 ≤ 256) (hb : b < 16) :
    (m.write (a + b / 8) (m.read (a + b / 8) ^^^ (1#8 <<< (b % 8)))).getLe16 a =
      m.getLe16 a ^^^ BitVec.twoPow 16 b := by
  rw [twoPow_eq_append b hb, Memory.getLe16, Memory.getLe16, BitVec.xor_append,
    Memory.read_write _ _ _ (by omega), Memory.read_write _ _ _ (by omega)]
  have hbyte : b / 8 = 0 ∨ b / 8 = 1 := by omega
  rcases hbyte with h | h <;> simp [h]

theorem Memory.getLe16_write_of_ne (m : Memory) {a x : Nat} (v : Byte) (hlo : a ≠ x) (hhi : a + 1 ≠ x) :
    (m.write x v).getLe16 a = m.getLe16 a := by
  rw [Memory.getLe16, Memory.getLe16, Memory.read_write_of_ne _ _ hlo, Memory.read_write_of_ne _ _ hhi]

/-- Flipping bit `b` of covered word `j` changes that word alone. -/
theorem coveredWords_write_flip (m : Memory) {j b : Nat} (hj : j < 81) (hb : b < 16) :
    (List.range 81).map (coveredWord
        (m.write (coveredAddr j + b / 8) (m.read (coveredAddr j + b / 8) ^^^ (1#8 <<< (b % 8))))) =
      ((List.range 81).map (coveredWord m)).set j (coveredWord m j ^^^ BitVec.twoPow 16 b) := by
  refine List.ext_getElem (by simp) fun k _ _ => ?_
  rw [List.getElem_set, List.getElem_map, List.getElem_map, List.getElem_range]
  by_cases hjk : j = k
  · rw [if_pos hjk, ← hjk]
    exact Memory.getLe16_write_flip m (coveredAddr_add_two_le hj) hb
  · have hdisjoint := coveredAddr_disjoint hjk
    rw [if_neg hjk, coveredWord_eq, coveredWord_eq]
    exact Memory.getLe16_write_of_ne m _ (by omega) (by omega)

/-! ### The checksum of an image -/

/-- Settles O34: the closed form of the iteration over any words, at the 81 covered ones. -/
theorem checksumClosedForm : Obligations.ChecksumClosedForm := by
  intro m
  simp only [csumCompute_eq, foldl_csumStep_range, BitVec.rotateLeft_mod_eq_rotateLeft]
  rfl

/-- The one changed word comes out rotated by the `81 - j` steps it goes through (R85). -/
theorem csumCompute_write_flip (m : Memory) {j b : Nat} (hj : j < 81) (hb : b < 16) :
    csumCompute (m.write (coveredAddr j + b / 8) (m.read (coveredAddr j + b / 8) ^^^ (1#8 <<< (b % 8)))) =
      csumCompute m ^^^ BitVec.twoPow 16 ((b + (81 - j)) % 16) := by
  have hword : coveredWord m j = ((List.range 81).map (coveredWord m))[j]'(by simpa using hj) := by simp
  rw [csumCompute_eq, coveredWords_write_flip m hj hb, hword, foldl_csumStep_set_xor, ← csumCompute_eq,
    List.length_map, List.length_range, rotateLeft_twoPow _ hb]

/-- Settles O35. -/
theorem singleBitFlipFlipsOneChecksumBit : Obligations.SingleBitFlipFlipsOneChecksumBit := by
  intro m j b hj hb
  rw [Nat.add_sub_assoc (Nat.le_of_lt hj)]
  exact csumCompute_write_flip m hj hb

/-- Settles O36: no covered word reads another byte. -/
theorem checksumIgnoresUncoveredBytes : Obligations.ChecksumIgnoresUncoveredBytes := by
  intro m m' h
  rw [csumCompute_eq, csumCompute_eq,
    List.map_congr_left fun j hj => coveredWord_congr h (List.mem_range.1 hj)]

/-! ### The checksum commands -/

theorem exec_csumCompute {s : State} (hs : s.Operating) :
    exec .csumCompute s =
      .next (answered { s with csum := csumCompute s.img } ((csumCompute s.img).setWidth 32)) :=
  whenOperating_of_operating hs _

/-- `CSUM.VERIFY` compares the checksum with the word at 0xFE (R82). -/
theorem exec_csumVerify {s : State} (hs : s.Operating) :
    exec .csumVerify s = .next
      (if csumCompute s.img = s.img.getLe16 0xFE then
        answered { s with csum := csumCompute s.img } ((csumCompute s.img).setWidth 32)
      else
        raised { s with csum := csumCompute s.img } .checksumMismatch (csumCompute s.img) (s.img.getLe16 0xFE)) := by
  refine (whenOperating_of_operating hs _).trans ?_
  rw [memRead_two _ (by decide), CommandResult.ofExcept_ok, BitVec.setWidth_setWidth_of_le _ (by decide),
    BitVec.setWidth_eq]
  split <;> rfl

theorem exec_csumStamp {s : State} (hs : s.Operating) :
    exec .csumStamp s = .next
      (answered { s with img := s.img.putLe16 0xFE (csumCompute s.img), csum := csumCompute s.img }
        ((csumCompute s.img).setWidth 32)) := by
  refine (whenOperating_of_operating hs _).trans ?_
  rw [stamp_eq]
  rfl

/-- The stamp writes no covered byte, so the checksum stands (R86). -/
theorem csumCompute_putLe16_csumAddr (m : Memory) (v : Half) : csumCompute (m.putLe16 0xFE v) = csumCompute m := by
  refine checksumIgnoresUncoveredBytes _ _ fun a ha => ?_
  unfold Covered at ha
  rw [Memory.read_putLe16 _ _ _ (by decide), if_neg (by omega), if_neg (by omega)]

theorem Memory.getLe16_putLe16_self (m : Memory) {a : Nat} (v : Half) (ha : a + 2 ≤ 256) :
    (m.putLe16 a v).getLe16 a = v := by
  rw [Memory.getLe16, Memory.read_putLe16 _ _ _ ha, Memory.read_putLe16 _ _ _ ha, if_neg (by omega), if_pos rfl,
    if_pos rfl, append_extractLsb'_bytes]

/-- Settles O38: both ends of `exec_csumVerify`. -/
theorem csumVerifyComparesStored : Obligations.CsumVerifyComparesStored := by
  intro s hs
  rw [exec_csumVerify hs]
  exact ⟨by decide, fun heq => congrArg _ (if_pos heq), fun hne => congrArg _ (if_neg hne)⟩

/-- Settles O39: the reads are those of the stored word. -/
theorem csumStampStoresChecksum : Obligations.CsumStampStoresChecksum := by
  intro s hs
  have hread (x : Nat) := Memory.read_putLe16 s.img (a := 0xFE) x (csumCompute s.img) (by decide)
  refine ⟨by decide, _, exec_csumStamp hs, hread 0xFE, hread 0xFF, fun x hlo hhi => ?_, rfl⟩
  exact (hread x).trans ((if_neg hlo).trans (if_neg hhi))

/-- Settles O40: neither the checksum nor the stored word reads a byte outside the agreement. -/
theorem stampedImageVerifies : Obligations.StampedImageVerifies := by
  intro s t u hs ht hu hagree
  rw [exec_csumStamp hs] at ht
  cases ht
  have hread : ∀ a, Covered a ∨ a = 0xFE ∨ a = 0xFF →
      u.img.read a = (s.img.putLe16 0xFE (csumCompute s.img)).read a := hagree
  have hcomputed : csumCompute u.img = csumCompute s.img :=
    (checksumIgnoresUncoveredBytes _ _ fun a ha => hread a (.inl ha)).trans (csumCompute_putLe16_csumAddr ..)
  have hstored : u.img.getLe16 0xFE = csumCompute s.img := by
    rw [Memory.getLe16, hread 0xFE (.inr (.inl rfl)), hread (0xFE + 1) (.inr (.inr rfl))]
    exact Memory.getLe16_putLe16_self _ _ (by decide)
  rw [exec_csumVerify hu, hcomputed, hstored, if_pos rfl]

/-! ### The statements of tier 1 -/

/-- Settles O32: the rotation by one, at bit 0 and at bit `j + 1`. -/
theorem checksumStepXorsAndRotates : Obligations.ChecksumStepXorsAndRotates := by
  intro c w
  refine ⟨getLsbD_rotateLeft_half _ 1 (by decide), fun j hj => ?_⟩
  rw [csumStep, getLsbD_rotateLeft_half _ 1 (by omega)]
  congr 1
  omega

/-- Settles O33: the fold over the two ranges one after the other. -/
theorem checksumIsTheIteration : Obligations.ChecksumIsTheIteration := by
  intro m
  simp only [csumCompute, coveredWords, List.map_append, List.foldl_append, List.foldl_map]
  rfl

/-- Settles O37. -/
theorem csumComputeAnswersChecksum : Obligations.CsumComputeAnswersChecksum :=
  fun _ hs => ⟨by decide, exec_csumCompute hs⟩

end Sys2Proof.Machine
end

section
/-! PROOFS of the statements on the string table (family 41). What the string encoder leaves in an image is said once
(`BlobLaid`), in the bytes of the blob; what the decoder extracts from a laid blob is the text (`rawText_of_blob`). The commands
and the round trip are read off these. -/

namespace Sys2Proof.Machine

open Sys2Proof.Claims

/-! ### Blobs (R92, R93) -/

theorem emitted_eq_emittedLen (s : State) (n : StrReg) : emitted s n = emittedLen (s.strs.get n) s.mode := by
  unfold emitted
  cases s.mode <;> rfl

theorem blobBytes_eq_blob (t : Text) (m : Mode) : blobBytes t m = blob t m := by
  cases m with
  | narrow => rfl
  | wide => exact congrArg (BitVec.ofNat 8 (2 + 2 * t.length) :: 3 :: ·) List.flatMap_def.symm

/-- In the slots of a wide blob each character stands before a zero byte (R72). -/
theorem getElem?_wideSlots (t : Text) (i : Nat) :
    (t.flatMap fun ch => [ch, (0 : Byte)])[2 * i]? = t[i]? ∧
      (t.flatMap fun ch => [ch, (0 : Byte)])[2 * i + 1]? = t[i]?.map fun _ => 0 := by
  induction t generalizing i with
  | nil => exact ⟨rfl, rfl⟩
  | cons ch t ih =>
    cases i with
    | zero => exact ⟨rfl, rfl⟩
    | succ i => exact ih i

theorem getElem?_blob_wide_char (t : Text) (i : Nat) : (blob t .wide)[2 + 2 * i]? = t[i]? := by
  rw [Nat.add_comm]
  exact (getElem?_wideSlots t i).1

theorem getElem?_blob_wide_zero (t : Text) {i : Nat} (hi : i < t.length) : (blob t .wide)[3 + 2 * i]? = some 0 := by
  have hslot : (blob t .wide)[2 * i + 1 + 2]? = t[i]?.map fun _ => 0 := (getElem?_wideSlots t i).2
  rw [List.getElem?_eq_getElem hi] at hslot
  rwa [Nat.add_comm 3]

/-! ### Decoding a blob (R98) -/

theorem extracted_eq_rawText (img : Memory) (offset length : Nat) (m : Mode) :
    extracted img offset length m = rawText img offset length m := by
  cases m <;> rfl

theorem longestZeroFree_takeWhile (raw : List Byte) : LongestZeroFree (raw.takeWhile (· != 0)) raw := by
  refine ⟨⟨raw.dropWhile (· != 0), List.takeWhile_append_dropWhile.symm, fun x hx => ?_⟩, fun ch hch => ?_⟩
  · have hstop := List.head?_dropWhile_not (· != (0 : Byte)) raw
    rw [hx] at hstop
    simpa using hstop
  · simpa using List.mem_takeWhile_imp hch

theorem takeWhile_ne_zero_of_zeroFree {t : Text} (ht : ∀ ch ∈ t, ch ≠ 0) : t.takeWhile (· != 0) = t :=
  List.takeWhile_eq_self_iff.2 fun ch hch => bne_iff_ne.2 (ht ch hch)

/-- Decoding extracts from the bytes of a blob the characters of its text. -/
theorem rawText_of_blob {img : Memory} {t : Text} {m : Mode} {offset : Nat}
    (h : ∀ i < emittedLen t m, (blob t m)[i]? = some (img.read (offset + i))) :
    rawText img offset (emittedLen t m) m = t := by
  have hlen : (rawText img offset (emittedLen t m) m).length = t.length := by
    rw [length_rawText]
    cases m with
    | narrow => rfl
    | wide => show (2 + 2 * t.length - 2) / 2 = t.length; omega
  refine List.ext_getElem hlen fun i _ hi => ?_
  apply Option.some.inj
  rw [← List.getElem?_eq_getElem hi]
  cases m with
  | narrow => simpa [rawText, Memory.readBytes, blob] using (h i hi).symm
  | wide =>
    have hchar := h (2 + 2 * i) (by simp only [emittedLen]; omega)
    rw [getElem?_blob_wide_char] at hchar
    simpa [rawText, Nat.add_assoc] using hchar.symm

/-! ### Laying a blob and its descriptor (R96) -/

/-- `img'` is `img` with the blob of `t` at `cur` and its descriptor in slot `k`. -/
structure BlobLaid (img img' : Memory) (t : Text) (k : Slot) (cur : Nat) (m : Mode) : Prop where
  bytes : ∀ i < emittedLen t m, (blob t m)[i]? = some (img'.read (cur + i))
  offset : img'.read (descriptorAddr k) = BitVec.ofNat 8 cur
  length : img'.read (descriptorAddr k + 1) = BitVec.ofNat 8 (emittedLen t m)
  frame : ∀ x, x < cur ∨ cur + emittedLen t m ≤ x → x ≠ descriptorAddr k → x ≠ descriptorAddr k + 1 →
    img'.read x = img.read x

/-- The descriptors end below the place of the strings (R7). -/
theorem descriptorAddr_add_one_lt (k : Slot) : descriptorAddr k + 1 < 0xA0 := by
  have hk := k.isLt
  simp only [descriptorAddr, Config.descBase]
  omega

theorem descriptorAddr_add_one (k : Slot) : descriptorAddr k + 1 = 0x0F + 2 * k.val := Nat.add_right_comm ..

/-- The descriptor lies below the blob, so neither write disturbs the other. -/
theorem strEncode_lays (img : Memory) (t : Text) (k : Slot) {cur : Nat} (m : Mode) (hcur : 0xA0 ≤ cur)
    (hfit : cur + emittedLen t m ≤ 256) :
    ∃ img', strEncode img t k cur m = .ok (img', cur + emittedLen t m) ∧ BlobLaid img img' t k cur m := by
  have hbelow := descriptorAddr_add_one_lt k
  have hfit' : cur + (blob t m).length ≤ 256 := by rwa [length_blob]
  rcases strEncode_cases img t k cur m with ⟨-, he⟩ | ⟨hout, -⟩
  · refine ⟨_, he, ?_, ?_, ?_, ?_⟩
    · intro i hi
      have hi' : i < (blob t m).length := by rwa [length_blob]
      rw [Memory.read_write_of_ne _ _ (by omega), Memory.read_write_of_ne _ _ (by omega),
        Memory.read_writeBytes_of_lt _ _ hfit' hi', List.getElem?_eq_getElem hi']
    · rw [Memory.read_write_of_ne _ _ (by omega), Memory.read_write_self _ _ (by omega)]
    · rw [Memory.read_write_self _ _ (by omega)]
    · intro x hx hoffset hlength
      rw [Memory.read_write_of_ne _ _ hlength, Memory.read_write_of_ne _ _ hoffset,
        Memory.read_writeBytes_of_not_mem _ _ (by rwa [length_blob])]
  · omega

theorem strEncode_misfit (img : Memory) (t : Text) (k : Slot) {cur : Nat} (m : Mode)
    (hout : 256 < cur + emittedLen t m) :
    strEncode img t k cur m = .error (.boundsFault cur (emittedLen t m)) := by
  rcases strEncode_cases img t k cur m with ⟨hfit, -⟩ | ⟨-, he⟩
  · omega
  · exact he

theorem strDecode_inside (img : Memory) {offset length : Nat} (m : Mode) (hin : offset + length ≤ 256) :
    strDecode img offset length m = .ok ((rawText img offset length m).takeWhile (· != 0)) := by
  rcases strDecode_cases img offset length m with ⟨-, he⟩ | ⟨hout, -⟩
  · exact he
  · omega

theorem strDecode_outside (img : Memory) {offset length : Nat} (m : Mode) (hout : 256 < offset + length) :
    strDecode img offset length m = .error (.boundsFault offset length) := by
  rcases strDecode_cases img offset length m with ⟨hin, -⟩ | ⟨-, he⟩
  · omega
  · exact he

/-- A laid blob decodes, from where it stands, to its text. -/
theorem strDecode_of_blob {img : Memory} {t : Text} {m : Mode} {offset : Nat} (ht : ∀ ch ∈ t, ch ≠ 0)
    (hin : offset + emittedLen t m ≤ 256)
    (h : ∀ i < emittedLen t m, (blob t m)[i]? = some (img.read (offset + i))) :
    strDecode img offset (emittedLen t m) m = .ok t := by
  rw [strDecode_inside img m hin, rawText_of_blob h, takeWhile_ne_zero_of_zeroFree ht]

/-- The descriptor of a laid blob: a cursor of 0x100 leaves the offset 0, and the length of any blob above 0xA0 fits its byte. -/
theorem BlobLaid.descriptor_eq {img img' : Memory} {t : Text} {k : Slot} {cur : Nat} {m : Mode}
    (h : BlobLaid img img' t k cur m) (hcur : 0xA0 ≤ cur) (hfit : cur + emittedLen t m ≤ 256) :
    descriptor img' k.val = (cur % 256, emittedLen t m) := by
  have hoffset : img'.read (0x0E + 2 * k.val) = BitVec.ofNat 8 cur := h.offset
  have hlength : img'.read (0x0F + 2 * k.val) = BitVec.ofNat 8 (emittedLen t m) := descriptorAddr_add_one k ▸ h.length
  have hmod : emittedLen t m % 256 = emittedLen t m := Nat.mod_eq_of_lt (by omega)
  simp [descriptor, hoffset, hlength, hmod]

/-- Settles O45: the descriptor leads back to the blob, which is laid at `cur` unless it is empty. -/
theorem encodedStringDecodesToItself : Obligations.EncodedStringDecodesToItself := by
  intro img t k cur m ht hcur hfit
  obtain ⟨img', he, hlaid⟩ := strEncode_lays img t k m hcur hfit
  refine ⟨img', he, ?_⟩
  rw [hlaid.descriptor_eq hcur hfit]
  refine strDecode_of_blob ht (by omega) fun i hi => ?_
  rw [Nat.mod_eq_of_lt (by omega : cur < 256)]
  exact hlaid.bytes i hi

/-- Settles O41. -/
theorem blobBytesAreAsSpecified : Obligations.BlobBytesAreAsSpecified := by
  intro t
  exact ⟨rfl, rfl, rfl, length_blob t .wide, rfl, rfl,
    fun i hi => ⟨getElem?_blob_wide_char t i, getElem?_blob_wide_zero t hi⟩⟩

/-! ### Command words (R54, R60) -/

/-- Both forms of a word put each field at its place; a field has no bit past its width, so the places do not overlap. -/
theorem cmdWord_eq_packCommand (op a b c : Byte) (d : Word) : cmdWord op a b c d = packCommand op a b c d := by
  apply BitVec.eq_of_getLsbD_eq
  intro i hi
  rw [getLsbD_packCommand]
  have hop : 8 ≤ i → op.getLsbD i = false := BitVec.getLsbD_of_ge op i
  have ha : 16 ≤ i → a.getLsbD (i - 8) = false := fun h => BitVec.getLsbD_of_ge a _ (by omega)
  have hb : 24 ≤ i → b.getLsbD (i - 16) = false := fun h => BitVec.getLsbD_of_ge b _ (by omega)
  have hc : 32 ≤ i → c.getLsbD (i - 24) = false := fun h => BitVec.getLsbD_of_ge c _ (by omega)
  simp only [cmdWord, BitVec.getLsbD_or, BitVec.getLsbD_shiftLeft, BitVec.getLsbD_setWidth]
  grind

/-- The encoding of a well-formed command decodes to it, in the terms of `cmdWord` (R54). -/
theorem decode_cmdWord {i : Instr} {op a b c : Byte} {d : Word} (hi : i.wellFormed = true)
    (he : encode i = packCommand op a b c d) : decode (cmdWord op a b c d) = .ok i := by
  rw [cmdWord_eq_packCommand, ← he]
  exact decodeOfEncode i hi

theorem raisesIllegal_of_not_legalWord {w : Command} (h : ¬LegalWord w) : RaisesIllegal w := by
  intro s rest hs hp
  obtain ⟨e, he⟩ := exists_error_of_not_legalWord h
  rw [step_of_decode_error hp he]
  exact illegalWord_of_operating (s := { s with port := rest }) hs w

theorem legalWord_strEncode_iff (a b : Byte) (d : Word) :
    LegalWord (cmdWord 0x21 a b 0 d) ↔ a.toNat < 3 ∧ b.toNat < 3 ∧ 0x0A0 ≤ d.toNat ∧ d.toNat ≤ 0x100 := by
  rw [cmdWord_eq_packCommand, ← legalCursor_low_iff]
  refine (legalWord_packCommand_iff .strEncode a b 0 d).trans ?_
  simp [Opcode.format, operands, and_left_comm]

theorem legalWord_strDecode_iff (a b c : Byte) : LegalWord (cmdWord 0x22 a b c 0) ↔ a.toNat < 3 := by
  rw [cmdWord_eq_packCommand]
  refine (legalWord_packCommand_iff .strDecode a b c 0).trans ?_
  simp [Opcode.format, operands]

/-! ### The string commands -/

/-- The three byte fields of `R` do not overlap when the length fits a byte (R97). -/
theorem encodeResult_eq (cur : BitVec 9) {n : Nat} (hn : n < 256) :
    encodeResult cur n = BitVec.ofNat 32 (cur.toNat % 256 + 256 * n + 65536 * n) := by
  have hlow8 : cur.toNat % 256 < 2 ^ 8 := Nat.mod_lt _ (by decide)
  have hlow16 : n <<< 8 + cur.toNat % 256 < 2 ^ 16 := by rw [Nat.shiftLeft_eq]; omega
  have hshift8 : n <<< 8 % 2 ^ 32 = n <<< 8 := Nat.mod_eq_of_lt (by rw [Nat.shiftLeft_eq]; omega)
  have hshift16 : n <<< 16 % 2 ^ 32 = n <<< 16 := Nat.mod_eq_of_lt (by rw [Nat.shiftLeft_eq]; omega)
  apply BitVec.eq_of_toNat_eq
  calc (encodeResult cur n).toNat
      = n <<< 16 ||| (n <<< 8 ||| cur.toNat % 256) := by
        have hn' : n % 2 ^ 32 = n := Nat.mod_eq_of_lt (by omega)
        simp only [encodeResult, BitVec.toNat_or, BitVec.toNat_shiftLeft, BitVec.toNat_ofNat, hn', hshift8, hshift16,
          BitVec.toNat_setWidth, BitVec.extractLsb'_toNat, Nat.shiftRight_zero]
        rw [Nat.mod_eq_of_lt (a := cur.toNat % 2 ^ 8) (by omega), Nat.or_comm, Nat.or_comm (cur.toNat % 2 ^ 8)]
    _ = n <<< 16 + (n <<< 8 + cur.toNat % 256) := by
        rw [← Nat.shiftLeft_add_eq_or_of_lt hlow8, ← Nat.shiftLeft_add_eq_or_of_lt hlow16]
    _ = cur.toNat % 256 + 256 * n + 65536 * n := by rw [Nat.shiftLeft_eq, Nat.shiftLeft_eq]; omega
    _ = (BitVec.ofNat 32 (cur.toNat % 256 + 256 * n + 65536 * n)).toNat := by
        rw [BitVec.toNat_ofNat]
        exact (Nat.mod_eq_of_lt (by omega)).symm

theorem exec_strEncode_ok {s : State} {k : Slot} {cur : BitVec 9} {n : StrReg} (hs : s.Operating)
    (hcur : legalCursor cur = true) {img : Memory} {next : Nat}
    (he : strEncode s.img (s.strs.get n) k cur.toNat s.mode = .ok (img, next)) :
    exec (.strEncode n k cur) s = .next
      (answered { s with img := img, cur := BitVec.ofNat 9 next }
        (encodeResult cur (emittedLen (s.strs.get n) s.mode))) := by
  refine (whenOperating_of_operating hs _).trans ?_
  rw [if_pos hcur, he]
  rfl

theorem exec_strEncode_misfit {s : State} {k : Slot} {cur : BitVec 9} {n : StrReg} (hs : s.Operating)
    (hcur : legalCursor cur = true) (hout : 256 < cur.toNat + emittedLen (s.strs.get n) s.mode) :
    exec (.strEncode n k cur) s = .next
      (raised s .boundsFault (BitVec.ofNat 16 cur.toNat) (BitVec.ofNat 16 (emittedLen (s.strs.get n) s.mode))) := by
  refine (whenOperating_of_operating hs _).trans ?_
  rw [if_pos hcur, strEncode_misfit _ _ _ _ hout]
  rfl

/-- Settles O43: `strEncode_lays` for a blob that fits. -/
theorem strEncodeLaysBlobAndDescriptor : Obligations.StrEncodeLaysBlobAndDescriptor := by
  refine ⟨fun n k cur s hs hlo hhi => ?_, fun a b d h => ?_⟩
  · have hcur : legalCursor cur = true := by simpa [legalCursor] using And.intro hlo hhi
    simp only [emitted_eq_emittedLen, blobBytes_eq_blob]
    refine ⟨decode_cmdWord hcur rfl, fun hfit => ?_, exec_strEncode_misfit hs hcur⟩
    obtain ⟨img', he, hlaid⟩ := strEncode_lays s.img (s.strs.get n) k s.mode hlo hfit
    have hnext : (cur.toNat + emittedLen (s.strs.get n) s.mode) % 512 = cur.toNat + emittedLen (s.strs.get n) s.mode :=
      Nat.mod_eq_of_lt (by omega)
    rw [← encodeResult_eq cur (by omega), ← descriptorAddr_add_one]
    exact ⟨_, exec_strEncode_ok hs hcur he, hlaid.bytes, hlaid.offset, hlaid.length, hlaid.frame,
      (BitVec.toNat_ofNat ..).trans hnext, rfl⟩
  · refine raisesIllegal_of_not_legalWord fun hw => ?_
    obtain ⟨ha, hb, hlo, hhi⟩ := (legalWord_strEncode_iff a b d).1 hw
    omega

theorem exec_strDecode_ok {s : State} {n : StrReg} {offset length : Byte} {text : Text} (hs : s.Operating)
    (he : strDecode s.img offset.toNat length.toNat s.mode = .ok text) :
    exec (.strDecode n offset length) s = .next
      (answered { s with strs := s.strs.set n text } (BitVec.ofNat 32 text.length)) := by
  refine (whenOperating_of_operating hs _).trans ?_
  rw [he]
  rfl

theorem exec_strDecode_outside {s : State} {n : StrReg} {offset length : Byte} (hs : s.Operating)
    (hout : 256 < offset.toNat + length.toNat) :
    exec (.strDecode n offset length) s = .next
      (raised s .boundsFault (offset.setWidth 16) (length.setWidth 16)) := by
  refine (whenOperating_of_operating hs _).trans ?_
  rw [strDecode_outside _ _ hout, ← BitVec.ofNat_toNat, ← BitVec.ofNat_toNat]
  rfl

/-- Settles O44: the decoder answers the bytes before the first zero, and only the named string is replaced. -/
theorem strDecodeReadsBlob : Obligations.StrDecodeReadsBlob := by
  refine ⟨fun n offset length s hs => ⟨decode_cmdWord rfl rfl, fun hin => ?_, exec_strDecode_outside hs⟩,
    fun a b c ha => ?_⟩
  · refine ⟨_, exec_strDecode_ok hs (strDecode_inside s.img s.mode hin), ?_, fun k hk => Strs.get_set_of_ne s.strs hk _, ?_⟩
    · simp only [answered, Strs.get_set_self, extracted_eq_rawText]
      exact longestZeroFree_takeWhile _
    · simp only [answered, Strs.get_set_self]
  · refine raisesIllegal_of_not_legalWord fun hw => ?_
    have hlt := (legalWord_strDecode_iff a b c).1 hw
    omega

theorem exec_strCheck_within {s : State} (hs : s.Operating) (h : characters s ≤ 96) :
    exec .strCheck s = .next (answered s (BitVec.ofNat 32 (characters s))) := by
  refine (whenOperating_of_operating hs _).trans ?_
  rw [checkBudget_of_le h]
  rfl

theorem exec_strCheck_over {s : State} (hs : s.Operating) (h : 96 < characters s) :
    exec .strCheck s = .next (raised s .stringTableOverflow (BitVec.ofNat 16 (characters s)) 96) := by
  refine (whenOperating_of_operating hs _).trans ?_
  rw [checkBudget_of_gt h]
  rfl

/-- Settles O42: the budget check on both sides of the budget. -/
theorem strCheckTestsBudget : Obligations.StrCheckTestsBudget :=
  fun _ hs => ⟨decode_cmdWord rfl rfl, exec_strCheck_within hs, exec_strCheck_over hs⟩

end Sys2Proof.Machine
end

section
/-! PROOFS of the statements on the field codec (family 42). A bit group of a byte is a field at a place (`getLsbD_placed`); what
the image encoder leaves in each region of an image is said once (`Encoded`), for every layout, as lists of bytes; and the record
decoder reads each register back from those bytes. The commands and the round trips are read off these. -/

namespace Sys2Proof.Machine

open Sys2Proof.Claims

/-! ### Bit groups at a place in a byte (R107, R108) -/

theorem getLsbD_placed {w lo : Nat} (v : BitVec w) (hin : lo + w ≤ 8) (q : Nat) :
    (v.setWidth 8 <<< lo).getLsbD q = (decide (lo ≤ q) && v.getLsbD (q - lo)) := by
  by_cases hlo : lo ≤ q
  · by_cases hq : q < 8
    · simp [hlo, hq, Nat.not_lt.2 hlo]
    · rw [BitVec.getLsbD_of_ge _ _ (by omega), BitVec.getLsbD_of_ge v _ (by omega), Bool.and_false]
  · simp [hlo, Nat.lt_of_not_le hlo]

/-- The bits of a byte under the mask of a bit group. -/
theorem getLsbD_mask {w lo : Nat} (hin : lo + w ≤ 8) (q : Nat) :
    ((BitVec.allOnes w).setWidth 8 <<< lo).getLsbD q = decide (lo ≤ q ∧ q < lo + w) := by
  rw [getLsbD_placed _ hin, BitVec.getLsbD_allOnes, Bool.decide_and]
  by_cases hlo : lo ≤ q
  · simp only [hlo, decide_true, Bool.true_and, decide_eq_decide]
    omega
  · simp [hlo]

/-- Every bit of an image after `put_bits` (R108). -/
theorem Memory.getLsbD_read_putBits (m : Memory) {a lo w : Nat} (v : BitVec w) (ha : a < 256) (hin : lo + w ≤ 8)
    (x q : Nat) :
    ((m.putBits a lo w v).read x).getLsbD q =
      if x = a ∧ lo ≤ q ∧ q < lo + w then v.getLsbD (q - lo) else (m.read x).getLsbD q := by
  rw [Memory.putBits, Memory.read_write _ _ _ ha]
  by_cases hx : x = a
  · have hbyte : 8 ≤ q → (m.read a).getLsbD q = false := BitVec.getLsbD_of_ge _ _
    have hgroup : w ≤ q - lo → v.getLsbD (q - lo) = false := BitVec.getLsbD_of_ge _ _
    simp only [hx, if_true, BitVec.getLsbD_or, BitVec.getLsbD_and, BitVec.getLsbD_not, getLsbD_mask hin,
      getLsbD_placed v hin]
    grind
  · rw [if_neg hx, if_neg fun h => hx h.1]

theorem Memory.getLsbD_getBits (m : Memory) (a lo w i : Nat) :
    (m.getBits a lo w).getLsbD i = (decide (i < w) && (m.read a).getLsbD (lo + i)) :=
  BitVec.getLsbD_extractLsb' ..

theorem Memory.putBit_eq_putBits (m : Memory) (a p : Nat) (v : BitVec 1) : m.putBit a p v = m.putBits a p 1 v := rfl

theorem Memory.getBit_eq_getBits (m : Memory) (a p : Nat) : m.getBit a p = m.getBits a p 1 := rfl

theorem Memory.getBits_putBits (m : Memory) {a lo w : Nat} (v : BitVec w) (ha : a < 256) (hin : lo + w ≤ 8) :
    (m.putBits a lo w v).getBits a lo w = v := by
  apply BitVec.eq_of_getLsbD_eq
  intro i hi
  rw [Memory.getLsbD_getBits, Memory.getLsbD_read_putBits m v ha hin, if_pos (by omega), Nat.add_sub_cancel_left,
    decide_eq_true hi, Bool.true_and]

theorem Memory.getLsbD_putBits_frame (m : Memory) {a lo w x q : Nat} (v : BitVec w) (ha : a < 256) (hin : lo + w ≤ 8)
    (h : x ≠ a ∨ q < lo ∨ lo + w ≤ q) : ((m.putBits a lo w v).read x).getLsbD q = (m.read x).getLsbD q := by
  rw [Memory.getLsbD_read_putBits m v ha hin, if_neg (by omega)]

theorem Memory.read_putBits_getBits (m : Memory) {a lo w : Nat} (ha : a < 256) (hin : lo + w ≤ 8) (x : Nat) :
    (m.putBits a lo w (m.getBits a lo w)).read x = m.read x := by
  apply BitVec.eq_of_getLsbD_eq
  intro q _
  rw [Memory.getLsbD_read_putBits m _ ha hin, Memory.getLsbD_getBits]
  split
  · next h =>
    obtain ⟨rfl, hlo, hhi⟩ := h
    rw [decide_eq_true (by omega), Bool.true_and, Nat.add_sub_cancel' hlo]
  · rfl

/-- Puts to bit groups without a bit in common commute (R112 d). -/
theorem Memory.read_putBits_comm (m : Memory) {a lo w b lo' w' : Nat} (v : BitVec w) (u : BitVec w') (ha : a < 256)
    (hin : lo + w ≤ 8) (hb : b < 256) (hin' : lo' + w' ≤ 8) (h : b ≠ a ∨ lo' + w' ≤ lo ∨ lo + w ≤ lo') (x : Nat) :
    ((m.putBits a lo w v).putBits b lo' w' u).read x = ((m.putBits b lo' w' u).putBits a lo w v).read x := by
  apply BitVec.eq_of_getLsbD_eq
  intro q _
  simp only [Memory.getLsbD_read_putBits _ _ ha hin, Memory.getLsbD_read_putBits _ _ hb hin']
  by_cases hfirst : x = a ∧ lo ≤ q ∧ q < lo + w
  · rw [if_neg (by omega), if_pos hfirst, if_pos hfirst]
  · rw [if_neg hfirst, if_neg hfirst]

/-- Settles O46: a single bit is a group of width 1. -/
theorem bitPrimitivesObeyTheirLaws : Obligations.BitPrimitivesObeyTheirLaws := by
  refine ⟨fun m a p v ha hp => ?_, fun m a lo w v ha hin => ?_⟩
  · simp only [Memory.putBit_eq_putBits, Memory.getBit_eq_getBits]
    exact ⟨m.getBits_putBits v ha hp, fun x q h => m.getLsbD_putBits_frame v ha hp (by omega),
      m.read_putBits_getBits ha hp, fun x b q u hb hq h => m.read_putBits_comm v u ha hp hb hq (by omega) x⟩
  · exact ⟨m.getBits_putBits v ha hin, fun x q h => m.getLsbD_putBits_frame v ha hin h, m.read_putBits_getBits ha hin⟩

/-! ### Little-endian integers (R109, R110) -/

/-- A 24-bit value is its three bytes (R110). -/
theorem append_extractLsb'_threeBytes (v : BitVec 24) :
    v.extractLsb' 16 8 ++ v.extractLsb' 8 8 ++ v.extractLsb' 0 8 = v := by
  rw [BitVec.extractLsb'_append_extractLsb'_eq_extractLsb' (by decide)]
  exact (BitVec.extractLsb'_append_extractLsb'_eq_extractLsb' (by decide)).trans BitVec.extractLsb'_eq_self

theorem Memory.extractLsb'_getLe24 (m : Memory) (a : Nat) :
    (m.getLe24 a).extractLsb' 0 8 = m.read a ∧ (m.getLe24 a).extractLsb' 8 8 = m.read (a + 1) ∧
      (m.getLe24 a).extractLsb' 16 8 = m.read (a + 2) := by
  refine ⟨BitVec.extractLsb'_append_eq_right, ?_, ?_⟩
  · exact (BitVec.extractLsb'_append_eq_of_le (by decide)).trans BitVec.extractLsb'_append_eq_right
  · exact (BitVec.extractLsb'_append_eq_of_le (by decide)).trans BitVec.extractLsb'_append_eq_left

theorem Memory.getLe24_putLe24_self (m : Memory) {a : Nat} (v : BitVec 24) (ha : a + 3 ≤ 256) :
    (m.putLe24 a v).getLe24 a = v := by
  simp [Memory.getLe24, Memory.read_putLe24 m _ v ha, append_extractLsb'_threeBytes]

theorem Memory.read_putLe16_getLe16 (m : Memory) {a : Nat} (ha : a + 2 ≤ 256) (x : Nat) :
    (m.putLe16 a (m.getLe16 a)).read x = m.read x := by
  rw [Memory.read_putLe16 m x _ ha]
  split
  · next h => rw [h]; exact extractLsb'_low_of_eq_append rfl
  split
  · next h => rw [h]; exact extractLsb'_high_of_eq_append rfl
  · rfl

theorem Memory.read_putLe24_getLe24 (m : Memory) {a : Nat} (ha : a + 3 ≤ 256) (x : Nat) :
    (m.putLe24 a (m.getLe24 a)).read x = m.read x := by
  obtain ⟨hlow, hmid, hhigh⟩ := m.extractLsb'_getLe24 a
  rw [Memory.read_putLe24 m x _ ha]
  split
  · next h => rw [h, hlow]
  split
  · next h => rw [h, hmid]
  split
  · next h => rw [h, hhigh]
  · rfl

/-- Settles O47. -/
theorem integerPrimitivesObeyTheirLaws : Obligations.IntegerPrimitivesObeyTheirLaws := by
  refine ⟨fun m a v ha => ⟨m.getLe16_putLe16_self v ha, fun x hx => ?_, m.read_putLe16_getLe16 ha⟩,
    fun m a v ha => ⟨m.getLe24_putLe24_self v ha, fun x hx => ?_, m.read_putLe24_getLe24 ha⟩⟩
  · rw [Memory.read_putLe16 m x v ha, if_neg (by omega), if_neg (by omega)]
  · rw [Memory.read_putLe24 m x v ha, if_neg (by omega), if_neg (by omega), if_neg (by omega)]

/-! ### Regions of an image (R111) -/

theorem Memory.readBytes_congr {m m' : Memory} {a n : Nat} (h : ∀ x, a ≤ x → x < a + n → m.read x = m'.read x) :
    m.readBytes a n = m'.readBytes a n :=
  List.map_congr_left fun _ hi => h _ (Nat.le_add_right ..) (Nat.add_lt_add_left (List.mem_range.1 hi) a)

theorem Memory.read_of_readBytes {m : Memory} {a n : Nat} {bs : List Byte} (h : m.readBytes a n = bs) {i : Nat}
    (hi : i < n) : m.read (a + i) = bs.getD i 0 := by
  simp [← h, Memory.readBytes, hi]

/-- `get_bytes` after `put_bytes` (R112 a). -/
theorem Memory.readBytes_writeBytes_self (m : Memory) {a n : Nat} (bs : List Byte) (hn : bs.length = n)
    (hin : a + n ≤ 256) : (m.writeBytes a bs).readBytes a n = bs := by
  subst hn
  refine List.ext_getElem (by simp [Memory.readBytes]) fun i _ hi => ?_
  simp [Memory.readBytes, Memory.read_writeBytes_of_lt bs m hin hi]

/-! ### The fixed fields (R113 to R125) -/

/-- Bytes 0x00 to 0x0D of an encoded image. -/
def headerFields (l : Config.Layout) (r : Regs) : List Byte :=
  [miscFlags r, 0, r.usbVid.extractLsb' 0 8, r.usbVid.extractLsb' 8 8, r.usbPid.extractLsb' 0 8,
    r.usbPid.extractLsb' 8 8, if l.releaseMajorAt = 0x06 then r.usbReleaseMajor else r.usbReleaseMinor,
    if l.releaseMajorAt = 0x06 then r.usbReleaseMinor else r.usbReleaseMajor, powerFlags l r, r.maxPower,
    peripheralFlags l r, inversionFlags r, driveControls r, 0]

/-- Bytes 0x14 to 0x23 of an encoded image. -/
def peripheralFields (r : Regs) : List Byte :=
  [r.i2cSlaveAddr.extractLsb' 0 8, r.i2cSlaveAddr.extractLsb' 8 8, r.i2cDeviceId.extractLsb' 0 8,
    r.i2cDeviceId.extractLsb' 8 8, r.i2cDeviceId.extractLsb' 16 8, 0, r.cbusMode0, r.cbusMode1, r.cbusMode2,
    r.cbusMode3, r.cbusMode4, r.cbusMode5, r.cbusMode6, 0, 0, 0]

theorem readBytes_putHeader {l : Config.Layout} (hl : l.releaseMajorAt = 0x06 ∨ l.releaseMajorAt = 0x07) (r : Regs) :
    (putHeader l r Memory.zeroFilled).readBytes 0x00 14 = headerFields l r := by
  rcases hl with h | h <;>
    simp [Memory.readBytes, List.range_succ, putHeader, headerFields, Config.Layout.releaseMinorAt, h,
      Memory.read_write, Memory.read_putLe16]

theorem read_putHeader_of_ge (l : Config.Layout) (r : Regs) (m : Memory) {x : Nat}
    (hl : l.releaseMajorAt = 0x06 ∨ l.releaseMajorAt = 0x07) (hx : 0x0D ≤ x) : (putHeader l r m).read x = m.read x := by
  have hmajor : x ≠ l.releaseMajorAt := by omega
  have hminor : x ≠ l.releaseMinorAt := by unfold Config.Layout.releaseMinorAt; omega
  simp (disch := omega) only [putHeader, Memory.read_write_of_ne _ _ hmajor, Memory.read_write_of_ne _ _ hminor,
    Memory.read_write_of_ne, Memory.read_putLe16, if_neg]

theorem readBytes_putPeripherals (r : Regs) {m : Memory} (h : ∀ x, 0x14 ≤ x → x < 0x24 → m.read x = 0) :
    (putPeripherals r m).readBytes 0x14 16 = peripheralFields r := by
  simp [Memory.readBytes, List.range_succ, putPeripherals, peripheralFields, Memory.read_write, Memory.read_putLe16,
    Memory.read_putLe24, h]

theorem read_putPeripherals_of_not_mem (r : Regs) (m : Memory) {x : Nat} (hx : x < 0x14 ∨ 0x24 ≤ x) :
    (putPeripherals r m).read x = m.read x := by
  unfold putPeripherals
  rw [Memory.read_writeBytes_of_not_mem _ _ (by simp only [List.length_cons, List.length_nil]; omega),
    Memory.read_putLe24 _ _ _ (by decide), Memory.read_putLe16 _ _ _ (by decide)]
  repeat rw [if_neg (by omega)]

/-! ### The opaque regions (R126, R127) -/

section Regions

variable (umem : Vector Byte 92) (fcfg : Vector Byte 32) (m : Memory)

theorem readBytes_putRegions_umem : (putRegions umem fcfg m).readBytes 0x24 92 = umem.toList := by
  refine Eq.trans (Memory.readBytes_congr fun x _ hx => ?_) (m.readBytes_writeBytes_self umem.toList (by simp) (by decide))
  exact Memory.read_writeBytes_of_not_mem _ _ (.inl hx)

theorem readBytes_putRegions_fcfg : (putRegions umem fcfg m).readBytes 0x80 32 = fcfg.toList :=
  Memory.readBytes_writeBytes_self _ _ (by simp) (by decide)

theorem read_putRegions_of_not_mem {x : Nat} (hx : x < 0x24 ∨ 0xA0 ≤ x) :
    (putRegions umem fcfg m).read x = m.read x := by
  have humem : x < 0x24 ∨ 0x24 + umem.toList.length ≤ x := by rw [Vector.length_toList]; omega
  have hfcfg : x < 0x80 ∨ 0x80 + fcfg.toList.length ≤ x := by rw [Vector.length_toList]; omega
  exact (Memory.read_writeBytes_of_not_mem _ _ hfcfg).trans (Memory.read_writeBytes_of_not_mem _ _ humem)

end Regions

/-! ### The three strings (R122) -/

/-- Where the blob of each string begins (R100, R122). -/
def blobStart (t : Strs) (mode : Mode) : StrReg → Nat
  | .manufacturer => 0xA0
  | .product => 0xA0 + emittedLen t.manufacturer mode
  | .serial => 0xA0 + emittedLen t.manufacturer mode + emittedLen t.product mode

/-- The cursor after the last blob (R122). -/
def finalCursor (t : Strs) (mode : Mode) : Nat := blobStart t mode .serial + emittedLen t.serial mode

theorem blobStart_ge (t : Strs) (mode : Mode) (n : StrReg) : 0xA0 ≤ blobStart t mode n := by
  cases n <;> simp only [blobStart] <;> omega

theorem blobStart_add_emittedLen_le (t : Strs) (mode : Mode) (n : StrReg) :
    blobStart t mode n + emittedLen (t.get n) mode ≤ finalCursor t mode := by
  cases n <;> simp only [blobStart, finalCursor, Strs.get] <;> omega

theorem finalCursor_ge (t : Strs) (mode : Mode) : 0xA0 ≤ finalCursor t mode :=
  Nat.le_trans (blobStart_ge t mode .serial) (Nat.le_add_right ..)

/-- A blob stands at `cur`, in the bytes below the stored checksum, with its descriptor in slot `k`. -/
structure BlobStands (img : Memory) (t : Text) (k : Slot) (cur : Nat) (m : Mode) : Prop where
  bytes : ∀ i < emittedLen t m, cur + i < 0xFE → (blob t m)[i]? = some (img.read (cur + i))
  offset : img.read (descriptorAddr k) = BitVec.ofNat 8 cur
  length : img.read (descriptorAddr k + 1) = BitVec.ofNat 8 (emittedLen t m)

section Blobs

variable {img img' : Memory} {t t' : Text} {k k' : Slot} {cur cur' : Nat} {m : Mode}

theorem BlobLaid.stands (h : BlobLaid img img' t k cur m) : BlobStands img' t k cur m :=
  ⟨fun i hi _ => h.bytes i hi, h.offset, h.length⟩

/-- A blob stands where an image agrees on the descriptors and on the bytes of the blob below the checksum. -/
theorem BlobStands.congr (h : BlobStands img t k cur m)
    (hdescriptor : ∀ x, x = descriptorAddr k ∨ x = descriptorAddr k + 1 → img'.read x = img.read x)
    (hbytes : ∀ x, cur ≤ x → x < cur + emittedLen t m → x < 0xFE → img'.read x = img.read x) :
    BlobStands img' t k cur m := by
  refine ⟨fun i hi hlow => ?_, ?_, ?_⟩
  · rw [hbytes _ (by omega) (by omega) hlow]
    exact h.bytes i hi hlow
  · rw [hdescriptor _ (.inl rfl)]
    exact h.offset
  · rw [hdescriptor _ (.inr rfl)]
    exact h.length

/-- A blob laid later, in another slot and above, leaves a blob standing. -/
theorem BlobLaid.keeps (hlaid : BlobLaid img img' t' k' cur' m) (h : BlobStands img t k cur m) (hk : k ≠ k')
    (hcur : 0xA0 ≤ cur) (habove : cur + emittedLen t m ≤ cur') : BlobStands img' t k cur m := by
  have hne : k.val ≠ k'.val := fun he => hk (Fin.ext he)
  have hlow := descriptorAddr_add_one_lt k
  have hlow' := descriptorAddr_add_one_lt k'
  refine h.congr (fun x hx => ?_) fun x hlo hhi _ => ?_
  · refine hlaid.frame x (.inl ?_) ?_ ?_ <;> simp only [descriptorAddr, Config.descBase] at * <;> omega
  · exact hlaid.frame x (.inl (by omega)) (by omega) (by omega)

theorem BlobStands.descriptor_eq (h : BlobStands img t k cur m) (hlen : emittedLen t m < 256) :
    descriptor img k.val = (cur % 256, emittedLen t m) := by
  have hoffset : img.read (0x0E + 2 * k.val) = BitVec.ofNat 8 cur := h.offset
  have hlength : img.read (0x0F + 2 * k.val) = BitVec.ofNat 8 (emittedLen t m) := descriptorAddr_add_one k ▸ h.length
  simp [descriptor, hoffset, hlength, Nat.mod_eq_of_lt hlen]

end Blobs

/-- `img'` is `img` with the three blobs and their descriptors. -/
structure StringsLaid (img img' : Memory) (t : Strs) (mode : Mode) : Prop where
  blobs : ∀ n, BlobStands img' (t.get n) n.slot (blobStart t mode n) mode
  frame : ∀ x, x < 0x0E ∨ (0x14 ≤ x ∧ x < 0xA0) ∨ finalCursor t mode ≤ x → img'.read x = img.read x

theorem putStrings_lays (img : Memory) {t : Strs} {mode : Mode} (hfit : finalCursor t mode ≤ 256) :
    ∃ img', putStrings img t mode = .ok (img', finalCursor t mode) ∧ StringsLaid img img' t mode := by
  simp only [finalCursor, blobStart] at hfit
  obtain ⟨img₀, he₀, h₀⟩ := strEncode_lays img t.manufacturer StrReg.manufacturer.slot (cur := 0xA0) mode le_rfl (by omega)
  obtain ⟨img₁, he₁, h₁⟩ := strEncode_lays img₀ t.product StrReg.product.slot
    (cur := 0xA0 + emittedLen t.manufacturer mode) mode (by omega) (by omega)
  obtain ⟨img₂, he₂, h₂⟩ := strEncode_lays img₁ t.serial StrReg.serial.slot
    (cur := 0xA0 + emittedLen t.manufacturer mode + emittedLen t.product mode) mode (by omega) (by omega)
  refine ⟨img₂, ?_, fun n => ?_, fun x hx => ?_⟩
  · simp only [putStrings, he₀, he₁, bind, Except.bind]
    exact he₂
  · cases n with
    | manufacturer =>
      exact h₂.keeps (h₁.keeps h₀.stands (by decide) le_rfl le_rfl) (by decide) le_rfl (Nat.le_add_right ..)
    | product => exact h₂.keeps h₁.stands (by decide) (Nat.le_add_right ..) le_rfl
    | serial => exact h₂.stands
  · simp only [finalCursor, blobStart] at hx
    have hdescriptor : x ≠ 0x0E ∧ x ≠ 0x0F ∧ x ≠ 0x10 ∧ x ≠ 0x11 ∧ x ≠ 0x12 ∧ x ≠ 0x13 := by omega
    obtain ⟨ha, hb, hc, hd, he, hf⟩ := hdescriptor
    rw [h₂.frame x (by omega) he hf, h₁.frame x (by omega) hc hd, h₀.frame x (by omega) ha hb]

/-- A blob that was encoded fits, and the cursor moves past it (R96). -/
theorem strEncode_ok_fits {img img' : Memory} {t : Text} {k : Slot} {cur next : Nat} {m : Mode}
    (h : strEncode img t k cur m = .ok (img', next)) : next = cur + emittedLen t m ∧ next ≤ 256 := by
  rcases strEncode_cases img t k cur m with ⟨hfit, he⟩ | ⟨-, he⟩
  · rw [he] at h
    cases h
    exact ⟨rfl, hfit⟩
  · rw [he] at h
    cases h

/-- Strings that were encoded fit (R39). -/
theorem putStrings_ok_fits {img img' : Memory} {t : Strs} {mode : Mode} {cur : Nat}
    (h : putStrings img t mode = .ok (img', cur)) : finalCursor t mode ≤ 256 := by
  obtain ⟨⟨img₀, c₀⟩, h₀, h⟩ := bind_eq_ok_iff.1 h
  obtain ⟨⟨img₁, c₁⟩, h₁, h₂⟩ := bind_eq_ok_iff.1 h
  obtain ⟨hc₀, -⟩ := strEncode_ok_fits h₀
  obtain ⟨hc₁, -⟩ := strEncode_ok_fits h₁
  obtain ⟨hcur, hmax⟩ := strEncode_ok_fits h₂
  rwa [hcur, hc₁, hc₀] at hmax

/-- The address and length of the first blob that does not fit, as in `firstMisfit` (R131). -/
theorem putStrings_misfit (img : Memory) {s : State} (hout : 256 < finalCursor s.strs s.mode) :
    putStrings img s.strs s.mode = .error (.boundsFault (firstMisfit s).1 (firstMisfit s).2) := by
  simp only [finalCursor, blobStart] at hout
  simp only [firstMisfit, emitted_eq_emittedLen, Strs.get]
  by_cases h₀ : 256 < 0xA0 + emittedLen s.strs.manufacturer s.mode
  · rw [if_pos h₀]
    simp only [putStrings, strEncode_misfit _ _ _ _ h₀, bind, Except.bind]
  obtain ⟨img₀, he₀, -⟩ := strEncode_lays img s.strs.manufacturer StrReg.manufacturer.slot (cur := 0xA0) s.mode le_rfl
    (by omega)
  rw [if_neg h₀]
  by_cases h₁ : 256 < 0xA0 + emittedLen s.strs.manufacturer s.mode + emittedLen s.strs.product s.mode
  · rw [if_pos h₁]
    simp only [putStrings, he₀, strEncode_misfit _ _ _ _ h₁, bind, Except.bind]
  obtain ⟨img₁, he₁, -⟩ := strEncode_lays img₀ s.strs.product StrReg.product.slot
    (cur := 0xA0 + emittedLen s.strs.manufacturer s.mode) s.mode (by omega) (by omega)
  rw [if_neg h₁]
  simp only [putStrings, he₀, he₁, strEncode_misfit _ _ _ _ hout, bind, Except.bind]

/-! ### The encoded image (R130) -/

/-- What an encoding leaves in the image, region by region. -/
structure Encoded (l : Config.Layout) (r : Record) (mode : Mode) (m : Memory) : Prop where
  header : m.readBytes 0x00 14 = headerFields l r.regs
  peripherals : m.readBytes 0x14 16 = peripheralFields r.regs
  umem : m.readBytes 0x24 92 = r.umem.toList
  fcfg : m.readBytes 0x80 32 = r.fcfg.toList
  blobs : ∀ n, BlobStands m (r.strs.get n) n.slot (blobStart r.strs mode n) mode
  rest : ∀ x, finalCursor r.strs mode ≤ x → x < 0xFE → m.read x = 0
  checksum : m.getLe16 0xFE = csumCompute m

/-- What the steps after the strings leave unchanged: the header, the descriptors and the string area below the checksum. -/
theorem read_after_strings (r : Record) (m : Memory) (c : Half) {x : Nat} (hx : x < 0x14 ∨ (0xA0 ≤ x ∧ x < 0xFE)) :
    ((putRegions r.umem r.fcfg (putPeripherals r.regs m)).putLe16 0xFE c).read x = m.read x := by
  rw [Memory.read_putLe16 _ _ _ (by decide), if_neg (by omega), if_neg (by omega),
    read_putRegions_of_not_mem _ _ _ (by omega), read_putPeripherals_of_not_mem _ _ (by omega)]

/-- The stamped image has every region, when its strings are laid over the header. -/
theorem encoded_of_stringsLaid {l : Config.Layout} (hl : l.releaseMajorAt = 0x06 ∨ l.releaseMajorAt = 0x07) {r : Record}
    {mode : Mode} {m : Memory} (h : StringsLaid (putHeader l r.regs Memory.zeroFilled) m r.strs mode) (c : Half)
    (hc : c = csumCompute (putRegions r.umem r.fcfg (putPeripherals r.regs m))) :
    Encoded l r mode ((putRegions r.umem r.fcfg (putPeripherals r.regs m)).putLe16 0xFE c) := by
  have hzero : ∀ x, (0x14 ≤ x ∧ x < 0xA0) ∨ finalCursor r.strs mode ≤ x → m.read x = 0 := fun x hx => by
    have hcursor := finalCursor_ge r.strs mode
    rw [h.frame x (.inr hx), read_putHeader_of_ge l _ _ hl (by omega), Memory.read_zeroFilled]
  have hlow : ∀ x, x < 0xFE → ((putRegions r.umem r.fcfg (putPeripherals r.regs m)).putLe16 0xFE c).read x =
      (putRegions r.umem r.fcfg (putPeripherals r.regs m)).read x := fun x hx => by
    rw [Memory.read_putLe16 _ _ _ (by decide), if_neg (by omega), if_neg (by omega)]
  refine ⟨?_, ?_, ?_, ?_, fun n => ?_, fun x hlo hhi => ?_, ?_⟩
  · rw [← readBytes_putHeader hl]
    refine Memory.readBytes_congr fun x _ hx => ?_
    rw [read_after_strings r m c (by omega), h.frame x (by omega)]
  · rw [← readBytes_putPeripherals r.regs fun x hlo hhi => hzero x (by omega)]
    refine Memory.readBytes_congr fun x _ hx => ?_
    rw [hlow x (by omega), read_putRegions_of_not_mem _ _ _ (by omega)]
  · rw [← readBytes_putRegions_umem r.umem r.fcfg (putPeripherals r.regs m)]
    exact Memory.readBytes_congr fun x _ hx => hlow x (by omega)
  · rw [← readBytes_putRegions_fcfg r.umem r.fcfg (putPeripherals r.regs m)]
    exact Memory.readBytes_congr fun x _ hx => hlow x (by omega)
  · have hstart := blobStart_ge r.strs mode n
    have hslot := n.slot.isLt
    refine (h.blobs n).congr (fun x hx => read_after_strings r m c ?_) fun x hlo _ hhi => read_after_strings r m c (by omega)
    simp only [descriptorAddr, Config.descBase] at hx
    omega
  · have hcursor := finalCursor_ge r.strs mode
    rw [read_after_strings r m c (by omega), hzero x (by omega)]
  · rw [Memory.getLe16_putLe16_self _ _ (by decide), csumCompute_putLe16_csumAddr, hc]

theorem encodeImage_fits {l : Config.Layout} (hl : l.releaseMajorAt = 0x06 ∨ l.releaseMajorAt = 0x07) {r : Record}
    {mode : Mode} (hbudget : totalLength r.strs ≤ 96) (hfit : finalCursor r.strs mode ≤ 256) :
    ∃ m, encodeImage l r mode = .ok (m, finalCursor r.strs mode, csumCompute m) ∧ Encoded l r mode m := by
  obtain ⟨m, hstrings, hlaid⟩ := putStrings_lays (putHeader l r.regs Memory.zeroFilled) hfit
  refine ⟨_, ?_, encoded_of_stringsLaid hl hlaid _ rfl⟩
  simp only [encodeImage, checkBudget_of_le hbudget, hstrings, stamp_eq, csumCompute_putLe16_csumAddr]
  rfl

/-- A completed encoding had strings that fit, and left every region. -/
theorem encodeImage_ok_encoded {l : Config.Layout} (hl : l.releaseMajorAt = 0x06 ∨ l.releaseMajorAt = 0x07) {r : Record}
    {mode : Mode} {m : Memory} {cur : Nat} {c : Half} (h : encodeImage l r mode = .ok (m, cur, c)) :
    cur = finalCursor r.strs mode ∧ Encoded l r mode m := by
  obtain ⟨total, hbudget, hbody⟩ := bind_eq_ok_iff.1 h
  obtain ⟨⟨img, next⟩, hstrings, -⟩ := bind_eq_ok_iff.1 hbody
  have hwithin : totalLength r.strs ≤ 96 := by
    by_contra hover
    rw [checkBudget_of_gt (by omega)] at hbudget
    cases hbudget
  obtain ⟨m', he, hencoded⟩ := encodeImage_fits hl hwithin (putStrings_ok_fits hstrings)
  rw [he] at h
  cases h
  exact ⟨rfl, hencoded⟩

/-! ### FLD.ENCODE (R131) -/

theorem exec_fldEncode_ok {s : State} {m : Memory} {cur : Nat} {c : Half} (hs : s.Operating)
    (he : encodeImage fieldLayout s.record s.mode = .ok (m, cur, c)) :
    exec .fldEncode s =
      .next (answered { s with img := m, cur := BitVec.ofNat 9 cur, csum := c } (c.setWidth 32)) := by
  refine (whenOperating_of_operating hs _).trans ?_
  rw [he]
  rfl

theorem exec_fldEncode_error {s : State} {e : EngineError} (hs : s.Operating)
    (he : encodeImage fieldLayout s.record s.mode = .error e) : exec .fldEncode s = .next (s.raise e) := by
  refine (whenOperating_of_operating hs _).trans ?_
  rw [he]
  rfl

theorem finalCursor_eq (s : State) : finalCursor s.strs s.mode = 0xA0 + emittedTotal s := by
  simp only [finalCursor, blobStart, emittedTotal, emitted_eq_emittedLen, Strs.get]
  omega

theorem exec_fldEncode_over {s : State} (hs : s.Operating) (h : 96 < characters s) :
    exec .fldEncode s = .next (raised s .stringTableOverflow (BitVec.ofNat 16 (characters s)) 96) := by
  refine (exec_fldEncode_error (e := .stringTableOverflow (characters s)) hs ?_).trans rfl
  simp only [encodeImage, State.record_strs, checkBudget_of_gt h]
  rfl

theorem exec_fldEncode_misfit {s : State} (hs : s.Operating) (hbudget : characters s ≤ 96)
    (hout : 96 < emittedTotal s) :
    exec .fldEncode s =
      .next (raised s .boundsFault (BitVec.ofNat 16 (firstMisfit s).1) (BitVec.ofNat 16 (firstMisfit s).2)) := by
  refine (exec_fldEncode_error (e := .boundsFault (firstMisfit s).1 (firstMisfit s).2) hs ?_).trans rfl
  have hcursor : 256 < finalCursor s.strs s.mode := by rw [finalCursor_eq]; omega
  simp only [encodeImage, State.record_strs, checkBudget_of_le (t := s.strs) hbudget, putStrings_misfit _ hcursor]
  rfl

/-- `s` after a `FLD.ENCODE` that completed with the image `m`. -/
def encodedTo (s : State) (m : Memory) : State :=
  answered { s with img := m, cur := BitVec.ofNat 9 (0xA0 + emittedTotal s), csum := csumCompute m }
    ((csumCompute m).setWidth 32)

theorem exec_fldEncode_fits {s : State} (hs : s.Operating) (hbudget : characters s ≤ 96) (hfit : emittedTotal s ≤ 96) :
    ∃ m, exec .fldEncode s = .next (encodedTo s m) ∧ Encoded fieldLayout s.record s.mode m := by
  have hcursor : finalCursor s.strs s.mode ≤ 256 := by rw [finalCursor_eq]; omega
  obtain ⟨m, he, hencoded⟩ := encodeImage_fits (l := fieldLayout) (.inr rfl) (r := s.record) hbudget hcursor
  rw [State.record_strs, finalCursor_eq] at he
  exact ⟨m, exec_fldEncode_ok hs he, hencoded⟩

/-- A `FLD.ENCODE` that completed had strings within both bounds. -/
theorem exec_fldEncode_completed {s t : State} (hs : s.Operating) (h : exec .fldEncode s = .next t) (ht : t.err = .none) :
    emittedTotal s ≤ 96 ∧ ∃ m, t = encodedTo s m ∧ Encoded fieldLayout s.record s.mode m := by
  by_cases hbudget : characters s ≤ 96
  · by_cases hfit : emittedTotal s ≤ 96
    · obtain ⟨m, he, hencoded⟩ := exec_fldEncode_fits hs hbudget hfit
      rw [he] at h
      cases h
      exact ⟨hfit, m, rfl, hencoded⟩
    · rw [exec_fldEncode_misfit hs hbudget (by omega)] at h
      cases h
      cases ht
  · rw [exec_fldEncode_over hs (by omega)] at h
    cases h
    cases ht

/-- Settles O49. -/
theorem fldEncodeRefusesOverlongStrings : Obligations.FldEncodeRefusesOverlongStrings :=
  fun _ hs => ⟨exec_fldEncode_over hs, exec_fldEncode_misfit hs⟩

theorem emittedTotal_of_narrow {s : State} (h : s.mode = .narrow) : emittedTotal s = characters s := by
  simp only [emittedTotal, emitted, h]
  rfl

theorem emittedTotal_of_wide {s : State} (h : s.mode = .wide) : emittedTotal s = 6 + 2 * characters s := by
  simp only [emittedTotal, emitted, h, characters, Strs.get]
  omega

/-- The strings are within the budget and do not fit exactly in wide mode from 46 characters on (R189). -/
theorem misfit_iff_wide (s : State) :
    (characters s ≤ 96 ∧ 96 < emittedTotal s) ↔ (s.mode = .wide ∧ 46 ≤ characters s ∧ characters s ≤ 96) := by
  cases hm : s.mode with
  | narrow =>
    rw [emittedTotal_of_narrow hm]
    simp only [reduceCtorEq, false_and, iff_false]
    omega
  | wide =>
    rw [emittedTotal_of_wide hm]
    simp only [true_and]
    omega

/-- Settles O55: of the three ends of `FLD.ENCODE` only the misfit has this error. -/
theorem encodeBoundsFaultsExactlyInWideMode : Obligations.EncodeBoundsFaultsExactlyInWideMode := by
  intro s t hs h
  rw [← misfit_iff_wide]
  by_cases hbudget : characters s ≤ 96
  · by_cases hfit : emittedTotal s ≤ 96
    · obtain ⟨m, he, -⟩ := exec_fldEncode_fits hs hbudget hfit
      rw [he] at h
      cases h
      have herr : (encodedTo s m).err = .none := hs
      simp [herr, hfit]
    · rw [exec_fldEncode_misfit hs hbudget (by omega)] at h
      cases h
      simp only [raised, true_iff]
      omega
  · rw [exec_fldEncode_over hs (by omega)] at h
    cases h
    simp [raised, hbudget]

/-- Settles O56: the encoder's arguments are the record and the mode. -/
theorem encodeIgnoresOldImage : Obligations.EncodeIgnoresOldImage := by
  intro s s' t t' hs hs' hrecord hmode h h' ht
  cases he : encodeImage fieldLayout s.record s.mode with
  | ok x =>
    obtain ⟨m, cur, c⟩ := x
    have he' : encodeImage fieldLayout s'.record s'.mode = .ok (m, cur, c) := by rw [← hrecord, ← hmode, he]
    rw [exec_fldEncode_ok hs he] at h
    rw [exec_fldEncode_ok hs' he'] at h'
    cases h
    cases h'
    exact ⟨rfl, rfl, rfl, hs', rfl⟩
  | error e =>
    rw [exec_fldEncode_error hs he] at h
    cases h
    exact absurd ht (EngineError.code_ne_none e)

/-- Settles O57: the stored checksum is the computed one. -/
theorem encodedImageVerifies : Obligations.EncodedImageVerifies := by
  intro s t hs h ht
  obtain ⟨-, m, rfl, hencoded⟩ := exec_fldEncode_completed hs h ht
  rw [exec_csumVerify ht]
  exact congrArg _ (if_pos hencoded.checksum.symm)

/-! ### Packed bytes (R10, R112 d) -/

theorem testBit_packed (bits : List (BitVec 1)) (i : Nat) :
    (bits.foldr (fun (b : BitVec 1) n => b.toNat + 2 * n) 0).testBit i = (bits.getD i 0).getLsbD 0 := by
  induction bits generalizing i with
  | nil => simp
  | cons b bits ih =>
    have hb : b.toNat < 2 := b.isLt
    rw [List.foldr_cons]
    cases i with
    | zero => simp [Nat.testBit_zero, BitVec.getLsbD]
    | succ i =>
      rw [Nat.testBit_succ, List.getD_cons_succ, ← ih]
      congr 1
      omega

theorem getLsbD_packedByte (bits : List (BitVec 1)) {i : Nat} (hi : i < 8) :
    (packedByte bits).getLsbD i = (bits.getD i 0).getLsbD 0 := by
  rw [packedByte, BitVec.getLsbD_ofNat, testBit_packed, decide_eq_true hi, Bool.true_and]

/-- A byte is packed from the bits it has (R10). -/
theorem eq_packedByte_of_bits {x : Byte} {bits : List (BitVec 1)} (h : ∀ i, (hi : i < 8) → x[i] = (bits.getD i 0)[0]) :
    x = packedByte bits := by
  apply BitVec.eq_of_getLsbD_eq
  intro i hi
  rw [getLsbD_packedByte bits hi, BitVec.getLsbD_eq_getElem hi, h i hi, BitVec.getLsbD_eq_getElem]

theorem getElem_flagAt (v : BitVec 1) {p q : Nat} (hp : p < 8) (hq : q < 8) :
    (flagAt v p)[q] = (decide (p = q) && v[0]) := by
  rw [← BitVec.getLsbD_eq_getElem, flagAt, getLsbD_placed v hp]
  rcases Nat.lt_trichotomy p q with h | h | h
  · rw [BitVec.getLsbD_of_ge v _ (by omega), decide_eq_false (by omega : p ≠ q), Bool.and_false, Bool.false_and]
  · simp [h]
  · rw [decide_eq_false (by omega : p ≠ q), decide_eq_false (by omega), Bool.false_and, Bool.false_and]

section PackedFlags

variable (r : Regs)

theorem miscFlags_eq_packedByte : miscFlags r = packedByte [r.bcdEnable, r.forcePowerEnable, r.deactivateSleep,
    r.rs485EchoSuppress, r.extOsc, r.extOscFeedback, r.vbusSenseAlloc, r.loadVcp] :=
  eq_packedByte_of_bits fun i hi => by interval_cases i <;> simp [miscFlags, getElem_flagAt]

theorem powerFlags_eq_packedByte :
    powerFlags fieldLayout r = packedByte [0, 0, 0, 0, 0, r.remoteWakeup, r.selfPowered, 1] :=
  eq_packedByte_of_bits fun i hi => by interval_cases i <;> simp [powerFlags, fieldLayout, getElem_flagAt]

theorem peripheralFlags_eq_packedByte : peripheralFlags fieldLayout r = packedByte [0, 0, r.suspendPullDown,
    r.serialNumberAvail, r.ft1248Cpol, r.ft1248Bord, r.ft1248FlowControl, r.disableI2cSchmitt] :=
  eq_packedByte_of_bits fun i hi => by interval_cases i <;> simp [peripheralFlags, fieldLayout, getElem_flagAt]

theorem inversionFlags_eq_packedByte : inversionFlags r = packedByte [r.invertTxd, r.invertRxd, r.invertRts,
    r.invertCts, r.invertDtr, r.invertDsr, r.invertDcd, r.invertRi] :=
  eq_packedByte_of_bits fun i hi => by interval_cases i <;> simp [inversionFlags, getElem_flagAt]

theorem driveControls_eq_packedByte : driveControls r = packedByte [r.dbusDrive.extractLsb' 0 1,
    r.dbusDrive.extractLsb' 1 1, r.dbusSlowSlew, r.dbusSchmitt, r.cbusDrive.extractLsb' 0 1,
    r.cbusDrive.extractLsb' 1 1, r.cbusSlowSlew, r.cbusSchmitt] :=
  eq_packedByte_of_bits fun i hi => by interval_cases i <;> simp [driveControls, getElem_flagAt]

end PackedFlags

/-! ### Every byte of the image that FLD.ENCODE makes (R43) -/

/-- Bytes 0x0E to 0x13: the three descriptors (R70). -/
def descriptorFields (t : Strs) (mode : Mode) : List Byte :=
  [0xA0, BitVec.ofNat 8 (emittedLen t.manufacturer mode), BitVec.ofNat 8 (blobStart t mode .product),
    BitVec.ofNat 8 (emittedLen t.product mode), BitVec.ofNat 8 (blobStart t mode .serial),
    BitVec.ofNat 8 (emittedLen t.serial mode)]

theorem headerBytes_eq (s : State) :
    headerBytes s = headerFields fieldLayout s.regs ++ descriptorFields s.strs s.mode ++ peripheralFields s.regs := by
  simp only [headerBytes, headerFields, descriptorFields, peripheralFields, miscFlags_eq_packedByte,
    powerFlags_eq_packedByte, peripheralFlags_eq_packedByte, inversionFlags_eq_packedByte, driveControls_eq_packedByte,
    emitted_eq_emittedLen]
  rfl

theorem Encoded.descriptors {l : Config.Layout} {r : Record} {mode : Mode} {m : Memory} (h : Encoded l r mode m) :
    m.readBytes 0x0E 6 = descriptorFields r.strs mode := by
  obtain ⟨-, ho₀, hl₀⟩ := h.blobs .manufacturer
  obtain ⟨-, ho₁, hl₁⟩ := h.blobs .product
  obtain ⟨-, ho₂, hl₂⟩ := h.blobs .serial
  simp only [Memory.readBytes, descriptorFields]
  exact congrArg₂ _ ho₀ (congrArg₂ _ hl₀ (congrArg₂ _ ho₁ (congrArg₂ _ hl₁ (congrArg₂ _ ho₂ (congrArg₂ _ hl₂ rfl)))))

theorem Encoded.read_header {s : State} {m : Memory} (h : Encoded fieldLayout s.record s.mode m) {a : Nat}
    (ha : a < 0x24) : m.read a = (headerBytes s).getD a 0 := by
  have hbytes : m.readBytes 0x00 0x24 = headerBytes s := by
    rw [headerBytes_eq, ← State.record_regs, ← State.record_strs, ← h.header, ← h.descriptors, ← h.peripherals]
    rfl
  rw [← Memory.read_of_readBytes hbytes ha, Nat.zero_add]

/-- Below the checksum the string area holds the three blobs one after the other, then zeros (R122, R116). -/
theorem Encoded.read_strings {l : Config.Layout} {r : Record} {mode : Mode} {m : Memory} (h : Encoded l r mode m)
    {j : Nat} (hj : 0xA0 + j < 0xFE) :
    m.read (0xA0 + j) =
      (blob r.strs.manufacturer mode ++ blob r.strs.product mode ++ blob r.strs.serial mode).getD j 0 := by
  have hblob (n : StrReg) {i : Nat} (hi : i < emittedLen (r.strs.get n) mode)
      (hat : blobStart r.strs mode n + i = 0xA0 + j) : (blob (r.strs.get n) mode).getD i 0 = m.read (0xA0 + j) := by
    rw [List.getD_eq_getElem?_getD, (h.blobs n).bytes i hi (by omega), hat]
    rfl
  by_cases h₀ : j < emittedLen r.strs.manufacturer mode
  · rw [List.getD_append _ _ _ _ (by rw [List.length_append, length_blob]; omega),
      List.getD_append _ _ _ _ (by rwa [length_blob])]
    exact (hblob .manufacturer h₀ rfl).symm
  by_cases h₁ : j < emittedLen r.strs.manufacturer mode + emittedLen r.strs.product mode
  · rw [List.getD_append _ _ _ _ (by rw [List.length_append, length_blob, length_blob]; omega),
      List.getD_append_right _ _ _ _ (by rw [length_blob]; omega), length_blob]
    exact (hblob .product (by simp only [Strs.get]; omega) (by simp only [blobStart]; omega)).symm
  rw [List.getD_append_right _ _ _ _ (by rw [List.length_append, length_blob, length_blob]; omega), List.length_append,
    length_blob, length_blob]
  by_cases h₂ : j < emittedLen r.strs.manufacturer mode + emittedLen r.strs.product mode + emittedLen r.strs.serial mode
  · exact (hblob .serial (by simp only [Strs.get]; omega) (by simp only [blobStart]; omega)).symm
  · rw [List.getD_eq_default _ _ (by rw [length_blob]; omega)]
    exact h.rest _ (by simp only [finalCursor, blobStart]; omega) hj

theorem Encoded.read_eq_encodedByte {s : State} {m : Memory} (h : Encoded fieldLayout s.record s.mode m) {a : Nat}
    (ha : a < 0xFE) : m.read a = encodedByte s a := by
  unfold encodedByte
  split
  · next hheader => exact h.read_header hheader
  split
  · next hlo hhi =>
    have hread := Memory.read_of_readBytes h.umem (i := a - 0x24) (by omega)
    rwa [Nat.add_sub_cancel' (by omega)] at hread
  split
  · next hlo hhi =>
    have hread := Memory.read_of_readBytes h.fcfg (i := a - 0x80) (by omega)
    rwa [Nat.add_sub_cancel' (by omega)] at hread
  · next hlo =>
    have hread := h.read_strings (j := a - 0xA0) (by omega)
    rw [Nat.add_sub_cancel' (by omega)] at hread
    simp only [hread, blobBytes_eq_blob, State.record_strs]

/-- Settles O48. -/
theorem fldEncodeWritesEveryField : Obligations.FldEncodeWritesEveryField := by
  intro s hs hbudget hfit
  obtain ⟨m, he, hencoded⟩ := exec_fldEncode_fits hs hbudget hfit
  refine ⟨decode_cmdWord rfl rfl, encodedTo s m, he, fun a ha => hencoded.read_eq_encodedByte ha, hencoded.checksum, ?_,
    rfl, rfl⟩
  exact (BitVec.toNat_ofNat ..).trans (Nat.mod_eq_of_lt (by omega))

/-- Settles O54: the fixed fields by their place in the header, the descriptors by their blobs. -/
theorem encodedImageInvariants : Obligations.EncodedImageInvariants := by
  intro s t hs h ht
  obtain ⟨hfit, m, rfl, hencoded⟩ := exec_fldEncode_completed hs h ht
  have hheader {a : Nat} (ha : a < 0x24) : (encodedTo s m).img.read a = (headerBytes s).getD a 0 :=
    hencoded.read_header ha
  have hdescriptor (n : StrReg) : descriptor m n.slot.val = (blobStart s.strs s.mode n % 256, emitted s n) := by
    rw [emitted_eq_emittedLen]
    refine (hencoded.blobs n).descriptor_eq ?_
    have hle := blobStart_add_emittedLen_le s.strs s.mode n
    rw [finalCursor_eq] at hle
    have hge := blobStart_ge s.strs s.mode n
    simp only [State.record_strs]
    omega
  refine ⟨?_, ?_, fun p hp => ?_, fun p hp => ?_, hdescriptor .manufacturer, ?_, ?_, hencoded.checksum⟩
  · rw [hheader (by decide)]
    exact (getLsbD_packedByte _ (by decide)).trans (by simp)
  · intro a ha
    have hlt : a < 0x24 := by revert a; decide
    rw [hheader hlt]
    simp only [List.mem_cons, List.not_mem_nil, or_false] at ha
    rcases ha with rfl | rfl | rfl | rfl | rfl | rfl <;> rfl
  · rw [hheader (by decide)]
    refine (getLsbD_packedByte _ (by omega)).trans ?_
    interval_cases p <;> simp
  · rw [hheader (by decide)]
    refine (getLsbD_packedByte _ (by omega)).trans ?_
    interval_cases p <;> simp
  · rw [emitted_eq_emittedLen s .manufacturer]
    exact hdescriptor .product
  · rw [emitted_eq_emittedLen s .manufacturer, emitted_eq_emittedLen s .product]
    exact hdescriptor .serial

/-! ### The registers that a decoding reads (R113 to R125) -/

theorem Memory.getBit_eq_ofBool (m : Memory) (a p : Nat) : m.getBit a p = BitVec.ofBool ((m.read a).getLsbD p) := by
  apply BitVec.eq_of_getLsbD_eq
  intro i hi
  obtain rfl : i = 0 := by omega
  simp [Memory.getBit]

theorem bitOf_getBit (m : Memory) (a p : Nat) : bitOf m a p (m.getBit a p) := m.getBit_eq_ofBool a p

theorem Memory.toNat_getLe16 (m : Memory) (a : Nat) :
    (m.getLe16 a).toNat = (m.read a).toNat + 256 * (m.read (a + 1)).toNat :=
  toNat_append_bytes ..

theorem Memory.toNat_getLe24 (m : Memory) (a : Nat) :
    (m.getLe24 a).toNat = (m.read a).toNat + 256 * (m.read (a + 1)).toNat + 65536 * (m.read (a + 2)).toNat := by
  have happend : (m.getLe24 a).toNat = (m.read (a + 2) ++ m.read (a + 1)).toNat <<< 8 ||| (m.read a).toNat :=
    BitVec.toNat_append ..
  rw [happend, ← Nat.shiftLeft_add_eq_or_of_lt (m.read a).isLt, toNat_append_bytes, Nat.shiftLeft_eq]
  omega

theorem Memory.toNat_getBits (m : Memory) (a lo w : Nat) :
    (m.getBits a lo w).toNat = (m.read a).toNat / 2 ^ lo % 2 ^ w := by
  rw [Memory.getBits, BitVec.extractLsb'_toNat, Nat.shiftRight_eq_div_pow]

/-- The record decoder reads the fields where the Decode clauses say. -/
theorem regsFrom_decodeRegs (m : Memory) : RegsFrom m (decodeRegs fieldLayout m) := by
  simp [RegsFrom, decodeRegs, fieldLayout, Config.Layout.releaseMinorAt, bitOf_getBit, Memory.toNat_getLe16,
    Memory.toNat_getLe24, Memory.toNat_getBits]

/-- The scalar registers read no other byte than these, and of bytes 0x08 and 0x0A no unassigned bit (R128). -/
theorem decodeRegs_congr {m m' : Memory}
    (hread : ∀ a, a ∉ [0x01, 0x08, 0x0A, 0x0D, 0x19, 0x21, 0x22, 0x23, 0xFE, 0xFF] → m.read a = m'.read a)
    (hpower : ∀ p, p = 5 ∨ p = 6 → (m.read 0x08).getLsbD p = (m'.read 0x08).getLsbD p)
    (hperipheral : ∀ p, 2 ≤ p → (m.read 0x0A).getLsbD p = (m'.read 0x0A).getLsbD p) :
    decodeRegs fieldLayout m = decodeRegs fieldLayout m' := by
  have hbits08 : ∀ p, p = 5 ∨ p = 6 → m.getBit 0x08 p = m'.getBit 0x08 p := fun p hp => by
    rw [Memory.getBit_eq_ofBool, Memory.getBit_eq_ofBool, hpower p hp]
  have hbits0A : ∀ p, 2 ≤ p → m.getBit 0x0A p = m'.getBit 0x0A p := fun p hp => by
    rw [Memory.getBit_eq_ofBool, Memory.getBit_eq_ofBool, hperipheral p hp]
  have hbyte {a : Nat} (ha : a ∉ [0x01, 0x08, 0x0A, 0x0D, 0x19, 0x21, 0x22, 0x23, 0xFE, 0xFF]) (p : Nat) :
      m.getBit a p = m'.getBit a p := by rw [Memory.getBit, Memory.getBit, hread a ha]
  simp (disch := decide) only [decodeRegs, fieldLayout, Config.Layout.releaseMinorAt, hbits08, hbits0A, hbyte,
    Memory.getBits, Memory.getLe16, Memory.getLe24, hread]

/-! ### Decoding the strings (R122) -/

theorem slot_val_eq_number (n : StrReg) : n.slot.val = n.number.toNat := by cases n <;> rfl

theorem decodeSlot_eq (m : Memory) (k : Slot) (mode : Mode) :
    decodeSlot m k mode = strDecode m (descriptor m k.val).1 (descriptor m k.val).2 mode := by
  rw [decodeSlot, descriptorAddr_add_one]
  rfl

theorem decodeSlot_inside {m : Memory} {k : Slot} (mode : Mode) (h : ¬outside (descriptor m k.val)) :
    decodeSlot m k mode =
      .ok ((rawText m (descriptor m k.val).1 (descriptor m k.val).2 mode).takeWhile (· != 0)) := by
  rw [decodeSlot_eq, strDecode_inside m mode (Nat.le_of_not_lt h)]

theorem decodeSlot_outside {m : Memory} {k : Slot} (mode : Mode) (h : outside (descriptor m k.val)) :
    decodeSlot m k mode = .error (.boundsFault (descriptor m k.val).1 (descriptor m k.val).2) := by
  rw [decodeSlot_eq, strDecode_outside m mode h]

theorem decodeStrings_ok {m : Memory} {mode : Mode} {t : Strs}
    (h : ∀ n : StrReg, decodeSlot m n.slot mode = .ok (t.get n)) : decodeStrings m mode = .ok t := by
  have h₀ : decodeSlot m StrReg.manufacturer.slot mode = .ok t.manufacturer := h .manufacturer
  have h₁ : decodeSlot m StrReg.product.slot mode = .ok t.product := h .product
  have h₂ : decodeSlot m StrReg.serial.slot mode = .ok t.serial := h .serial
  simp only [decodeStrings, h₀, h₁, h₂]
  rfl

theorem decodeStrings_outside {m : Memory} (mode : Mode) (h : ∃ k, k < 3 ∧ outside (descriptor m k)) :
    decodeStrings m mode = .error (.boundsFault (firstOutside m).1 (firstOutside m).2) := by
  by_cases h₀ : outside (descriptor m 0)
  · have hfirst : firstOutside m = descriptor m 0 := if_pos h₀
    simp only [decodeStrings, decodeSlot_outside (k := StrReg.manufacturer.slot) mode h₀, hfirst]
    rfl
  by_cases h₁ : outside (descriptor m 1)
  · have hfirst : firstOutside m = descriptor m 1 := (if_neg h₀).trans (if_pos h₁)
    simp only [decodeStrings, decodeSlot_inside (k := StrReg.manufacturer.slot) mode h₀,
      decodeSlot_outside (k := StrReg.product.slot) mode h₁, hfirst]
    rfl
  have h₂ : outside (descriptor m 2) := by
    obtain ⟨k, hk, hout⟩ := h
    interval_cases k
    · exact absurd hout h₀
    · exact absurd hout h₁
    · exact hout
  have hfirst : firstOutside m = descriptor m 2 := (if_neg h₀).trans (if_neg h₁)
  simp only [decodeStrings, decodeSlot_inside (k := StrReg.manufacturer.slot) mode h₀,
    decodeSlot_inside (k := StrReg.product.slot) mode h₁, decodeSlot_outside (k := StrReg.serial.slot) mode h₂, hfirst]
  rfl

/-! ### FLD.DECODE (R132, R133) -/

/-- The record that decoding reads, with the given strings. -/
def recordFrom (l : Config.Layout) (m : Memory) (t : Strs) : Record where
  regs := decodeRegs l m
  umem := Vector.ofFn fun i => m.read (0x24 + i.val)
  fcfg := Vector.ofFn fun i => m.read (0x80 + i.val)
  strs := t

theorem decodeRecord_ok {l : Config.Layout} {m : Memory} {mode : Mode} {t : Strs} (h : decodeStrings m mode = .ok t) :
    decodeRecord l m mode = .ok (recordFrom l m t) := by
  simp only [decodeRecord, h]
  rfl

theorem decodeRecord_outside {l : Config.Layout} {m : Memory} {mode : Mode}
    (h : ∃ k, k < 3 ∧ outside (descriptor m k)) :
    decodeRecord l m mode = .error (.boundsFault (firstOutside m).1 (firstOutside m).2) := by
  simp only [decodeRecord, decodeStrings_outside mode h]
  rfl

theorem exec_fldDecode_ok {s : State} {r : Record} (hs : s.Operating)
    (he : decodeRecord fieldLayout s.img s.mode = .ok r) :
    exec .fldDecode s =
      .next (answered { s with regs := r.regs, umem := r.umem, fcfg := r.fcfg, strs := r.strs } 0) := by
  refine (whenOperating_of_operating hs _).trans ?_
  rw [he]
  rfl

theorem exec_fldDecode_error {s : State} {e : EngineError} (hs : s.Operating)
    (he : decodeRecord fieldLayout s.img s.mode = .error e) : exec .fldDecode s = .next (s.raise e) := by
  refine (whenOperating_of_operating hs _).trans ?_
  rw [he]
  rfl

/-- The strings that the three descriptors lead to (R98). -/
def describedStrs (m : Memory) (mode : Mode) : Strs :=
  let text (k : Nat) : Text := (rawText m (descriptor m k).1 (descriptor m k).2 mode).takeWhile (· != 0)
  ⟨text 0, text 1, text 2⟩

theorem get_describedStrs (m : Memory) (mode : Mode) (n : StrReg) : (describedStrs m mode).get n =
    (rawText m (descriptor m n.slot.val).1 (descriptor m n.slot.val).2 mode).takeWhile (· != 0) := by
  cases n <;> rfl

/-- Settles O50. -/
theorem fldDecodeReadsEveryField : Obligations.FldDecodeReadsEveryField := by
  intro s hs
  refine ⟨decode_cmdWord rfl rfl, fun hinside => ?_, fun hout => ?_⟩
  · have hstrs : decodeStrings s.img s.mode = .ok (describedStrs s.img s.mode) := decodeStrings_ok fun n => by
      rw [get_describedStrs, decodeSlot_inside s.mode (hinside _ n.slot.isLt)]
    refine ⟨_, exec_fldDecode_ok hs (decodeRecord_ok hstrs), regsFrom_decodeRegs s.img, fun i => Vector.get_ofFn _ i,
      fun i => Vector.get_ofFn _ i, fun n => ?_, rfl⟩
    rw [extracted_eq_rawText, ← slot_val_eq_number]
    exact get_describedStrs s.img s.mode n ▸ longestZeroFree_takeWhile _
  · exact (exec_fldDecode_error hs (decodeRecord_outside hout)).trans rfl

/-- A `FLD.DECODE` that completed read its record from the image. -/
theorem exec_fldDecode_completed {s t : State} (hs : s.Operating) (h : exec .fldDecode s = .next t)
    (ht : t.err = .none) : t.record = recordFrom fieldLayout s.img t.strs := by
  cases hx : decodeRecord fieldLayout s.img s.mode with
  | ok r =>
    obtain ⟨t', -, hr⟩ := bind_eq_ok_iff.1 hx
    rw [exec_fldDecode_ok hs hx] at h
    cases h
    cases hr
    rfl
  | error e =>
    rw [exec_fldDecode_error hs hx] at h
    cases h
    exact absurd ht (EngineError.code_ne_none e)

/-- Settles O58: both records are read from images that agree on what the decoder reads. -/
theorem decodeIgnoresUnassignedBits : Obligations.DecodeIgnoresUnassignedBits := by
  intro s s' t t' hs hs' hread hpower hperipheral h h' ht ht'
  have hrecord := exec_fldDecode_completed hs h ht
  have hrecord' := exec_fldDecode_completed hs' h' ht'
  have hregions : ∀ a, 0x24 ≤ a → a < 0xA0 → s.img.read a = s'.img.read a := fun a hlo hhi =>
    hread a (by simp only [List.mem_cons, List.not_mem_nil, or_false]; omega)
  refine ⟨?_, ?_, ?_⟩
  · rw [← State.record_regs t, ← State.record_regs t', hrecord, hrecord']
    exact decodeRegs_congr hread hpower hperipheral
  · rw [← State.record_umem t, ← State.record_umem t', hrecord, hrecord']
    exact congrArg Vector.ofFn (funext fun i => hregions _ (by omega) (by omega))
  · rw [← State.record_fcfg t, ← State.record_fcfg t', hrecord, hrecord']
    exact congrArg Vector.ofFn (funext fun i => hregions _ (by omega) (by omega))

/-! ### Reading a bit group out of a byte it was placed in (R112 a) -/

theorem extractLsb'_placed_self {w lo : Nat} (v : BitVec w) (hin : lo + w ≤ 8) :
    (v.setWidth 8 <<< lo).extractLsb' lo w = v := by
  apply BitVec.eq_of_getLsbD_eq
  intro i hi
  simp [getLsbD_placed v hin, hi]

theorem extractLsb'_placed_of_disjoint {w lo q n : Nat} (v : BitVec w) (hin : lo + w ≤ 8) (h : q + n ≤ lo ∨ lo + w ≤ q) :
    (v.setWidth 8 <<< lo).extractLsb' q n = 0#n := by
  apply BitVec.eq_of_getLsbD_eq
  intro i hi
  rw [BitVec.getLsbD_extractLsb', getLsbD_placed v hin, BitVec.getLsbD_zero]
  rcases h with h | h
  · rw [decide_eq_false (by omega : ¬lo ≤ q + i), Bool.false_and, Bool.and_false]
  · rw [BitVec.getLsbD_of_ge v _ (by omega), Bool.and_false, Bool.and_false]

/-- Flags at their places in a byte (R112 d). -/
def placedFlags (fs : List (Nat × BitVec 1)) : Byte := fs.foldr (fun f b => flagAt f.2 f.1 ||| b) 0

/-- A flag reads back from its place, when the places are distinct. -/
theorem extractLsb'_placedFlags {fs : List (Nat × BitVec 1)} (hdistinct : (fs.map Prod.fst).Nodup)
    (hlt : ∀ p ∈ fs.map Prod.fst, p < 8) (p : Nat) :
    (∀ v, (p, v) ∈ fs → (placedFlags fs).extractLsb' p 1 = v) ∧
      (p ∉ fs.map Prod.fst → (placedFlags fs).extractLsb' p 1 = 0#1) := by
  induction fs with
  | nil => exact ⟨nofun, fun _ => BitVec.extractLsb'_zero⟩
  | cons f fs ih =>
    rw [List.map_cons, List.nodup_cons] at hdistinct
    rw [List.map_cons, List.forall_mem_cons] at hlt
    obtain ⟨hhead, htail⟩ := hdistinct
    obtain ⟨hf, hfs⟩ := hlt
    obtain ⟨hmem, hnotMem⟩ := ih htail hfs
    have hcons : (placedFlags (f :: fs)).extractLsb' p 1 =
        (flagAt f.2 f.1).extractLsb' p 1 ||| (placedFlags fs).extractLsb' p 1 := BitVec.extractLsb'_or
    have hother : p ≠ f.1 → (flagAt f.2 f.1).extractLsb' p 1 = 0#1 := fun hne =>
      extractLsb'_placed_of_disjoint _ hf (by omega)
    rw [hcons]
    refine ⟨fun v hv => ?_, fun hp => ?_⟩
    · rcases List.mem_cons.1 hv with rfl | hv
      · rw [hnotMem hhead, BitVec.or_zero]
        exact extractLsb'_placed_self v hf
      · have hne : p ≠ f.1 := fun he => hhead (he ▸ List.mem_map_of_mem hv)
        rw [hother hne, BitVec.zero_or, hmem v hv]
    · rw [List.map_cons, List.mem_cons, not_or] at hp
      rw [hother hp.1, BitVec.zero_or, hnotMem hp.2]

theorem extractLsb'_packedByte (bits : List (BitVec 1)) {i : Nat} (hi : i < 8) :
    (packedByte bits).extractLsb' i 1 = bits.getD i 0 := by
  apply BitVec.eq_of_getLsbD_eq
  intro j hj
  obtain rfl : j = 0 := by omega
  simp [getLsbD_packedByte bits hi]

/-! ### Decoding the bytes of packed flags (R113, R117, R119 to R121) -/

/-- A layout's constraints as facts about its positions (R115, R117, R119). -/
theorem layoutValid_iff (l : Config.Layout) : l.valid = true ↔
    (l.posRemoteWakeup < 7 ∧ l.posSelfPowered < 7 ∧ l.posRemoteWakeup ≠ l.posSelfPowered) ∧
      (∀ p ∈ l.pos0A, p < 8) ∧ l.pos0A.Nodup ∧ (l.releaseMajorAt = 0x06 ∨ l.releaseMajorAt = 0x07) := by
  simp [Config.Layout.valid, and_assoc]

section DecodedFlags

variable (r : Regs)

/-- The flags of byte 0x08 with their places, the reserved bit first (R117, R64). -/
def powerPlaces (l : Config.Layout) : List (Nat × BitVec 1) :=
  [(7, 1), (l.posRemoteWakeup, r.remoteWakeup), (l.posSelfPowered, r.selfPowered)]

/-- The flags of byte 0x0A with their places (R119). -/
def peripheralPlaces (l : Config.Layout) : List (Nat × BitVec 1) :=
  [(l.posSuspendPullDown, r.suspendPullDown), (l.posSerialNumberAvail, r.serialNumberAvail),
    (l.posFt1248Cpol, r.ft1248Cpol), (l.posFt1248Bord, r.ft1248Bord), (l.posFt1248FlowControl, r.ft1248FlowControl),
    (l.posDisableI2cSchmitt, r.disableI2cSchmitt)]

theorem powerFlags_eq_placedFlags (l : Config.Layout) : powerFlags l r = placedFlags (powerPlaces r l) := by
  rw [powerFlags, BitVec.or_assoc]
  exact congrArg _ (congrArg _ BitVec.or_zero.symm)

theorem peripheralFlags_eq_placedFlags (l : Config.Layout) :
    peripheralFlags l r = placedFlags (peripheralPlaces r l) := by
  simp [peripheralFlags, placedFlags, peripheralPlaces, BitVec.or_assoc]

theorem extractLsb'_powerFlags {l : Config.Layout} (hl : l.valid = true) :
    (powerFlags l r).extractLsb' l.posRemoteWakeup 1 = r.remoteWakeup ∧
      (powerFlags l r).extractLsb' l.posSelfPowered 1 = r.selfPowered := by
  obtain ⟨⟨hwakeup, hpowered, hne⟩, -, -, -⟩ := (layoutValid_iff l).1 hl
  have hdistinct : ((powerPlaces r l).map Prod.fst).Nodup := by simp [powerPlaces]; omega
  have hlt : ∀ p ∈ (powerPlaces r l).map Prod.fst, p < 8 := by simp [powerPlaces]; omega
  rw [powerFlags_eq_placedFlags]
  constructor <;> exact (extractLsb'_placedFlags hdistinct hlt _).1 _ (by simp [powerPlaces])

theorem extractLsb'_peripheralFlags {l : Config.Layout} (hl : l.valid = true) :
    (peripheralFlags l r).extractLsb' l.posSuspendPullDown 1 = r.suspendPullDown ∧
      (peripheralFlags l r).extractLsb' l.posSerialNumberAvail 1 = r.serialNumberAvail ∧
      (peripheralFlags l r).extractLsb' l.posFt1248Cpol 1 = r.ft1248Cpol ∧
      (peripheralFlags l r).extractLsb' l.posFt1248Bord 1 = r.ft1248Bord ∧
      (peripheralFlags l r).extractLsb' l.posFt1248FlowControl 1 = r.ft1248FlowControl ∧
      (peripheralFlags l r).extractLsb' l.posDisableI2cSchmitt 1 = r.disableI2cSchmitt := by
  obtain ⟨-, hlt, hdistinct, -⟩ := (layoutValid_iff l).1 hl
  have hread {p : Nat} {v : BitVec 1} (h : (p, v) ∈ peripheralPlaces r l) :
      (placedFlags (peripheralPlaces r l)).extractLsb' p 1 = v :=
    (extractLsb'_placedFlags (fs := peripheralPlaces r l) hdistinct hlt p).1 v h
  rw [peripheralFlags_eq_placedFlags]
  refine ⟨?_, ?_, ?_, ?_, ?_, ?_⟩ <;> exact hread (by simp [peripheralPlaces])

theorem extractLsb'_miscFlags : (miscFlags r).extractLsb' 0 1 = r.bcdEnable ∧
    (miscFlags r).extractLsb' 1 1 = r.forcePowerEnable ∧ (miscFlags r).extractLsb' 2 1 = r.deactivateSleep ∧
    (miscFlags r).extractLsb' 3 1 = r.rs485EchoSuppress ∧ (miscFlags r).extractLsb' 4 1 = r.extOsc ∧
    (miscFlags r).extractLsb' 5 1 = r.extOscFeedback ∧ (miscFlags r).extractLsb' 6 1 = r.vbusSenseAlloc ∧
    (miscFlags r).extractLsb' 7 1 = r.loadVcp := by
  rw [miscFlags_eq_packedByte]
  refine ⟨?_, ?_, ?_, ?_, ?_, ?_, ?_, ?_⟩ <;> exact extractLsb'_packedByte _ (by decide)

theorem extractLsb'_inversionFlags : (inversionFlags r).extractLsb' 0 1 = r.invertTxd ∧
    (inversionFlags r).extractLsb' 1 1 = r.invertRxd ∧ (inversionFlags r).extractLsb' 2 1 = r.invertRts ∧
    (inversionFlags r).extractLsb' 3 1 = r.invertCts ∧ (inversionFlags r).extractLsb' 4 1 = r.invertDtr ∧
    (inversionFlags r).extractLsb' 5 1 = r.invertDsr ∧ (inversionFlags r).extractLsb' 6 1 = r.invertDcd ∧
    (inversionFlags r).extractLsb' 7 1 = r.invertRi := by
  rw [inversionFlags_eq_packedByte]
  refine ⟨?_, ?_, ?_, ?_, ?_, ?_, ?_, ?_⟩ <;> exact extractLsb'_packedByte _ (by decide)

/-- The two drive strengths stand at places 0 and 4 (R67). -/
theorem driveControls_eq_placed : driveControls r =
    (r.dbusDrive.setWidth 8 <<< 0) ||| flagAt r.dbusSlowSlew 2 ||| flagAt r.dbusSchmitt 3 |||
      (r.cbusDrive.setWidth 8 <<< 4) ||| flagAt r.cbusSlowSlew 6 ||| flagAt r.cbusSchmitt 7 := by
  rw [BitVec.shiftLeft_zero]
  rfl

theorem extractLsb'_driveControls : (driveControls r).extractLsb' 0 2 = r.dbusDrive ∧
    (driveControls r).extractLsb' 2 1 = r.dbusSlowSlew ∧ (driveControls r).extractLsb' 3 1 = r.dbusSchmitt ∧
    (driveControls r).extractLsb' 4 2 = r.cbusDrive ∧ (driveControls r).extractLsb' 6 1 = r.cbusSlowSlew ∧
    (driveControls r).extractLsb' 7 1 = r.cbusSchmitt := by
  simp (disch := decide) only [driveControls_eq_placed, flagAt, BitVec.extractLsb'_or, extractLsb'_placed_self,
    extractLsb'_placed_of_disjoint, BitVec.or_zero, BitVec.zero_or, and_self]

end DecodedFlags

/-! ### Decoding an encoded image (R135) -/

/-- Each field is read back from the bytes it was written to. -/
theorem Encoded.decodeRegs_eq {l : Config.Layout} (hl : l.valid = true) {r : Record} {mode : Mode} {m : Memory}
    (h : Encoded l r mode m) : decodeRegs l m = r.regs := by
  obtain ⟨-, -, -, hrelease⟩ := (layoutValid_iff l).1 hl
  have hheader := h.header
  have hperipherals := h.peripherals
  simp only [Memory.readBytes, List.range_succ, List.range_zero, List.nil_append, List.cons_append, List.map_cons,
    List.map_nil, headerFields, peripheralFields, List.cons.injEq, and_true, Nat.reduceAdd] at hheader hperipherals
  have hmajor : m.read l.releaseMajorAt = r.regs.usbReleaseMajor := by
    rcases hrelease with h | h <;> simp [h, hheader]
  have hminor : m.read l.releaseMinorAt = r.regs.usbReleaseMinor := by
    rcases hrelease with h | h <;> simp [Config.Layout.releaseMinorAt, h, hheader]
  simp only [decodeRegs, Memory.getBit, Memory.getBits, Memory.getLe16, Memory.getLe24, Nat.reduceAdd, hheader,
    hperipherals, hmajor, hminor, append_extractLsb'_bytes, append_extractLsb'_threeBytes, extractLsb'_miscFlags,
    extractLsb'_powerFlags _ hl, extractLsb'_peripheralFlags _ hl, extractLsb'_inversionFlags, extractLsb'_driveControls]

theorem Encoded.umem_eq {l : Config.Layout} {r : Record} {mode : Mode} {m : Memory} (h : Encoded l r mode m) :
    (Vector.ofFn fun i : Fin 92 => m.read (0x24 + i.val)) = r.umem := by
  refine Vector.ext fun i hi => ?_
  rw [Vector.getElem_ofFn, Memory.read_of_readBytes h.umem hi]
  simp [hi]

theorem Encoded.fcfg_eq {l : Config.Layout} {r : Record} {mode : Mode} {m : Memory} (h : Encoded l r mode m) :
    (Vector.ofFn fun i : Fin 32 => m.read (0x80 + i.val)) = r.fcfg := by
  refine Vector.ext fun i hi => ?_
  rw [Vector.getElem_ofFn, Memory.read_of_readBytes h.fcfg hi]
  simp [hi]

/-- The descriptor of a standing blob that ends below the checksum leads back to its text. -/
theorem BlobStands.decodeSlot_eq {img : Memory} {t : Text} {k : Slot} {cur : Nat} {m : Mode}
    (h : BlobStands img t k cur m) (ht : ∀ ch ∈ t, ch ≠ 0) (hcur : 0xA0 ≤ cur) (hend : cur + emittedLen t m ≤ 0xFE) :
    decodeSlot img k m = .ok t := by
  rw [Machine.decodeSlot_eq, h.descriptor_eq (by omega), Nat.mod_eq_of_lt (by omega)]
  exact strDecode_of_blob ht (by omega) fun i hi => h.bytes i hi (by omega)

/-- An encoded image whose blobs end below the checksum decodes to the record it was made from. -/
theorem Encoded.decodeRecord_eq {l : Config.Layout} (hl : l.valid = true) {r : Record} {mode : Mode} {m : Memory}
    (h : Encoded l r mode m) (ht : r.strs.legal = true) (hend : finalCursor r.strs mode ≤ 0xFE) :
    decodeRecord l m mode = .ok r := by
  have hstrs : decodeStrings m mode = .ok r.strs := decodeStrings_ok fun n => by
    obtain ⟨-, hzeroFree⟩ := (Text.legal_iff _).1 ((Strs.legal_iff _).1 ht n)
    exact (h.blobs n).decodeSlot_eq hzeroFree (blobStart_ge ..)
      (Nat.le_trans (blobStart_add_emittedLen_le r.strs mode n) hend)
  rw [decodeRecord_ok hstrs, recordFrom, h.decodeRegs_eq hl, h.umem_eq, h.fcfg_eq]

/-- Settles O52. -/
theorem roundTripForEveryLayout : Obligations.RoundTripForEveryLayout := by
  intro l r mode m cur c hl ht he hend
  obtain ⟨-, -, -, hrelease⟩ := (layoutValid_iff l).1 hl
  obtain ⟨rfl, hencoded⟩ := encodeImage_ok_encoded hrelease he
  exact hencoded.decodeRecord_eq hl ht hend

/-- The end of `FLD.ENCODE` and then `FLD.DECODE`: the image is that of the encoding, the record that of the start. -/
theorem exec_fldDecode_of_encodedTo {s : State} {m : Memory} (hs : s.Operating) (ht : s.strs.legal = true)
    (hend : 0xA0 + emittedTotal s ≤ 0xFE) (h : Encoded fieldLayout s.record s.mode m) :
    exec .fldDecode (encodedTo s m) = .next (answered (encodedTo s m) 0) := by
  have hrecord : decodeRecord fieldLayout m s.mode = .ok s.record :=
    h.decodeRecord_eq (by decide) ht (by rwa [State.record_strs, finalCursor_eq])
  have hoperating : (encodedTo s m).Operating := hs
  exact exec_fldDecode_ok hoperating hrecord

/-- Settles O51. -/
theorem recordRoundTrip : Obligations.RecordRoundTrip := by
  intro s hs ht hbudget hend
  obtain ⟨m, he, hencoded⟩ := exec_fldEncode_fits hs hbudget (by omega)
  exact ⟨_, _, he, exec_fldDecode_of_encodedTo hs ht hend hencoded, hs, rfl, rfl, rfl, rfl⟩

/-- Settles O53: after the round trip the record and the mode are those of the start, and the encoder reads nothing else. -/
theorem encodedImageIsFixedPoint : Obligations.EncodedImageIsFixedPoint := by
  intro s t u hs ht hbudget hend h hu
  have hfit : emittedTotal s ≤ 96 := by omega
  obtain ⟨m, he, hencoded⟩ := exec_fldEncode_fits hs hbudget hfit
  obtain rfl : encodedTo s m = t := Host.Outcome.next.inj (he.symm.trans h)
  obtain rfl : answered (encodedTo s m) 0 = u :=
    Host.Outcome.next.inj ((exec_fldDecode_of_encodedTo hs ht hend hencoded).symm.trans hu)
  obtain ⟨v, hv, -⟩ := exec_fldEncode_fits (s := answered (encodedTo s m) 0) hs hbudget hfit
  obtain ⟨himg, -, hcsum, -, hresponse⟩ := encodeIgnoresOldImage s (answered (encodedTo s m) 0) _ _ hs hs rfl rfl he hv hs
  exact ⟨_, hv, himg, hcsum, hresponse⟩

end Sys2Proof.Machine
end

section
/-! PROOFS of the statements on the access family (family 43). The record registers get one rule per operation: what a read gives
after a write to the same and to another register, and that a register's number leads to it in the register table. Each command
gets its equation in the operating state and each opcode the words that are legal; the statements are read off these. -/

namespace Sys2Proof.Machine

open Sys2Proof.Claims

/-! ### The register table (R14, R151) -/

/-- The scalar registers' values in register-number order. -/
def Regs.table (r : Regs) : List Word := scalarRegs.map r.get

theorem Regs.getElem?_table (r : Regs) (f : ScalarReg) : r.table[f.number]? = some (r.get f) := by
  have hnumber : scalarRegs[f.number]? = some f := scalarOfNumber_number f
  rw [Regs.table, List.getElem?_map, hnumber, Option.map_some]

/-- A register write replaces one entry of the table, by the bits that the register has room for. -/
theorem Regs.table_set (r : Regs) (f : ScalarReg) (v : Word) :
    (r.set f v).table = r.table.set f.number ((v.setWidth f.width).setWidth 32) := by
  simp only [Regs.table, scalarRegs, List.cons_append, List.nil_append, List.map_cons, List.map_nil, Regs.get]
  cases f <;> rfl

theorem ScalarReg.number_injective {f g : ScalarReg} (h : f.number = g.number) : f = g := by
  have hf := scalarOfNumber_number f
  rw [h, scalarOfNumber_number] at hf
  exact (Option.some.inj hf).symm

theorem Regs.get_set_self (r : Regs) (f : ScalarReg) (v : Word) :
    (r.set f v).get f = (v.setWidth f.width).setWidth 32 := by
  have hlt : f.number < r.table.length := by
    rw [Regs.table, List.length_map]
    exact f.number_lt
  apply Option.some.inj
  rw [← Regs.getElem?_table, Regs.table_set, List.getElem?_set_self hlt]

theorem Regs.get_set_of_ne (r : Regs) {f g : ScalarReg} (h : g ≠ f) (v : Word) : (r.set f v).get g = r.get g := by
  apply Option.some.inj
  rw [← Regs.getElem?_table, Regs.table_set, List.getElem?_set_ne fun he => h (ScalarReg.number_injective he).symm,
    Regs.getElem?_table]

/-! ### Reading and writing a record register (R151, R152) -/

theorem setWidth_setWidth_of_toNat_lt {v : Word} {w : Nat} (h : v.toNat < 2 ^ w) : (v.setWidth w).setWidth 32 = v := by
  apply BitVec.eq_of_toNat_eq
  rw [BitVec.toNat_setWidth, BitVec.toNat_setWidth, Nat.mod_eq_of_lt h, Nat.mod_eq_of_lt v.isLt]

theorem valueFits_iff_widthRN (r : RecReg) (v : Word) : valueFits r v = true ↔ v.toNat < 2 ^ widthRN r.number.toNat := by
  rw [valueFits, decide_eq_true_iff, width_eq_widthRN]

section Bytes

variable {n : Nat} (bytes : Vector Byte n) (i : Fin n) (v : Byte)

theorem get_setByte_self : (bytes.set i.val v i.isLt).get i = v :=
  Vector.getElem_set_self i.isLt

theorem get_setByte_of_ne {i j : Fin n} (h : j ≠ i) : (bytes.set i.val v i.isLt).get j = bytes.get j :=
  Vector.getElem_set_ne i.isLt j.isLt fun he => h (Fin.ext he.symm)

theorem map_getElem?_toList_setWidth :
    (bytes.toList[i.val]?).map (·.setWidth 32) = some ((bytes.get i).setWidth 32) := by
  simp [Vector.get]

end Bytes

/-- The written register holds the bits that it has room for. -/
theorem readReg_writeReg_self (s : State) (r : RecReg) (v : Word) :
    readReg (writeReg s r v) r = (v.setWidth r.width).setWidth 32 := by
  cases r with
  | scalar f => exact s.regs.get_set_self f v
  | umem i => exact congrArg (BitVec.setWidth 32) (get_setByte_self s.umem i _)
  | fcfg i => exact congrArg (BitVec.setWidth 32) (get_setByte_self s.fcfg i _)

theorem readReg_writeReg_of_ne (s : State) {r q : RecReg} (h : q ≠ r) (v : Word) :
    readReg (writeReg s r v) q = readReg s q := by
  cases r with
  | scalar f =>
    cases q with
    | scalar g => exact s.regs.get_set_of_ne (fun he => h (congrArg _ he)) v
    | umem _ | fcfg _ => rfl
  | umem i =>
    cases q with
    | umem j => exact congrArg (BitVec.setWidth 32) (get_setByte_of_ne s.umem _ fun he => h (congrArg _ he))
    | scalar _ | fcfg _ => rfl
  | fcfg i =>
    cases q with
    | fcfg j => exact congrArg (BitVec.setWidth 32) (get_setByte_of_ne s.fcfg _ fun he => h (congrArg _ he))
    | scalar _ | umem _ => rfl

theorem writeReg_eq (s : State) (r : RecReg) (v : Word) :
    writeReg s r v =
      { s with regs := (writeReg s r v).regs, umem := (writeReg s r v).umem, fcfg := (writeReg s r v).fcfg } := by
  cases r <;> rfl

/-! ### The registers by their numbers (R14, R16, R17, R57) -/

/-- The value table by register number holds each register's value at its number. -/
theorem regValue_number (s : State) (r : RecReg) : regValue s r.number.toNat = some (readReg s r) := by
  cases r with
  | scalar f =>
    rw [toNat_number_scalar, regValue, if_pos (Nat.le_of_lt_succ f.number_lt)]
    exact s.regs.getElem?_table f
  | umem i =>
    rw [toNat_number_umem, regValue, if_neg (by omega), if_pos (by omega), Nat.add_sub_cancel_left]
    exact map_getElem?_toList_setWidth s.umem i
  | fcfg i =>
    rw [toNat_number_fcfg, regValue, if_neg (by omega), if_neg (by omega), if_pos (by omega), Nat.add_sub_cancel_left]
    exact map_getElem?_toList_setWidth s.fcfg i

theorem regValue_of_not_legalRN (s : State) {n : Nat} (h : ¬legalRN n) : regValue s n = none := by
  unfold legalRN at h
  rw [regValue, if_neg (by omega), if_neg (by omega), if_neg (by omega)]

theorem exists_recReg_of_legalRN {n : Nat} (h : legalRN n) : ∃ r : RecReg, r.number.toNat = n := by
  have hn : (BitVec.ofNat 16 n).toNat = n := Nat.mod_eq_of_lt (by unfold legalRN at h; omega)
  obtain ⟨r, hr⟩ := (exists_recReg_number_iff (BitVec.ofNat 16 n)).2 (hn.symm ▸ h)
  exact ⟨r, hr ▸ hn⟩

theorem regValue_writeReg_of_ne (s : State) (r : RecReg) (v : Word) {n : Nat} (h : n ≠ r.number.toNat) :
    regValue (writeReg s r v) n = regValue s n := by
  by_cases hn : legalRN n
  · obtain ⟨q, rfl⟩ := exists_recReg_of_legalRN hn
    have hq : q ≠ r := fun he => h (he ▸ rfl)
    rw [regValue_number, regValue_number, readReg_writeReg_of_ne s hq]
  · rw [regValue_of_not_legalRN _ hn, regValue_of_not_legalRN _ hn]

/-! ### The legal words of each opcode (R55 to R58) -/

theorem legalWord_cmdWord_iff (o : Opcode) (a b c : Byte) (d : Word) :
    LegalWord (cmdWord o.code a b c d) ↔
      reservedClear o.format (packCommand o.code a b c d) = true ∧
        ∃ i, operands o (packCommand o.code a b c d) = .ok i := by
  rw [cmdWord_eq_packCommand]
  exact legalWord_packCommand_iff o a b c d

theorem legalWord_imgStb_iff (a : Byte) (d : Word) : LegalWord (cmdWord 0x02 a 0 0 d) ↔ d.toNat < 256 := by
  refine (legalWord_cmdWord_iff .imgStb a 0 0 d).trans ?_
  simp [Opcode.format, operands]

theorem legalWord_imgLdw_iff (a : Byte) : LegalWord (cmdWord 0x03 a 0 0 0) ↔ a.toNat < 128 := by
  refine (legalWord_cmdWord_iff .imgLdw a 0 0 0).trans ?_
  simp [Opcode.format, operands]

theorem legalWord_imgStw_iff (a : Byte) (d : Word) :
    LegalWord (cmdWord 0x04 a 0 0 d) ↔ a.toNat < 128 ∧ d.toNat < 65536 := by
  refine (legalWord_cmdWord_iff .imgStw a 0 0 d).trans ?_
  simp [Opcode.format, operands]

theorem legalWord_recRd_iff (lo hi : Byte) :
    LegalWord (cmdWord 0x05 lo hi 0 0) ↔ legalRN (lo.toNat + 256 * hi.toNat) := by
  refine (legalWord_cmdWord_iff .recRd lo hi 0 0).trans ?_
  simp [Opcode.format, operands, toNat_append_bytes]

theorem legalWord_recWr_iff (lo hi : Byte) (v : Word) :
    LegalWord (cmdWord 0x06 lo hi 0 v) ↔
      legalRN (lo.toNat + 256 * hi.toNat) ∧ v.toNat < 2 ^ widthRN (lo.toNat + 256 * hi.toNat) := by
  refine (legalWord_cmdWord_iff .recWr lo hi 0 v).trans ?_
  simp [Opcode.format, operands, toNat_append_bytes]

theorem legalWord_strClr_iff (a : Byte) : LegalWord (cmdWord 0x07 a 0 0 0) ↔ a.toNat < 3 := by
  refine (legalWord_cmdWord_iff .strClr a 0 0 0).trans ?_
  simp [Opcode.format, operands]

theorem legalWord_strPutc_iff (a : Byte) (d : Word) :
    LegalWord (cmdWord 0x08 a 0 0 d) ↔ a.toNat < 3 ∧ 0 < d.toNat ∧ d.toNat < 256 := by
  rw [← legalChar_low_iff]
  refine (legalWord_cmdWord_iff .strPutc a 0 0 d).trans ?_
  simp [Opcode.format, operands, and_assoc, and_comm, and_left_comm]

theorem legalWord_strLen_iff (a : Byte) : LegalWord (cmdWord 0x09 a 0 0 0) ↔ a.toNat < 3 := by
  refine (legalWord_cmdWord_iff .strLen a 0 0 0).trans ?_
  simp [Opcode.format, operands]

theorem legalWord_strGetc_iff (a b : Byte) : LegalWord (cmdWord 0x0A a b 0 0) ↔ a.toNat < 3 := by
  refine (legalWord_cmdWord_iff .strGetc a b 0 0).trans ?_
  simp [Opcode.format, operands]

theorem legalWord_csrRd_iff (a : Byte) : LegalWord (cmdWord 0x0B a 0 0 0) ↔ a.toNat < 6 := by
  refine (legalWord_cmdWord_iff .csrRd a 0 0 0).trans ?_
  simp [Opcode.format, operands]

theorem legalWord_of_legalCsrRead {w : Command} (h : LegalCsrRead w) : LegalWord w := by
  obtain ⟨c, hc⟩ := legalCsrRead_iff.1 h
  exact legalWord_iff_exists_decode.2 ⟨.csrRd c, hc⟩

/-! ### The image commands (R147 to R150) -/

theorem exec_imgLdb {s : State} (hs : s.Operating) (a : Byte) :
    exec (.imgLdb a) s = .next (answered s ((s.img.read a.toNat).setWidth 32)) :=
  whenOperating_of_operating hs _

theorem exec_imgStb {s : State} (hs : s.Operating) (a v : Byte) :
    exec (.imgStb a v) s = .next (answered { s with img := s.img.write a.toNat v } 0) :=
  whenOperating_of_operating hs _

theorem exec_imgLdw {s : State} (hs : s.Operating) (w : BitVec 7) :
    exec (.imgLdw w) s = .next (answered s ((s.img.getLe16 (2 * w.toNat)).setWidth 32)) := by
  refine (whenOperating_of_operating hs _).trans ?_
  rw [memRead_two _ (by omega)]
  rfl

theorem exec_imgStw {s : State} (hs : s.Operating) (w : BitVec 7) (v : Half) :
    exec (.imgStw w v) s = .next (answered { s with img := s.img.putLe16 (2 * w.toNat) v } 0) := by
  refine (whenOperating_of_operating hs _).trans ?_
  rw [memWrite_two _ _ (by omega)]
  rfl

/-- A little-endian word in terms of its bytes (R38). -/
theorem Memory.setWidth_getLe16 (m : Memory) (a : Nat) :
    (m.getLe16 a).setWidth 32 = (m.read a).setWidth 32 ||| ((m.read (a + 1)).setWidth 32 <<< 8) := by
  apply BitVec.eq_of_getLsbD_eq
  intro i hi
  rw [BitVec.getLsbD_setWidth, Memory.getLsbD_getLe16]
  by_cases hlow : i < 8
  · simp [hlow, hi]
  · have hread : (m.read a).getLsbD i = false := BitVec.getLsbD_of_ge _ _ (by omega)
    simp [hlow, hi, hread]

/-- Settles O20. -/
theorem imgLdbReadsByte : Obligations.ImgLdbReadsByte :=
  fun a _ hs => ⟨decode_cmdWord rfl rfl, exec_imgLdb hs a⟩

/-- Settles O21, from what a read gives after a write. -/
theorem imgStbStoresByte : Obligations.ImgStbStoresByte := by
  refine ⟨fun a v s hs => ⟨decode_cmdWord rfl rfl, _, exec_imgStb hs a v, ?_, fun x hx => ?_, rfl⟩, fun a d hd => ?_⟩
  · exact Memory.read_write_self _ _ a.isLt
  · exact Memory.read_write_of_ne _ _ hx
  · exact raisesIllegal_of_not_legalWord (by rw [legalWord_imgStb_iff]; omega)

/-- Settles O22. -/
theorem imgLdwReadsWord : Obligations.ImgLdwReadsWord := by
  refine ⟨fun w s hs => ⟨decode_cmdWord rfl rfl, ?_⟩, fun a ha => ?_⟩
  · rw [exec_imgLdw hs, Memory.setWidth_getLe16]
  · exact raisesIllegal_of_not_legalWord (by rw [legalWord_imgLdw_iff]; omega)

/-- Settles O23, from the bytes of a stored word. -/
theorem imgStwStoresWord : Obligations.ImgStwStoresWord := by
  refine ⟨fun w v s hs => ?_, fun a d h => ?_⟩
  · have hread (x : Nat) := Memory.read_putLe16 s.img (a := 2 * w.toNat) x v (by omega)
    refine ⟨decode_cmdWord rfl rfl, _, exec_imgStw hs w v, ?_, ?_, fun x hlow hhigh => ?_, rfl⟩
    · exact (hread _).trans (if_pos rfl)
    · exact (hread _).trans ((if_neg (by omega)).trans (if_pos rfl))
    · exact (hread x).trans ((if_neg hlow).trans (if_neg hhigh))
  · exact raisesIllegal_of_not_legalWord (by rw [legalWord_imgStw_iff]; omega)

/-! ### The record commands (R151, R152) -/

theorem exec_recRd {s : State} (hs : s.Operating) (r : RecReg) :
    exec (.recRd r) s = .next (answered s (readReg s r)) :=
  whenOperating_of_operating hs _

theorem exec_recWr {s : State} (hs : s.Operating) {r : RecReg} {v : Word} (hv : valueFits r v = true) :
    exec (.recWr r v) s = .next (answered (writeReg s r v) 0) := by
  refine (whenOperating_of_operating hs _).trans ?_
  rw [if_pos hv]
  rfl

/-- Settles O24: the register's number leads to it in the table. -/
theorem recRdReadsNumberedRegister : Obligations.RecRdReadsNumberedRegister := by
  refine ⟨fun r s hs => ⟨_, regValue_number s r, decode_cmdWord rfl rfl, exec_recRd hs r⟩, fun lo hi => ?_⟩
  exact ⟨exists_recReg_of_legalRN, fun h => raisesIllegal_of_not_legalWord (mt (legalWord_recRd_iff lo hi).1 h)⟩

/-- Settles O25: a value that fits is held whole, and no other number's register is written. -/
theorem recWrWritesNumberedRegister : Obligations.RecWrWritesNumberedRegister := by
  refine ⟨fun r v s hs hv => ?_, fun lo hi v h => ?_⟩
  · have hfits : valueFits r v = true := (valueFits_iff_widthRN r v).2 hv
    have hheld : readReg (writeReg s r v) r = v := by
      rw [readReg_writeReg_self, width_eq_widthRN, setWidth_setWidth_of_toNat_lt hv]
    refine ⟨decode_cmdWord hfits rfl, _, exec_recWr hs hfits, ?_, fun n hn => ?_, ?_⟩
    · exact (regValue_number (writeReg s r v) r).trans (congrArg some hheld)
    · exact regValue_writeReg_of_ne s r v hn
    · exact congrArg (answered · 0) (writeReg_eq s r v)
  · refine raisesIllegal_of_not_legalWord fun hw => ?_
    obtain ⟨hrn, hv⟩ := (legalWord_recWr_iff lo hi v).1 hw
    rcases h with hillegal | hwide
    · exact hillegal hrn
    · omega

/-! ### The string commands (R153 to R156) -/

/-- The information words of an `IllegalCommand`, by the fields of its word (R54, R60). -/
theorem extractLsb'_packCommand (op a b c : Byte) (d : Word) :
    (packCommand op a b c d).extractLsb' 0 16 = a ++ op ∧ (packCommand op a b c d).extractLsb' 16 16 = c ++ b := by
  constructor <;> apply BitVec.eq_of_getLsbD_eq <;> intro i hi
  all_goals
    rw [BitVec.getLsbD_extractLsb', getLsbD_packCommand, BitVec.getLsbD_append]
    grind

theorem exec_strClr {s : State} (hs : s.Operating) (n : StrReg) :
    exec (.strClr n) s = .next (answered { s with strs := s.strs.set n [] } 0) :=
  whenOperating_of_operating hs _

theorem exec_strPutc_room {s : State} (hs : s.Operating) {n : StrReg} {ch : Byte} (hch : legalChar ch = true)
    (hroom : (s.strs.get n).length < 255) :
    exec (.strPutc n ch) s = .next
      (answered { s with strs := s.strs.set n (s.strs.get n ++ [ch]) } (BitVec.ofNat 32 ((s.strs.get n).length + 1))) := by
  refine (whenOperating_of_operating hs _).trans ?_
  have haccepted : (legalChar ch && decide ((s.strs.get n).length < Config.strCap)) = true := by simp [hch, hroom]
  simp only [if_pos haccepted, CommandResult.finish_done]
  rfl

theorem exec_strPutc_full {s : State} (hs : s.Operating) (n : StrReg) (ch : Byte)
    (hfull : 255 ≤ (s.strs.get n).length) :
    exec (.strPutc n ch) s = .next (s.raise (.illegalCommand (encode (.strPutc n ch)))) := by
  refine (whenOperating_of_operating hs _).trans ?_
  simp [Nat.not_lt.2 hfull]

theorem exec_strLen {s : State} (hs : s.Operating) (n : StrReg) :
    exec (.strLen n) s = .next (answered s (BitVec.ofNat 32 (s.strs.get n).length)) :=
  whenOperating_of_operating hs _

theorem exec_strGetc_inside {s : State} (hs : s.Operating) {n : StrReg} {idx : Byte}
    (hidx : idx.toNat < (s.strs.get n).length) :
    exec (.strGetc n idx) s = .next (answered s (((s.strs.get n)[idx.toNat]).setWidth 32)) := by
  refine (whenOperating_of_operating hs _).trans ?_
  rw [List.getElem?_eq_getElem hidx]
  rfl

theorem exec_strGetc_outside {s : State} (hs : s.Operating) {n : StrReg} {idx : Byte}
    (hidx : (s.strs.get n).length ≤ idx.toNat) :
    exec (.strGetc n idx) s = .next (s.raise (.illegalCommand (encode (.strGetc n idx)))) := by
  refine (whenOperating_of_operating hs _).trans ?_
  rw [List.getElem?_eq_none hidx]
  rfl

/-- Taking `IllegalCommand` for a word with a string number in `A` and nothing in `C` (R54, R166). -/
theorem raise_illegalCommand_strNumber (s : State) (op b : Byte) (n : StrReg) (d : Word) :
    s.raise (.illegalCommand (packCommand op n.number b 0 d)) =
      raised s .illegalCommand (op.setWidth 16 ||| (n.number.setWidth 16 <<< 8)) (b.setWidth 16) := by
  obtain ⟨hlow, hhigh⟩ := extractLsb'_packCommand op n.number b 0 d
  have hA : n.number ++ op = op.setWidth 16 ||| (n.number.setWidth 16 <<< 8) := by
    rw [BitVec.append_def, BitVec.shiftLeftZeroExtend_eq, BitVec.setWidth'_eq, BitVec.or_comm]
  have hB : (0 : Byte) ++ b = b.setWidth 16 := (BitVec.setWidth_eq_append (by decide)).symm
  simp only [State.raise, EngineError.infoA, EngineError.infoB, hlow, hhigh, hA, hB]
  rfl

/-- Settles O26. -/
theorem strClrEmptiesRegister : Obligations.StrClrEmptiesRegister := by
  refine ⟨fun n s hs => ⟨decode_cmdWord rfl rfl, _, exec_strClr hs n, ?_, fun k hk => ?_, rfl⟩, fun a ha => ?_⟩
  · exact Strs.get_set_self ..
  · exact Strs.get_set_of_ne _ hk _
  · exact raisesIllegal_of_not_legalWord (by rw [legalWord_strClr_iff]; omega)

/-- Settles O27: the new length is that of the text with its character. -/
theorem strPutcAppendsCharacter : Obligations.StrPutcAppendsCharacter := by
  refine ⟨fun n ch s hs hch => ?_, fun a d h => ?_⟩
  · have hlegal : legalChar ch = true := by simpa [legalChar] using hch
    refine ⟨decode_cmdWord hlegal rfl, fun hroom => ?_, fun hfull => ?_⟩
    · have hget : (s.strs.set n (s.strs.get n ++ [ch])).get n = s.strs.get n ++ [ch] := Strs.get_set_self ..
      refine ⟨_, exec_strPutc_room hs hlegal hroom, hget, fun k hk => Strs.get_set_of_ne _ hk _, ?_⟩
      simp only [answered, hget, List.length_append, List.length_singleton]
    · rw [exec_strPutc_full hs n ch (Nat.le_of_eq hfull.symm)]
      exact congrArg _ (raise_illegalCommand_strNumber s 0x08 0 n (ch.setWidth 32))
  · refine raisesIllegal_of_not_legalWord fun hw => ?_
    obtain ⟨ha, hpos, hd⟩ := (legalWord_strPutc_iff a d).1 hw
    rcases h with h | rfl | h
    · omega
    · exact absurd hpos (by decide)
    · omega

/-- Settles O28. -/
theorem strLenReadsLength : Obligations.StrLenReadsLength := by
  refine ⟨fun n s hs => ⟨decode_cmdWord rfl rfl, exec_strLen hs n⟩, fun a ha => ?_⟩
  exact raisesIllegal_of_not_legalWord (by rw [legalWord_strLen_iff]; omega)

/-- Settles O29. -/
theorem strGetcReadsCharacter : Obligations.StrGetcReadsCharacter := by
  refine ⟨fun n idx s hs => ⟨decode_cmdWord rfl rfl, exec_strGetc_inside hs, fun hidx => ?_⟩, fun a b ha => ?_⟩
  · rw [exec_strGetc_outside hs hidx]
    exact congrArg _ (raise_illegalCommand_strNumber s 0x0A idx n 0)
  · exact raisesIllegal_of_not_legalWord (by rw [legalWord_strGetc_iff]; omega)

/-! ### CSR.RD (R157) -/

/-- Settles O30: an illegal `CSR.RD` is no legal command, and so is refused like one in the Failed state. -/
theorem csrRdReadsRegister : Obligations.CsrRdReadsRegister := by
  have hillegal {a : Byte} (ha : 5 < a.toNat) : ¬LegalWord (cmdWord 0x0B a 0 0 0) := by
    rw [legalWord_csrRd_iff]
    omega
  refine ⟨fun c s => ⟨decode_cmdWord rfl rfl, exec_csrRd c s⟩, fun a => ⟨fun ha => ?_, fun ha => ?_⟩,
    fun a s rest ha hs hp => ?_⟩
  · exact (exists_csr_number_iff a).2 (Nat.lt_succ_of_le ha)
  · exact raisesIllegal_of_not_legalWord (hillegal ha)
  · exact step_of_failed hp hs fun hw => hillegal ha (legalWord_of_legalCsrRead hw)

/-! ### The commands that only read (R159) -/

/-- From `s` the command answers `v` and does nothing else, whatever response was presented before. -/
def AnswersOnly (i : Instr) (s : State) (v : Word) : Prop :=
  ∀ r : Option Response, exec i { s with response := r } = .next (answered s v)

theorem AnswersOnly.exec_eq {i : Instr} {s : State} {v : Word} (h : AnswersOnly i s v) :
    exec i s = .next (answered s v) :=
  h s.response

theorem AnswersOnly.exec_answered {i : Instr} {s : State} {v : Word} (h : AnswersOnly i s v) :
    exec i (answered s v) = .next (answered s v) :=
  h (some ⟨.ok, v⟩)

/-- A command of R159 that completes, but for `CSUM.COMPUTE`, only answers: no value it answers is read from the response. -/
theorem answersOnly_of_readOnly {i : Instr} {s t : State} (hi : readOnly i = true) (hne : i ≠ .csumCompute)
    (hs : s.Operating) (h : exec i s = .next t) (ht : t.err = .none) : ∃ v, AnswersOnly i s v := by
  cases i with
  | imgLdb a => exact ⟨(s.img.read a.toNat).setWidth 32, fun r => exec_imgLdb (s := { s with response := r }) hs a⟩
  | imgLdw w => exact ⟨(s.img.getLe16 (2 * w.toNat)).setWidth 32, fun r => exec_imgLdw (s := { s with response := r }) hs w⟩
  | recRd q => exact ⟨readReg s q, fun r => exec_recRd (s := { s with response := r }) hs q⟩
  | strLen n => exact ⟨BitVec.ofNat 32 (s.strs.get n).length, fun r => exec_strLen (s := { s with response := r }) hs n⟩
  | csrRd c => exact ⟨csrValue s c.number.toNat, fun r => exec_csrRd c { s with response := r }⟩
  | strGetc n idx =>
    by_cases hidx : idx.toNat < (s.strs.get n).length
    · exact ⟨((s.strs.get n)[idx.toNat]).setWidth 32,
        fun r => exec_strGetc_inside (s := { s with response := r }) hs hidx⟩
    · rw [exec_strGetc_outside hs (Nat.le_of_not_lt hidx)] at h
      cases h
      cases ht
  | strCheck =>
    by_cases hbudget : characters s ≤ 96
    · exact ⟨BitVec.ofNat 32 (characters s), fun r => exec_strCheck_within (s := { s with response := r }) hs hbudget⟩
    · rw [exec_strCheck_over hs (Nat.lt_of_not_le hbudget)] at h
      cases h
      cases ht
  | csumCompute => exact absurd rfl hne
  | _ => cases hi

/-- Settles O31: what only answers does so again; `CSUM.COMPUTE` writes `CSUM`, which it does not read. -/
theorem readOnlyCommandsChangeNothing : Obligations.ReadOnlyCommandsChangeNothing := by
  intro i s t u hi hs h ht hu
  by_cases hc : i = .csumCompute
  · subst hc
    rw [exec_csumCompute hs] at h
    cases h
    rw [exec_csumCompute ht] at hu
    cases hu
    exact ⟨rfl, fun hne => absurd rfl hne, rfl⟩
  · obtain ⟨v, hv⟩ := answersOnly_of_readOnly hi hc hs h ht
    obtain rfl : answered s v = t := Host.Outcome.next.inj (hv.exec_eq.symm.trans h)
    obtain rfl : answered s v = u := Host.Outcome.next.inj (hv.exec_answered.symm.trans hu)
    exact ⟨rfl, fun _ => rfl, rfl⟩

end Sys2Proof.Machine
end

section
/-! PROOFS of the statements on errors and the Failed state (family 60), with the idle step and totality. That a Failed engine
changes nothing but its response is read off `CommandOutcome`. How a command ends in an operating engine is said once, against the
table of causes (`exec_endsAs_cause`); that table and precision both follow from it. -/

namespace Sys2Proof.Machine

open Sys2Proof.Claims

/-! ### Every step has a next state (R180) -/

theorem exec_total (i : Instr) (s : State) : ∃ t, exec i s = .next t := by
  cases i with
  | csrRd c => exact ⟨_, exec_csrRd c s⟩
  | _ => exact whenOperating_total s _

theorem step_total (s : State) : ∃ t, step s = .next t := by
  rcases takeInput_cases s with ⟨hp, -⟩ | ⟨strap, image, rest, hp, -⟩ | ⟨cmd, rest, i, hp, hd, -⟩ | ⟨cmd, rest, e, hp, hd, -⟩
  · exact ⟨s, step_of_idle hp⟩
  · exact ⟨_, step_of_reset hp⟩
  · rw [step_of_decode_ok hp hd]
    exact exec_total i _
  · rw [step_of_decode_error hp hd]
    exact whenOperating_total _ _

theorem CommandOutcome.response_ne_none {s t : State} (h : CommandOutcome s t) : t.response ≠ none := by
  cases h with
  | answered v => exact Option.some_ne_none _
  | refused hf => exact Option.some_ne_none _
  | ended ho r hr => cases r <;> exact Option.some_ne_none _

/-- Settles O9: totality, and what the outcomes of a command and the step keep of the port. -/
theorem everyStepAnswers : Obligations.EveryStepAnswers := by
  refine ⟨fun i s => ?_, fun s => ?_⟩
  · obtain ⟨t, h⟩ := exec_total i s
    exact ⟨t, h, (exec_outcome h).port_eq, (exec_outcome h).response_ne_none⟩
  · obtain ⟨t, h⟩ := step_total s
    exact ⟨t, h, step_port h⟩

/-- Settles O8. -/
theorem idleStepHoldsState : Obligations.IdleStepHoldsState :=
  fun _ => step_of_idle

/-! ### The Failed state (R168 to R170) -/

/-- A Failed engine answers or refuses: nothing but the response changes. -/
theorem CommandOutcome.eq_of_failed {s t : State} (h : CommandOutcome s t) (hf : s.err ≠ .none) :
    t = { s with response := t.response } := by
  cases h with
  | answered v => rfl
  | refused _ => rfl
  | ended ho r hr => exact absurd ho hf

/-- A step of a Failed engine without a reset takes one input and changes nothing else but the response. -/
theorem step_eq_of_failed {s t : State} (hf : s.err ≠ .none) (hn : noReset s.port = true) (h : step s = .next t) :
    t = { s with response := t.response, port := s.port.tail } := by
  rcases step_cases h with ⟨hp, rfl⟩ | ⟨strap, image, rest, hp, -⟩ | ⟨cmd, rest, hp, ho⟩
  · rw [hp, List.tail_nil, ← hp]
  · exact absurd hp (noReset_ne_reset_cons hn)
  · rw [hp, List.tail_cons]
    exact ho.eq_of_failed hf

/-- Settles O14, by induction on the number of steps: each leaves a Failed engine with the rest of its inputs. -/
theorem failedRunsStayFrozen : Obligations.FailedRunsStayFrozen := by
  intro k
  induction k with
  | zero =>
    intro s t _ _ h
    cases h
    rfl
  | succ k ih =>
    intro s t hf hn h
    obtain ⟨u, hstep, hrun⟩ := run_succ h
    have hu : u = { s with response := u.response, port := s.port.tail } := step_eq_of_failed hf hn hstep
    have hfu : u.err ≠ .none := by rwa [hu]
    have hnu : noReset u.port = true := step_port hstep ▸ noReset_tail hn
    calc t = { u with response := t.response, port := u.port.drop k } := ih u t hfu hnu hrun
      _ = { s with response := t.response, port := s.port.tail.drop k } := by rw [hu]
      _ = { s with response := t.response, port := s.port.drop (k + 1) } := by rw [List.drop_tail]

/-- Settles O15. -/
theorem failedStateRefusesAllButCsrRead : Obligations.FailedStateRefusesAllButCsrRead := by
  refine fun i s hf => ⟨?_, fun hi => ?_⟩
  · rintro c rfl
    exact exec_csrRd c s
  · rw [exec_of_failed hf hi, respondFailed_eq]

/-- Settles O19: the error registers are among what a Failed engine keeps. -/
theorem firstErrorIsKept : Obligations.FirstErrorIsKept := by
  intro i s t hf h
  rw [(exec_outcome h).eq_of_failed hf]
  exact ⟨rfl, rfl, rfl⟩

/-! ### How a command ends in an operating engine (R162, R167) -/

/-- The state that `i` raises an error in, when run from `s`: `s` itself, but for `CSUM` of `CSUM.VERIFY` (R167). -/
def raiseState (i : Instr) (s : State) : State :=
  match i with
  | .csumVerify => { s with csum := csumCompute s.img }
  | _ => s

theorem raiseState_of_ne {i : Instr} (hi : i ≠ .csumVerify) (s : State) : raiseState i s = s := by
  cases i with
  | csumVerify => exact absurd rfl hi
  | _ => rfl

/-- The end of a command that meets the entry `c` of the table of causes: it completes where there is none, and otherwise raises
that error in the state `b`. -/
inductive EndsAs (b : State) : Option (ErrCode × Nat × Nat) → State → Prop
  | completes {u : State} (v : Word) (hu : u.Operating) : EndsAs b none (answered u v)
  | raises (e : ErrCode) (m n : Nat) : EndsAs b (some (e, m, n)) (raised b e (BitVec.ofNat 16 m) (BitVec.ofNat 16 n))

theorem EndsAs.eq_raised {b t : State} {c : Option (ErrCode × Nat × Nat)} (h : EndsAs b c t) (ht : t.err ≠ .none) :
    t = raised b t.err t.errA t.errB := by
  cases h with
  | completes v hu => exact absurd hu ht
  | raises e m n => rfl

/-- The information words of an `IllegalCommand` as numbers (R60, R162). -/
theorem raise_illegalCommand_eq_raised (s : State) (w : Command) :
    s.raise (.illegalCommand w) =
      raised s .illegalCommand (BitVec.ofNat 16 (w.toNat % 2 ^ 16)) (BitVec.ofNat 16 (w.toNat / 2 ^ 16 % 2 ^ 16)) := by
  have hA : w.extractLsb' 0 16 = BitVec.ofNat 16 (w.toNat % 2 ^ 16) := by
    apply BitVec.eq_of_toNat_eq
    simp
  have hB : w.extractLsb' 16 16 = BitVec.ofNat 16 (w.toNat / 2 ^ 16 % 2 ^ 16) := by
    apply BitVec.eq_of_toNat_eq
    simp [Nat.shiftRight_eq_div_pow]
  rw [← hA, ← hB]
  rfl

/-- The range that `firstOutside` names leaves the image exactly when that of one of the three descriptors does (R133). -/
theorem outside_firstOutside_iff (m : Memory) :
    outside (firstOutside m) ↔ ∃ k, k < 3 ∧ outside (descriptor m k) := by
  by_cases h₀ : outside (descriptor m 0)
  · have hfirst : firstOutside m = descriptor m 0 := if_pos h₀
    exact iff_of_true (hfirst ▸ h₀) ⟨0, by decide, h₀⟩
  by_cases h₁ : outside (descriptor m 1)
  · have hfirst : firstOutside m = descriptor m 1 := (if_neg h₀).trans (if_pos h₁)
    exact iff_of_true (hfirst ▸ h₁) ⟨1, by decide, h₁⟩
  have hfirst : firstOutside m = descriptor m 2 := (if_neg h₀).trans (if_neg h₁)
  rw [hfirst]
  refine ⟨fun h => ⟨2, by decide, h⟩, fun ⟨k, hk, hout⟩ => ?_⟩
  interval_cases k
  · exact absurd hout h₀
  · exact absurd hout h₁
  · exact hout

theorem exec_fldDecode_outside {s : State} (hs : s.Operating) (hout : outside (firstOutside s.img)) :
    exec .fldDecode s = .next (raised s .boundsFault (BitVec.ofNat 16 (firstOutside s.img).1)
      (BitVec.ofNat 16 (firstOutside s.img).2)) :=
  (exec_fldDecode_error hs (decodeRecord_outside ((outside_firstOutside_iff s.img).1 hout))).trans rfl

/-- With every descriptor inside the image, `FLD.DECODE` completes (R133). -/
theorem exec_fldDecode_inside {s : State} (hs : s.Operating) (hin : ¬outside (firstOutside s.img)) :
    ∃ r : Record, exec .fldDecode s =
      .next (answered { s with regs := r.regs, umem := r.umem, fcfg := r.fcfg, strs := r.strs } 0) := by
  have hstrs : decodeStrings s.img s.mode = .ok (describedStrs s.img s.mode) := decodeStrings_ok fun n => by
    rw [get_describedStrs, decodeSlot_inside s.mode fun hn =>
      hin ((outside_firstOutside_iff s.img).2 ⟨_, n.slot.isLt, hn⟩)]
  exact ⟨_, exec_fldDecode_ok hs (decodeRecord_ok hstrs)⟩

/-- Every legal command ends as the table of causes says, whatever operating engine runs it. -/
theorem exec_endsAs_cause {i : Instr} {s : State} (hi : i.wellFormed = true) (hs : s.Operating) :
    ∃ t, exec i s = .next t ∧ EndsAs (raiseState i s) (cause i s) t := by
  cases i with
  | imgLdb a => exact ⟨_, exec_imgLdb hs a, .completes _ hs⟩
  | imgStb a v => exact ⟨_, exec_imgStb hs a v, .completes _ hs⟩
  | imgLdw w => exact ⟨_, exec_imgLdw hs w, .completes _ hs⟩
  | imgStw w v => exact ⟨_, exec_imgStw hs w v, .completes _ hs⟩
  | recRd r => exact ⟨_, exec_recRd hs r, .completes _ hs⟩
  | recWr r v => exact ⟨_, exec_recWr hs hi, .completes _ ((writeReg_err s r v).trans hs)⟩
  | strClr n => exact ⟨_, exec_strClr hs n, .completes _ hs⟩
  | strLen n => exact ⟨_, exec_strLen hs n, .completes _ hs⟩
  | csrRd c => exact ⟨_, exec_csrRd c s, .completes _ hs⟩
  | csumCompute => exact ⟨_, exec_csumCompute hs, .completes _ hs⟩
  | csumStamp => exact ⟨_, exec_csumStamp hs, .completes _ hs⟩
  | strPutc n ch =>
    by_cases hfull : 255 ≤ (s.strs.get n).length
    · rw [exec_strPutc_full hs n ch hfull, raise_illegalCommand_eq_raised, cause, if_pos hfull]
      exact ⟨_, rfl, .raises ..⟩
    · rw [exec_strPutc_room hs hi (Nat.lt_of_not_le hfull), cause, if_neg hfull]
      exact ⟨_, rfl, .completes _ hs⟩
  | strGetc n idx =>
    by_cases hidx : (s.strs.get n).length ≤ idx.toNat
    · rw [exec_strGetc_outside hs hidx, raise_illegalCommand_eq_raised, cause, if_pos hidx]
      exact ⟨_, rfl, .raises ..⟩
    · rw [exec_strGetc_inside hs (Nat.lt_of_not_le hidx), cause, if_neg hidx]
      exact ⟨_, rfl, .completes _ hs⟩
  | csumVerify =>
    by_cases heq : csumCompute s.img = s.img.getLe16 0xFE
    · rw [exec_csumVerify hs, if_pos heq, cause, if_pos heq]
      exact ⟨_, rfl, .completes _ hs⟩
    · rw [exec_csumVerify hs, if_neg heq, cause, if_neg heq]
      refine ⟨_, rfl, ?_⟩
      have hend : EndsAs (raiseState .csumVerify s) _ _ :=
        .raises .checksumMismatch (csumCompute s.img).toNat (s.img.getLe16 0xFE).toNat
      rwa [BitVec.ofNat_toNat, BitVec.ofNat_toNat, BitVec.setWidth_eq, BitVec.setWidth_eq] at hend
  | strCheck =>
    by_cases hover : 96 < characters s
    · rw [exec_strCheck_over hs hover, cause, if_pos hover]
      exact ⟨_, rfl, .raises ..⟩
    · rw [exec_strCheck_within hs (Nat.le_of_not_lt hover), cause, if_neg hover]
      exact ⟨_, rfl, .completes _ hs⟩
  | strEncode n k cur =>
    rw [cause, emitted_eq_emittedLen]
    rcases strEncode_cases s.img (s.strs.get n) k cur.toNat s.mode with ⟨hfit, he⟩ | ⟨hout, -⟩
    · rw [exec_strEncode_ok hs hi he, if_neg (Nat.not_lt.2 hfit)]
      exact ⟨_, rfl, .completes _ hs⟩
    · rw [exec_strEncode_misfit hs hi hout, if_pos hout]
      exact ⟨_, rfl, .raises ..⟩
  | strDecode n offset length =>
    by_cases hout : 256 < offset.toNat + length.toNat
    · rw [exec_strDecode_outside hs hout, cause, if_pos hout, ← BitVec.ofNat_toNat, ← BitVec.ofNat_toNat]
      exact ⟨_, rfl, .raises ..⟩
    · rw [exec_strDecode_ok hs (strDecode_inside s.img s.mode (Nat.le_of_not_lt hout)), cause, if_neg hout]
      exact ⟨_, rfl, .completes _ hs⟩
  | fldEncode =>
    by_cases hover : 96 < characters s
    · rw [exec_fldEncode_over hs hover, cause, if_pos hover]
      exact ⟨_, rfl, .raises ..⟩
    have hbudget := Nat.le_of_not_lt hover
    rw [cause, if_neg hover]
    by_cases hout : 96 < emittedTotal s
    · rw [exec_fldEncode_misfit hs hbudget hout, if_pos hout]
      exact ⟨_, rfl, .raises ..⟩
    · obtain ⟨m, he, -⟩ := exec_fldEncode_fits hs hbudget (Nat.le_of_not_lt hout)
      rw [he, if_neg hout]
      exact ⟨_, rfl, .completes _ hs⟩
  | fldDecode =>
    by_cases hout : 256 < (firstOutside s.img).1 + (firstOutside s.img).2
    · rw [exec_fldDecode_outside hs hout, cause, if_pos hout]
      exact ⟨_, rfl, .raises ..⟩
    · obtain ⟨r, he⟩ := exec_fldDecode_inside hs hout
      rw [he, cause, if_neg hout]
      exact ⟨_, rfl, .completes _ hs⟩

/-- Settles O18: a legal command by `exec_endsAs_cause`, any other word by the check of R60. -/
theorem errorCausesAreExactlyTheTable : Obligations.ErrorCausesAreExactlyTheTable := by
  refine ⟨fun i s t hi hs h => ?_, fun w => raisesIllegal_of_not_legalWord⟩
  obtain ⟨t', ht', hend⟩ := exec_endsAs_cause hi hs
  obtain rfl : t' = t := Host.Outcome.next.inj (ht'.symm.trans h)
  generalize cause i s = c at hend ⊢
  cases hend with
  | completes v hu => exact hu
  | raises e m n => exact ⟨rfl, rfl, rfl⟩

/-! ### Errors are precise (R167) -/

/-- A command term that no legal word stands for raises in the state before it. -/
theorem exec_of_not_wellFormed {i : Instr} {s : State} (hi : ¬i.wellFormed = true) (hs : s.Operating) :
    exec i s = .next ((raiseState i s).raise (.illegalCommand (encode i))) := by
  cases i with
  | recWr r v =>
    refine (whenOperating_of_operating hs _).trans ?_
    rw [if_neg (show ¬valueFits r v = true from hi)]
    rfl
  | strPutc n ch =>
    refine (whenOperating_of_operating hs _).trans ?_
    have hrefused : ¬(legalChar ch && decide ((s.strs.get n).length < Config.strCap)) = true := fun h =>
      hi (Bool.and_eq_true_iff.1 h).1
    simp only [if_neg hrefused]
    rfl
  | strEncode n k cur =>
    refine (whenOperating_of_operating hs _).trans ?_
    rw [if_neg (show ¬legalCursor cur = true from hi)]
    rfl
  | _ => exact absurd rfl hi

/-- A command that does not complete has raised its error in `raiseState`. -/
theorem exec_raised {i : Instr} {s t : State} (hs : s.Operating) (h : exec i s = .next t) (ht : t.err ≠ .none) :
    t = raised (raiseState i s) t.err t.errA t.errB := by
  by_cases hi : i.wellFormed = true
  · obtain ⟨t', ht', hend⟩ := exec_endsAs_cause hi hs
    obtain rfl : t' = t := Host.Outcome.next.inj (ht'.symm.trans h)
    exact hend.eq_raised ht
  · rw [exec_of_not_wellFormed hi hs] at h
    cases h
    rfl

/-- Settles O17: the two clauses are the two forms of `raiseState`. -/
theorem errorsArePrecise : Obligations.ErrorsArePrecise := by
  intro i s t hs h ht
  have hraised := exec_raised hs h ht
  by_cases hi : i = .csumVerify
  · subst hi
    rw [hraised]
    exact ⟨rfl, fun hne => absurd rfl hne, fun _ => rfl⟩
  · rw [raiseState_of_ne hi] at hraised
    rw [hraised]
    exact ⟨rfl, fun _ => rfl, fun heq => absurd heq hi⟩

end Sys2Proof.Machine
end
